-- ==== Sys2Proof/Word.lean ====
section
/-! DEFINITION. The two word types of the block: the byte and the 16-bit operand (00_scope.md R10). -/

namespace Sys2Proof

/-- A byte: bit 7 is the most significant bit (00_scope.md R10). -/
abbrev Byte := BitVec 8

/-- A 16-bit unsigned host operand or result (30_encoding.md R92). -/
abbrev U16 := BitVec 16

end Sys2Proof
end

