-- ==== Sys2Proof/Config.lean ====
section
/-! DEFINITION. The parameters of the block (00_scope.md R5) and the constraints on them (R6). -/

namespace Sys2Proof

/-- The thirteen wire opcode parameters `OP_*` (30_encoding.md R83). -/
structure Opcodes where
  swReset : Byte
  driverControl : Byte
  dataMode : Byte
  setRamXPos : Byte
  setRamYPos : Byte
  setRamXCount : Byte
  setRamYCount : Byte
  writeBorder : Byte
  tempControl : Byte
  writeBwRam : Byte
  writeRedRam : Byte
  dispCtrl2 : Byte
  masterActivate : Byte
deriving DecidableEq, Repr

/-- The opcode values in the order of 30_encoding.md R82. -/
def Opcodes.toList (o : Opcodes) : List Byte :=
  [o.swReset, o.driverControl, o.dataMode, o.setRamXPos, o.setRamYPos, o.setRamXCount,
    o.setRamYCount, o.writeBorder, o.tempControl, o.writeBwRam, o.writeRedRam, o.dispCtrl2,
    o.masterActivate]

/-- PRESUMED (unsafe if wrong; log entry 6): the suggested defaults of 30_encoding.md R83, which the
spec marks as general knowledge (93_implementation_defined.md G1). -/
def Opcodes.std : Opcodes where
  swReset := 0x12
  driverControl := 0x01
  dataMode := 0x11
  setRamXPos := 0x44
  setRamYPos := 0x45
  setRamXCount := 0x4E
  setRamYCount := 0x4F
  writeBorder := 0x3C
  tempControl := 0x18
  writeBwRam := 0x24
  writeRedRam := 0x26
  dispCtrl2 := 0x22
  masterActivate := 0x20

/-- The parameters of 00_scope.md R5. A signal level is `true` when the line is high. -/
structure Config where
  width : Nat
  height : Nat
  resetHoldMs : Nat
  pollMs : Nat
  flagEntryXincYinc : Byte
  flagInternalTemp : Byte
  flagBorder : Byte
  flagDisplayMode1 : Byte
  bwClearByte : Byte
  redClearByte : Byte
  opcodes : Opcodes
  dcCmdLevel : Bool
  dcDataLevel : Bool
  busyActiveLevel : Bool
  csActiveLevel : Bool
deriving DecidableEq, Repr

namespace Config

/-- `ROW_BYTES = WIDTH/8` (R5). -/
def rowBytes (c : Config) : Nat := c.width / 8

/-- `PLANE_BYTES = ROW_BYTES × HEIGHT` (R5). -/
def planeBytes (c : Config) : Nat := c.rowBytes * c.height

/-- `PLANE_BITS = WIDTH × HEIGHT` (R5). -/
def planeBits (c : Config) : Nat := c.width * c.height

/-- The hardware's values (R5). The numbers the source states are normative (92_eei_decisions.md
D31); the opcodes and the four levels are the suggested defaults of the rows R5 marks OPEN:
PRESUMED, unsafe if wrong, log entry 6. -/
def std : Config where
  width := 200
  height := 200
  resetHoldMs := 10
  pollMs := 1
  flagEntryXincYinc := 0x03
  flagInternalTemp := 0x80
  flagBorder := 0x05 ||| 0x01
  flagDisplayMode1 := 0xF7
  bwClearByte := 0xFF
  redClearByte := 0x00
  opcodes := Opcodes.std
  dcCmdLevel := false
  dcDataLevel := true
  busyActiveLevel := true
  csActiveLevel := false

/-- The constraints under which the rules are stated: 00_scope.md R6, `WIDTH ≥ 8` as
42_driver_ops.md R164 reads it, and pairwise distinct opcodes (30_encoding.md R83). -/
structure Valid (c : Config) : Prop where
  width_mod : c.width % 8 = 0
  width_ge : 8 ≤ c.width
  width_le : c.width ≤ 2048
  height_ge : 2 ≤ c.height
  height_le : c.height ≤ 256
  planeBytes_lt : c.planeBytes < 65536
  opcodes_nodup : c.opcodes.toList.Nodup

/-- The hardware's values meet the constraints (R6: "200 × 200 meets all four"). -/
theorem std_valid : std.Valid := by
  constructor <;> decide

end Config

end Sys2Proof
end

