-- ==== Sys2Proof/Syntax.lean ====
section
/-! DEFINITION. The instructions: the sixteen host operations (30_encoding.md R91) and the thirteen
wire commands (R82), one constructor for each row of spec/opcode_table.json. -/

namespace Sys2Proof

/-- The three colours (43_framebuffer_ops.md R190). -/
inductive Color where
  | black
  | white
  | red
deriving DecidableEq, Repr

/-- The four rotation values (10_state.md R23): `R0`, `R90`, `R180`, `R270`. -/
inductive Rotation where
  | r0
  | r90
  | r180
  | r270
deriving DecidableEq, Repr

/-- The operand of a plane write (41_wire_commands.md R149, R150): a buffer, or the fill with the
plane's own clear byte. -/
inductive PlaneData where
  | buffer (bytes : List Byte)
  | clear
deriving DecidableEq, Repr

/-- The instructions. -/
inductive Instr where
  -- driver operations, 42_driver_ops.md R161 to R169
  | init
  | setRamWindow (x0 y0 x1 y1 : U16)
  | setRamCursor (x y : U16)
  | selectFullFrame
  | updateBwFrame (buffer : List Byte)
  | updateRedFrame (buffer : List Byte)
  | clearBwFrame
  | clearRedFrame
  | displayFrame
  -- framebuffer operations, 43_framebuffer_ops.md R199 to R206
  | fbClear (color : Color)
  | fbSetPixel (x y : U16) (color : Color)
  | fbSetRotation (r : Rotation)
  | fbRotation
  | fbSize
  | fbBlackData
  | fbRedData
  -- wire commands, 41_wire_commands.md R140 to R152
  | swReset
  | driverControl
  | dataMode
  | setRamXPos (x0 x1 : U16)
  | setRamYPos (y0 y1 : U16)
  | setRamXCount (x : U16)
  | setRamYCount (y : U16)
  | writeBorder
  | tempControl
  | writeBwRam (data : PlaneData)
  | writeRedRam (data : PlaneData)
  | dispCtrl2
  | masterActivate
deriving DecidableEq, Repr

/-- The host operations without their operands: the selectors of 30_encoding.md R91. -/
inductive HostOp where
  | init
  | setRamWindow
  | setRamCursor
  | selectFullFrame
  | updateBwFrame
  | updateRedFrame
  | clearBwFrame
  | clearRedFrame
  | displayFrame
  | fbClear
  | fbSetPixel
  | fbSetRotation
  | fbRotation
  | fbSize
  | fbBlackData
  | fbRedData
deriving DecidableEq, Repr

/-- The wire commands without their operands: the opcode roles of 30_encoding.md R82. -/
inductive WireOp where
  | swReset
  | driverControl
  | dataMode
  | setRamXPos
  | setRamYPos
  | setRamXCount
  | setRamYCount
  | writeBorder
  | tempControl
  | writeBwRam
  | writeRedRam
  | dispCtrl2
  | masterActivate
deriving DecidableEq, Repr

/-- What an instruction is an instance of: a host operation or a wire command. -/
inductive Op where
  | host (op : HostOp)
  | wire (op : WireOp)
deriving DecidableEq, Repr

/-- An instruction's operation. -/
def Instr.op : Instr → Op
  | .init => .host .init
  | .setRamWindow _ _ _ _ => .host .setRamWindow
  | .setRamCursor _ _ => .host .setRamCursor
  | .selectFullFrame => .host .selectFullFrame
  | .updateBwFrame _ => .host .updateBwFrame
  | .updateRedFrame _ => .host .updateRedFrame
  | .clearBwFrame => .host .clearBwFrame
  | .clearRedFrame => .host .clearRedFrame
  | .displayFrame => .host .displayFrame
  | .fbClear _ => .host .fbClear
  | .fbSetPixel _ _ _ => .host .fbSetPixel
  | .fbSetRotation _ => .host .fbSetRotation
  | .fbRotation => .host .fbRotation
  | .fbSize => .host .fbSize
  | .fbBlackData => .host .fbBlackData
  | .fbRedData => .host .fbRedData
  | .swReset => .wire .swReset
  | .driverControl => .wire .driverControl
  | .dataMode => .wire .dataMode
  | .setRamXPos _ _ => .wire .setRamXPos
  | .setRamYPos _ _ => .wire .setRamYPos
  | .setRamXCount _ => .wire .setRamXCount
  | .setRamYCount _ => .wire .setRamYCount
  | .writeBorder => .wire .writeBorder
  | .tempControl => .wire .tempControl
  | .writeBwRam _ => .wire .writeBwRam
  | .writeRedRam _ => .wire .writeRedRam
  | .dispCtrl2 => .wire .dispCtrl2
  | .masterActivate => .wire .masterActivate

/-- Whether the instruction is a wire command. -/
def Instr.isWire (i : Instr) : Bool :=
  match i.op with
  | .wire _ => true
  | .host _ => false

/-- The seven framebuffer operations (selectors 0x09 to 0x0F). -/
def HostOp.isFramebuffer : HostOp → Bool
  | .fbClear | .fbSetPixel | .fbSetRotation | .fbRotation | .fbSize | .fbBlackData
  | .fbRedData => true
  | .init | .setRamWindow | .setRamCursor | .selectFullFrame | .updateBwFrame | .updateRedFrame
  | .clearBwFrame | .clearRedFrame | .displayFrame => false

/-- Whether the instruction is one of the seven framebuffer operations. -/
def Instr.isFramebuffer (i : Instr) : Bool :=
  match i.op with
  | .wire _ => false
  | .host op => op.isFramebuffer

/-- Whether the instruction is one of the nine driver operations. -/
def Instr.isDriver (i : Instr) : Bool :=
  match i.op with
  | .wire _ => false
  | .host op => !op.isFramebuffer

/-- The bytes of one instruction, marked with the space they belong to: the host port or the wire
(20_memory.md R50). The two spaces share byte values. -/
inductive Frame where
  | host (bytes : List Byte)
  | wire (bytes : List Byte)
deriving DecidableEq, Repr

end Sys2Proof
end

