-- ==== Sys2Proof/WellFormed.lean ====
section
/-! DEFINITION. Which instructions their encoding can carry (30_encoding.md R82, R85, R92). The
checks an operation makes on its operands when it runs are in Machine/. -/

namespace Sys2Proof

/-- A buffer whose length the 16-bit `len` field holds (30_encoding.md R92). -/
def fitsLength (buffer : List Byte) : Bool := decide (buffer.length < 65536)

/-- An X operand whose byte `x >> 3` is exact (30_encoding.md R85: "`x` must satisfy `x < 2048`"). -/
def fitsXByte (x : U16) : Bool := decide (x.toNat < 2048)

/-- A plane write's payload is `PLANE_BYTES` long (30_encoding.md R82). -/
def PlaneData.wellFormed (c : Config) : PlaneData → Bool
  | .buffer bytes => decide (bytes.length = c.planeBytes)
  | .clear => true

/-- The instructions that have an encoding. A host operation with an operand the operation refuses
when it runs (an X of 2048 or more, an upload of the wrong length) is a well-formed request. -/
def Instr.wellFormed (c : Config) : Instr → Bool
  | .updateBwFrame buffer => fitsLength buffer
  | .updateRedFrame buffer => fitsLength buffer
  | .setRamXPos x0 x1 => fitsXByte x0 && fitsXByte x1
  | .setRamXCount x => fitsXByte x
  | .writeBwRam data => data.wellFormed c
  | .writeRedRam data => data.wellFormed c
  | .init => true
  | .setRamWindow _ _ _ _ => true
  | .setRamCursor _ _ => true
  | .selectFullFrame => true
  | .clearBwFrame => true
  | .clearRedFrame => true
  | .displayFrame => true
  | .fbClear _ => true
  | .fbSetPixel _ _ _ => true
  | .fbSetRotation _ => true
  | .fbRotation => true
  | .fbSize => true
  | .fbBlackData => true
  | .fbRedData => true
  | .swReset => true
  | .driverControl => true
  | .dataMode => true
  | .setRamYPos _ _ => true
  | .setRamYCount _ => true
  | .writeBorder => true
  | .tempControl => true
  | .dispCtrl2 => true
  | .masterActivate => true

end Sys2Proof
end

