-- ==== Sys2Proof/Decode.lean ====
section
/-! DEFINITION. The encodings of 30_encoding.md, read (decode) and written (encode): host requests
(R91 to R94, R102) and wire commands (R81 to R87, R101). -/

namespace Sys2Proof

/-! ## Bytes of 16-bit values (00_scope.md R10; 20_memory.md R53, R54) -/

/-- `lo(v) = v[7:0]` (00_scope.md R10). -/
def lo (v : U16) : Byte := v.extractLsb' 0 8

/-- `hi(v) = v[15:8]` (00_scope.md R10). -/
def hi (v : U16) : Byte := v.extractLsb' 8 8

/-- The 16-bit value `{h, l}` of two bytes sent low byte first. -/
def u16 (l h : Byte) : U16 := h ++ l

/-- The two bytes of a 16-bit value, low byte first (20_memory.md R53, R54). -/
def u16Bytes (v : U16) : List Byte := [lo v, hi v]

/-- The wire byte of an X coordinate, `x >> 3` (30_encoding.md R85). -/
def xByte (x : U16) : Byte := (x >>> 3).setWidth 8

/-- The X coordinate at the start of a wire byte's column: what the byte says of `x`, whose low three
bits the encoding drops (20_memory.md R56). -/
def xOfByte (b : Byte) : U16 := b.setWidth 16 <<< 3

/-! ## Codes -/

/-- Colour codes (30_encoding.md R93). -/
def Color.code : Color → Byte
  | .black => 0
  | .white => 1
  | .red => 2

/-- Colour codes read back; 3 to 255 are reserved (30_encoding.md R93). -/
def decodeColor (b : Byte) : Option Color :=
  [Color.black, Color.white, Color.red].find? fun color => color.code = b

/-- Rotation codes (30_encoding.md R94). -/
def Rotation.code : Rotation → Byte
  | .r0 => 0
  | .r90 => 1
  | .r180 => 2
  | .r270 => 3

/-- Rotation codes read back; 4 to 255 are reserved (30_encoding.md R94). -/
def decodeRotation (b : Byte) : Option Rotation :=
  [Rotation.r0, Rotation.r90, Rotation.r180, Rotation.r270].find? fun r => r.code = b

/-- Selector values (30_encoding.md R91). -/
def HostOp.selector : HostOp → Byte
  | .init => 0x00
  | .setRamWindow => 0x01
  | .setRamCursor => 0x02
  | .selectFullFrame => 0x03
  | .updateBwFrame => 0x04
  | .updateRedFrame => 0x05
  | .clearBwFrame => 0x06
  | .clearRedFrame => 0x07
  | .displayFrame => 0x08
  | .fbClear => 0x09
  | .fbSetPixel => 0x0A
  | .fbSetRotation => 0x0B
  | .fbRotation => 0x0C
  | .fbSize => 0x0D
  | .fbBlackData => 0x0E
  | .fbRedData => 0x0F

/-- The sixteen host operations in the order of their selectors. -/
def HostOp.all : List HostOp :=
  [.init, .setRamWindow, .setRamCursor, .selectFullFrame, .updateBwFrame, .updateRedFrame,
    .clearBwFrame, .clearRedFrame, .displayFrame, .fbClear, .fbSetPixel, .fbSetRotation,
    .fbRotation, .fbSize, .fbBlackData, .fbRedData]

/-- The host operation a selector byte names; 0x10 to 0xFF are reserved (30_encoding.md R97). -/
def decodeSelector (b : Byte) : Option HostOp :=
  HostOp.all.find? fun op => op.selector = b

/-- Opcode values, parameters of the configuration (30_encoding.md R83). -/
def WireOp.opcode (c : Config) : WireOp → Byte
  | .swReset => c.opcodes.swReset
  | .driverControl => c.opcodes.driverControl
  | .dataMode => c.opcodes.dataMode
  | .setRamXPos => c.opcodes.setRamXPos
  | .setRamYPos => c.opcodes.setRamYPos
  | .setRamXCount => c.opcodes.setRamXCount
  | .setRamYCount => c.opcodes.setRamYCount
  | .writeBorder => c.opcodes.writeBorder
  | .tempControl => c.opcodes.tempControl
  | .writeBwRam => c.opcodes.writeBwRam
  | .writeRedRam => c.opcodes.writeRedRam
  | .dispCtrl2 => c.opcodes.dispCtrl2
  | .masterActivate => c.opcodes.masterActivate

/-- The thirteen wire commands in the order of 30_encoding.md R82. -/
def WireOp.all : List WireOp :=
  [.swReset, .driverControl, .dataMode, .setRamXPos, .setRamYPos, .setRamXCount, .setRamYCount,
    .writeBorder, .tempControl, .writeBwRam, .writeRedRam, .dispCtrl2, .masterActivate]

/-- The wire command an opcode byte names (30_encoding.md R82, R89). -/
def decodeOpcode (c : Config) (b : Byte) : Option WireOp :=
  WireOp.all.find? fun op => op.opcode c = b

/-! ## Host requests -/

/-- Reads the operands of a host operation from the bytes after the selector and gives the rest
(30_encoding.md R92). -/
def decodeOperands (op : HostOp) (bytes : List Byte) : Option (Instr × List Byte) :=
  match op with
  | .init => some (.init, bytes)
  | .setRamWindow =>
    match bytes with
    | a :: b :: c :: d :: e :: f :: g :: h :: rest =>
      some (.setRamWindow (u16 a b) (u16 c d) (u16 e f) (u16 g h), rest)
    | _ => none
  | .setRamCursor =>
    match bytes with
    | a :: b :: c :: d :: rest => some (.setRamCursor (u16 a b) (u16 c d), rest)
    | _ => none
  | .selectFullFrame => some (.selectFullFrame, bytes)
  | .updateBwFrame =>
    match bytes with
    | a :: b :: rest =>
      if (u16 a b).toNat ≤ rest.length then
        some (.updateBwFrame (rest.take (u16 a b).toNat), rest.drop (u16 a b).toNat)
      else none
    | _ => none
  | .updateRedFrame =>
    match bytes with
    | a :: b :: rest =>
      if (u16 a b).toNat ≤ rest.length then
        some (.updateRedFrame (rest.take (u16 a b).toNat), rest.drop (u16 a b).toNat)
      else none
    | _ => none
  | .clearBwFrame => some (.clearBwFrame, bytes)
  | .clearRedFrame => some (.clearRedFrame, bytes)
  | .displayFrame => some (.displayFrame, bytes)
  | .fbClear =>
    match bytes with
    | k :: rest => (decodeColor k).map fun color => (.fbClear color, rest)
    | _ => none
  | .fbSetPixel =>
    match bytes with
    | a :: b :: c :: d :: k :: rest =>
      (decodeColor k).map fun color => (.fbSetPixel (u16 a b) (u16 c d) color, rest)
    | _ => none
  | .fbSetRotation =>
    match bytes with
    | k :: rest => (decodeRotation k).map fun r => (.fbSetRotation r, rest)
    | _ => none
  | .fbRotation => some (.fbRotation, bytes)
  | .fbSize => some (.fbSize, bytes)
  | .fbBlackData => some (.fbBlackData, bytes)
  | .fbRedData => some (.fbRedData, bytes)

/-- Reads one request from the front of a byte sequence and gives the rest (30_encoding.md R102). -/
def decodeFront (bytes : List Byte) : Option (Instr × List Byte) :=
  match bytes with
  | [] => none
  | sel :: rest =>
    match decodeSelector sel with
    | none => none
    | some op => decodeOperands op rest

/-- Decodes a host request; a request of the wrong length is reserved (30_encoding.md R97). -/
def decodeRequest (bytes : List Byte) : Option Instr :=
  match decodeFront bytes with
  | some (i, []) => some i
  | _ => none

/-! ## Wire commands -/

/-- The bytes a plane write carries (41_wire_commands.md R149, R150). -/
def PlaneData.bytes (c : Config) (clearByte : Byte) : PlaneData → List Byte
  | .buffer bytes => bytes
  | .clear => List.replicate c.planeBytes clearByte

/-- The payload of `DRIVER_CONTROL` (30_encoding.md R87). -/
def driverControlPayload (c : Config) : List Byte := [BitVec.ofNat 8 (c.height - 1), 0x00, 0x00]

/-- Reads a wire command's payload (30_encoding.md R82): the constant payloads must be the constants,
the others carry the operands. -/
def decodePayload (c : Config) (op : WireOp) (payload : List Byte) : Option Instr :=
  match op with
  | .swReset => if payload = [] then some .swReset else none
  | .driverControl => if payload = driverControlPayload c then some .driverControl else none
  | .dataMode => if payload = [c.flagEntryXincYinc] then some .dataMode else none
  | .setRamXPos =>
    match payload with
    | [a, b] => some (.setRamXPos (xOfByte a) (xOfByte b))
    | _ => none
  | .setRamYPos =>
    match payload with
    | [a, b, d, e] => some (.setRamYPos (u16 a b) (u16 d e))
    | _ => none
  | .setRamXCount =>
    match payload with
    | [a] => some (.setRamXCount (xOfByte a))
    | _ => none
  | .setRamYCount =>
    match payload with
    | [a, b] => some (.setRamYCount (u16 a b))
    | _ => none
  | .writeBorder => if payload = [c.flagBorder] then some .writeBorder else none
  | .tempControl => if payload = [c.flagInternalTemp] then some .tempControl else none
  | .writeBwRam =>
    if payload.length = c.planeBytes then some (.writeBwRam (.buffer payload)) else none
  | .writeRedRam =>
    if payload.length = c.planeBytes then some (.writeRedRam (.buffer payload)) else none
  | .dispCtrl2 => if payload = [c.flagDisplayMode1] then some .dispCtrl2 else none
  | .masterActivate => if payload = [] then some .masterActivate else none

/-- Decodes a wire command: its command byte followed by its payload (30_encoding.md R81, R82). -/
def decodeWire (c : Config) (bytes : List Byte) : Option Instr :=
  match bytes with
  | [] => none
  | b :: payload =>
    match decodeOpcode c b with
    | none => none
    | some op => decodePayload c op payload

/-! ## Encoding -/

/-- The operand bytes of a host operation (30_encoding.md R92) or the payload of a wire command (R82). -/
def Instr.operandBytes (c : Config) : Instr → List Byte
  | .init => []
  | .setRamWindow x0 y0 x1 y1 => u16Bytes x0 ++ u16Bytes y0 ++ u16Bytes x1 ++ u16Bytes y1
  | .setRamCursor x y => u16Bytes x ++ u16Bytes y
  | .selectFullFrame => []
  | .updateBwFrame buffer => u16Bytes (BitVec.ofNat 16 buffer.length) ++ buffer
  | .updateRedFrame buffer => u16Bytes (BitVec.ofNat 16 buffer.length) ++ buffer
  | .clearBwFrame => []
  | .clearRedFrame => []
  | .displayFrame => []
  | .fbClear color => [color.code]
  | .fbSetPixel x y color => u16Bytes x ++ u16Bytes y ++ [color.code]
  | .fbSetRotation r => [r.code]
  | .fbRotation => []
  | .fbSize => []
  | .fbBlackData => []
  | .fbRedData => []
  | .swReset => []
  | .driverControl => driverControlPayload c
  | .dataMode => [c.flagEntryXincYinc]
  | .setRamXPos x0 x1 => [xByte x0, xByte x1]
  | .setRamYPos y0 y1 => u16Bytes y0 ++ u16Bytes y1
  | .setRamXCount x => [xByte x]
  | .setRamYCount y => u16Bytes y
  | .writeBorder => [c.flagBorder]
  | .tempControl => [c.flagInternalTemp]
  | .writeBwRam data => data.bytes c c.bwClearByte
  | .writeRedRam data => data.bytes c c.redClearByte
  | .dispCtrl2 => [c.flagDisplayMode1]
  | .masterActivate => []

/-- The first byte of an instruction: a selector (30_encoding.md R91) or an opcode (R83). -/
def Op.firstByte (c : Config) : Op → Byte
  | .host op => op.selector
  | .wire op => op.opcode c

/-- The bytes of an instruction: a request (30_encoding.md R102) or a wire command (R81). -/
def Instr.encode (c : Config) (i : Instr) : List Byte := i.op.firstByte c :: i.operandBytes c

/-- The instruction its encoding says: a wire X operand loses its low three bits (20_memory.md R56),
and on the wire the two forms of a plane write differ by content alone (30_encoding.md R88). Every
other instruction is its own canonical form. -/
def Instr.canonical (c : Config) : Instr → Instr
  | .setRamXPos x0 x1 => .setRamXPos (xOfByte (xByte x0)) (xOfByte (xByte x1))
  | .setRamXCount x => .setRamXCount (xOfByte (xByte x))
  | .writeBwRam data => .writeBwRam (.buffer (data.bytes c c.bwClearByte))
  | .writeRedRam data => .writeRedRam (.buffer (data.bytes c c.redClearByte))
  | .init => .init
  | .setRamWindow x0 y0 x1 y1 => .setRamWindow x0 y0 x1 y1
  | .setRamCursor x y => .setRamCursor x y
  | .selectFullFrame => .selectFullFrame
  | .updateBwFrame buffer => .updateBwFrame buffer
  | .updateRedFrame buffer => .updateRedFrame buffer
  | .clearBwFrame => .clearBwFrame
  | .clearRedFrame => .clearRedFrame
  | .displayFrame => .displayFrame
  | .fbClear color => .fbClear color
  | .fbSetPixel x y color => .fbSetPixel x y color
  | .fbSetRotation r => .fbSetRotation r
  | .fbRotation => .fbRotation
  | .fbSize => .fbSize
  | .fbBlackData => .fbBlackData
  | .fbRedData => .fbRedData
  | .swReset => .swReset
  | .driverControl => .driverControl
  | .dataMode => .dataMode
  | .setRamYPos y0 y1 => .setRamYPos y0 y1
  | .setRamYCount y => .setRamYCount y
  | .writeBorder => .writeBorder
  | .tempControl => .tempControl
  | .dispCtrl2 => .dispCtrl2
  | .masterActivate => .masterActivate

/-! ## Frames: where an instruction's bytes stand -/

/-- The decoder: the instruction a frame holds. -/
def decodeFrame (c : Config) : Frame → Option Instr
  | .host bytes => decodeRequest bytes
  | .wire bytes => decodeWire c bytes

/-- The frame an instruction is encoded as. -/
def Instr.frame (c : Config) (i : Instr) : Frame :=
  match i.op with
  | .host _ => .host (i.encode c)
  | .wire _ => .wire (i.encode c)

/-- How many bytes the request at the front of `bytes` takes (30_encoding.md R92). -/
def requestLength (op : HostOp) (bytes : List Byte) : Nat :=
  match op with
  | .setRamWindow => 9
  | .setRamCursor => 5
  | .updateBwFrame => 3 + (u16 (bytes.getD 1 0) (bytes.getD 2 0)).toNat
  | .updateRedFrame => 3 + (u16 (bytes.getD 1 0) (bytes.getD 2 0)).toNat
  | .fbClear => 2
  | .fbSetPixel => 6
  | .fbSetRotation => 2
  | .init => 1
  | .selectFullFrame => 1
  | .clearBwFrame => 1
  | .clearRedFrame => 1
  | .displayFrame => 1
  | .fbRotation => 1
  | .fbSize => 1
  | .fbBlackData => 1
  | .fbRedData => 1

/-- A wire command's payload with its constant bytes in place and every operand byte 0. -/
def zeroPayload (c : Config) : WireOp → List Byte
  | .swReset => Instr.operandBytes c .swReset
  | .driverControl => Instr.operandBytes c .driverControl
  | .dataMode => Instr.operandBytes c .dataMode
  | .setRamXPos => Instr.operandBytes c (.setRamXPos 0 0)
  | .setRamYPos => Instr.operandBytes c (.setRamYPos 0 0)
  | .setRamXCount => Instr.operandBytes c (.setRamXCount 0)
  | .setRamYCount => Instr.operandBytes c (.setRamYCount 0)
  | .writeBorder => Instr.operandBytes c .writeBorder
  | .tempControl => Instr.operandBytes c .tempControl
  | .writeBwRam => List.replicate c.planeBytes 0
  | .writeRedRam => List.replicate c.planeBytes 0
  | .dispCtrl2 => Instr.operandBytes c .dispCtrl2
  | .masterActivate => Instr.operandBytes c .masterActivate

/-- The bytes of a word numbered as spec/opcode_table.json numbers it: bits 7 to 0 are the first byte. -/
def wordBytes (nbits w : Nat) : List Byte :=
  (List.range (nbits / 8)).map fun k => BitVec.ofNat 8 (w >>> (8 * k))

/-- `n` bytes from the front of `bytes`, zeros after its end. -/
def takePadded (n : Nat) (bytes : List Byte) : List Byte :=
  bytes.take n ++ List.replicate (n - bytes.length) 0

/-- The frame of a table word whose operand bytes above `nbits` are 0. A first byte that is a selector
is a host request, any other opcode byte a wire command; the one value in both spaces with the
default opcodes, 0x01, is read as the host request (log entry 7). -/
def tableFrame (c : Config) (nbits w : Nat) : Frame :=
  match wordBytes nbits w with
  | [] => .host []
  | b :: rest =>
    match decodeSelector b with
    | some op => .host (takePadded (requestLength op (b :: rest)) (b :: rest))
    | none =>
      match decodeOpcode c b with
      | some op => .wire (b :: (rest ++ (zeroPayload c op).drop rest.length))
      | none => .host (b :: rest)

/-- The instruction the decoder reads from a table word. -/
def decodeTableWord (nbits w : Nat) : Option Instr :=
  decodeFrame Config.std (tableFrame Config.std nbits w)

end Sys2Proof
end

