-- ==== Sys2Proof/Machine/State.lean ====
section
/-! DEFINITION. The state of the block (10_state.md), its inputs and its observation, all plain data. -/

namespace Sys2Proof.Machine

/-! ## Registers and pins -/

/-- The driver state register (10_state.md R21). -/
inductive Fsm where
  | uninitialized
  | resetting
  | softwareReset
  | configuring
  | ready
  | faulted
deriving DecidableEq, Repr

/-- The value of the driver state register (10_state.md R21); 6 and 7 are never taken. -/
def Fsm.code : Fsm → BitVec 3
  | .uninitialized => 0
  | .resetting => 1
  | .softwareReset => 2
  | .configuring => 3
  | .ready => 4
  | .faulted => 5

/-- The states `fsm` takes between operations (10_state.md R21, 42_driver_ops.md R171). -/
def Fsm.persistent : Fsm → Bool
  | .uninitialized | .ready | .faulted => true
  | .resetting | .softwareReset | .configuring => false

/-- The level of the reset output (00_scope.md R12): `low` is 0, `high` is 1. -/
inductive Level where
  | low
  | high
deriving DecidableEq, Repr

/-- The level of the data/command-select output (00_scope.md R12), by role. -/
inductive DcLevel where
  | cmd
  | data
deriving DecidableEq, Repr

/-- What a sample of the busy-sense input says (00_scope.md R12), by role. -/
inductive BusySample where
  | busy
  | idle
deriving DecidableEq, Repr

/-! ## Planes -/

/-- One bit-plane (10_state.md R25, R26): the bytes that differ from `Memory.background`, by rising
index. -/
abbrev Memory := List Host.Cell

/-- What an unlisted plane byte reads as. DESIGN CHOICE, unsafe, log entry 4. -/
def Memory.background : Byte := 0x00

/-- The canonical form: indices strictly rising, no entry equal to the background. -/
abbrev Memory.wf (m : Memory) : Prop :=
  m.Pairwise (fun a b => a.1 < b.1) ∧ ∀ cell ∈ m, cell.2 ≠ Memory.background

/-- Every listed index is below `n`. -/
abbrev Memory.within (n : Nat) (m : Memory) : Prop := ∀ cell ∈ m, cell.1 < n

/-! ## Errors, events, answers -/

/-- The seven error kinds (60_exceptions.md R220). -/
inductive ErrorKind where
  | invalidFormatError
  | busWriteError
  | dcError
  | csError
  | rsError
  | dataFormatNotImplemented
  | outOfBoundsError
deriving DecidableEq, Repr

/-- How a failed transfer failed, as the environment says (00_scope.md R12). -/
inductive XferFault where
  | bus
  | chipSelect
deriving DecidableEq, Repr

/-- The events of the panel-port trace (00_scope.md R12). -/
inductive Event where
  | rst (level : Level)
  | rstFail (level : Level)
  | dc (level : DcLevel)
  | dcFail (level : DcLevel)
  | xfer (bytes : List Byte)
  | xferFail (bytes : List Byte) (kind : ErrorKind)
  | dly (ms : Nat)
  | poll (sample : BusySample)
deriving DecidableEq, Repr

/-- How an action of the panel port failed: which kind of failure a transfer has, and the levels a
failed pin write leaves on its pin (95_test_vectors.md V1.13 calls it indeterminate: free values of
the environment, log entry 9). -/
structure PortFault where
  xfer : XferFault
  rstAfter : Level
  dcAfter : DcLevel
deriving DecidableEq, Repr

/-- The environment's answer to one `SetRST`, `SetDC` or `Xfer` (60_exceptions.md R223). -/
inductive Answer where
  | ok
  | fail (f : PortFault)
deriving DecidableEq, Repr

/-- A sequence of answers of the environment: those in `queue`, oldest first, then `rest` for ever
(log entry 2). -/
structure Feed (α : Type) where
  queue : List α
  rest : α
deriving DecidableEq, Repr

/-! ## Block reset -/

/-- The values that the elements 10_state.md R35 leaves unspecified take at a block reset. -/
structure PowerUp where
  rot : Rotation
  inv : Bool
  black : Memory
  red : Memory
  pinRst : Level
  pinDc : DcLevel
deriving DecidableEq, Repr

/-- The values the model names for `State.reset`. DESIGN CHOICE, unsafe, log entry 3. -/
def PowerUp.zero : PowerUp where
  rot := .r0
  inv := false
  black := []
  red := []
  pinRst := .low
  pinDc := .cmd

/-- A block reset to come: it arrives in place of a step, `after` steps after the one before it
(70_reset_and_hazards.md R260, R279; log entry 8). -/
structure ResetInput where
  after : Nat
  values : PowerUp
deriving DecidableEq, Repr

/-! ## State -/

/-- The state of the block (10_state.md R20), its observation (00_scope.md R8), and its inputs and
parameters. -/
structure State where
  /-- The parameters, constant (10_state.md R37). The model's own field, log entry 5. -/
  cfg : Config
  /-- 10_state.md R21. -/
  fsm : Fsm
  /-- 10_state.md R22. -/
  halted : Bool
  /-- 10_state.md R23. -/
  rot : Rotation
  /-- 10_state.md R24. -/
  inv : Bool
  /-- 10_state.md R25. -/
  black : Memory
  /-- 10_state.md R26. -/
  red : Memory
  /-- 10_state.md R28. -/
  pinRst : Level
  /-- 10_state.md R28. -/
  pinDc : DcLevel
  /-- `cur_op`, 10_state.md R29. -/
  curOp : Option Instr
  /-- 10_state.md R29. -/
  useq : Nat
  /-- The panel-port events since block reset, NEWEST FIRST (00_scope.md R8); `State.events` gives
  them in order. -/
  trace : List Event
  /-- The responses since block reset, oldest first (00_scope.md R8, 30_encoding.md R95). -/
  responses : List (List Byte)
  /-- The host's requests to come (70_reset_and_hazards.md R279). The model's own field. -/
  requests : List (List Byte)
  /-- The next wire command of the operation in progress, as its bytes, where a step is to emit it alone.
  The model's own field, log entry 7. -/
  wireSlot : Option (List Byte)
  /-- The environment's answers to come (60_exceptions.md R223). The model's own field. -/
  portFeed : Feed Answer
  /-- The samples of BUSY to come (60_exceptions.md R223). The model's own field. -/
  busyFeed : Feed BusySample
  /-- The block resets to come, soonest first (70_reset_and_hazards.md R279). The model's own field. -/
  resets : List ResetInput
deriving DecidableEq, Repr

/-- The panel-port trace in order, oldest event first (00_scope.md R8). -/
def State.events (s : State) : List Event := s.trace.reverse

/-- Why a step stops with a fault. Neither arises in a configuration that meets 00_scope.md R6. -/
inductive Fault where
  /-- A plane access at an index the plane does not have (00_scope.md R11: `addr + n ≤ PLANE_BYTES`;
  20_memory.md R60). Raised by `readByte` and `writeByte`. Safe. -/
  | planeIndexOutOfRange
  /-- A transfer of no bytes, to which 40_transport.md R121 lets a model give no meaning. Raised by
  `perform`. Safe. -/
  | emptyTransfer
deriving DecidableEq, Repr

/-- Why a step is refused: the reasons of 60_exceptions.md R234. All are safe: nothing can be proved
of what follows. -/
inductive Refusal where
  /-- An instruction the model gives no meaning yet. Raised by `exec`'s arms alone. Safe. -/
  | notModelled (mnemonic : String)
  /-- Any operation while `halted = 1`. Raised by `admitAny`. Safe. -/
  | halted
  /-- A reserved selector, colour, rotation or opcode byte or a wrong length (30_encoding.md R97).
  Raised by `acceptFrame`. Safe. -/
  | reservedEncoding
  /-- A driver operation other than `INIT` before `INIT` (42_driver_ops.md R160). Raised by
  `admitDriver`. Safe. -/
  | beforeInit
  /-- A driver operation after a failure (42_driver_ops.md R160). Raised by `admitDriver`. Safe. -/
  | useAfterFault
  /-- An X operand of 2048 or more (42_driver_ops.md R162, R163). Raised by the operations with an X
  operand. Safe. -/
  | operandTooWide
  /-- A plane payload that is not `PLANE_BYTES` long (42_driver_ops.md R165, R166). Raised by the
  uploads and the plane writes. Safe. -/
  | bufferLength
  /-- A pixel outside the logical extent (43_framebuffer_ops.md R198). Raised by `FB_SET_PIXEL`. Safe. -/
  | pixelOutOfRange
  /-- An operation issued while another is in progress, which 42_driver_ops.md R160 says cannot arise.
  Raised by `admitAny` and `admitDriver`; no step meets it (log entry 11). Safe. -/
  | operationInProgress
  /-- A wire command that is not the next one of the driver procedure in progress, which
  41_wire_commands.md R153 says is not emitted. Raised by `runWire`; no host request is one (log entry 7).
  Safe. -/
  | notInProcedure
deriving DecidableEq, Repr

/-- The block right after block reset (10_state.md R35, 70_reset_and_hazards.md R260), for every choice
of what the spec leaves open: the parameters, the unspecified elements, the host's requests, the environment
(70_reset_and_hazards.md R280), and the block resets the host applies later (R279). -/
def State.launch (c : Config) (u : PowerUp) (requests : List (List Byte)) (port : Feed Answer)
    (busy : Feed BusySample) (resets : List ResetInput) : State where
  cfg := c
  fsm := .uninitialized
  halted := false
  rot := u.rot
  inv := u.inv
  black := u.black
  red := u.red
  pinRst := u.pinRst
  pinDc := u.pinDc
  curOp := none
  useq := 0
  trace := []
  responses := []
  requests := requests
  wireSlot := none
  portFeed := port
  busyFeed := busy
  resets := resets

/-- The state after reset: `fsm`, `halted`, `cur_op`, `useq` as 10_state.md R35 states; the unspecified
elements as `PowerUp.zero` names them (DESIGN CHOICE, unsafe, log entry 3); no request and no block reset
to come; an environment that answers ok and idle (DESIGN CHOICE, unsafe, log entry 2). -/
def State.reset : State :=
  State.launch Config.std PowerUp.zero [] ⟨[], .ok⟩ ⟨[], .idle⟩ []

end Sys2Proof.Machine
end

