-- ==== Sys2Proof/Machine/Operands.lean ====
section
/-! DEFINITION. The operand forms: widths of X operands (30_encoding.md R85), colours as plane bits
(43_framebuffer_ops.md R190), the logical extent (R204) and the address mapper (R191 to R196). -/

namespace Sys2Proof.Machine

/-- An X operand too large for its wire byte (42_driver_ops.md R162, R163). -/
def tooWide (x : U16) : Bool := decide (2048 ≤ x.toNat)

/-- `planeBits(color) = (kb, kr)`: black-plane bit and red-plane bit (43_framebuffer_ops.md R190). -/
def planeBits : Color → Bool × Bool
  | .white => (true, false)
  | .black => (false, false)
  | .red => (true, true)

/-- The whole-byte fill value of a plane bit (43_framebuffer_ops.md R190). -/
def fillByte (bit : Bool) : Byte := if bit then 0xFF else 0x00

/-- `size(rot) = (LW, LH)`, the logical extent (43_framebuffer_ops.md R204). -/
def logicalSize (c : Config) : Rotation → Nat × Nat
  | .r0 => (c.width, c.height)
  | .r90 => (c.height, c.width)
  | .r180 => (c.width, c.height)
  | .r270 => (c.height, c.width)

/-- `InRange(rot, x, y)` (43_framebuffer_ops.md R198). -/
abbrev InRange (c : Config) (r : Rotation) (x y : Nat) : Prop :=
  x < (logicalSize c r).1 ∧ y < (logicalSize c r).2

/-- The address mapper `map(rot, x, y) = (byteIndex, bitMask)` (43_framebuffer_ops.md R192 to R196). -/
def mapPixel (c : Config) (r : Rotation) (x y : Nat) : Nat × Byte :=
  match r with
  | .r0 => (x / 8 + c.rowBytes * y, 0x80#8 >>> (x % 8))
  | .r90 => ((c.width - 1 - y) / 8 + c.rowBytes * x, 0x01#8 <<< (y % 8))
  | .r180 => ((c.planeBytes - 1) - (x / 8 + c.rowBytes * y), 0x01#8 <<< (x % 8))
  | .r270 => (y / 8 + (c.height - 1 - x) * c.rowBytes, 0x80#8 >>> (y % 8))

/-- The physical pixel `(px, py)` of a logical one (43_framebuffer_ops.md R193 to R196). -/
def physical (c : Config) (r : Rotation) (x y : Nat) : Nat × Nat :=
  match r with
  | .r0 => (x, y)
  | .r90 => (c.width - 1 - y, x)
  | .r180 => (c.width - 1 - x, c.height - 1 - y)
  | .r270 => (y, c.height - 1 - x)

/-- The byte and mask of a physical pixel (20_memory.md R51, R52). -/
def physicalAddress (c : Config) (px py : Nat) : Nat × Byte :=
  (px / 8 + c.rowBytes * py, 0x80#8 >>> (px % 8))

end Sys2Proof.Machine
end

