-- ==== Sys2Proof/Machine/Flags.lean ====
section
/-! DEFINITION. Status. The block has no arithmetic flags (10_state.md R31): its status bits are
`halted` and the `fsm` value `Faulted`, and what it reports is the status byte of a response
(30_encoding.md R95, R96). -/

namespace Sys2Proof.Machine

/-- The status byte of `Ok` (30_encoding.md R96). -/
def okStatus : Byte := 0x00

/-- The status byte of an error kind (30_encoding.md R96). -/
def ErrorKind.code : ErrorKind → Byte
  | .invalidFormatError => 0x01
  | .busWriteError => 0x02
  | .dcError => 0x03
  | .csError => 0x04
  | .rsError => 0x05
  | .dataFormatNotImplemented => 0x06
  | .outOfBoundsError => 0x07

/-- The kind a failed transfer raises (60_exceptions.md R221). -/
def XferFault.kind : XferFault → ErrorKind
  | .bus => .busWriteError
  | .chipSelect => .csError

/-- The status bits of 10_state.md R31: `halted`, and `fsm = Faulted`. -/
def State.statusBits (s : State) : Bool × Bool := (s.halted, s.fsm = .faulted)

/-! ## Electrical levels (00_scope.md R5, rows marked OPEN); `true` is high. No rule reads them. -/

/-- The electrical level of the DC output. -/
def dcPin (c : Config) : DcLevel → Bool
  | .cmd => c.dcCmdLevel
  | .data => c.dcDataLevel

/-- The electrical level of the RST output (40_transport.md R124). -/
def rstPin : Level → Bool
  | .low => false
  | .high => true

/-- What a level on the busy-sense input means. -/
def sampleOfLevel (c : Config) (level : Bool) : BusySample :=
  if level = c.busyActiveLevel then .busy else .idle

/-- The electrical level of the chip-select output, asserted inside `Xfer` alone (10_state.md R28). -/
def csPin (c : Config) (asserted : Bool) : Bool :=
  if asserted then c.csActiveLevel else !c.csActiveLevel

end Sys2Proof.Machine
end

