-- ==== Sys2Proof/Machine/Ops.lean ====
section
/-! DEFINITION. The shared operations: plane bytes, panel-port primitives (00_scope.md R12), running
a procedure, the four ways an operation ends (R9), admission, block reset. -/

namespace Sys2Proof.Machine

/-! ## Plane bytes -/

/-- The byte at index `i`. -/
def Memory.get : Memory → Nat → Byte
  | [], _ => Memory.background
  | (j, v) :: rest, i => if j = i then v else Memory.get rest i

/-- Writes the byte at index `i`, in canonical form. -/
def Memory.set : Memory → Nat → Byte → Memory
  | [], i, v => if v = Memory.background then [] else [(i, v)]
  | (j, w) :: rest, i, v =>
    if i < j then (if v = Memory.background then (j, w) :: rest else (i, v) :: (j, w) :: rest)
    else if i = j then (if v = Memory.background then rest else (i, v) :: rest)
    else (j, w) :: Memory.set rest i v

/-- The plane whose first `n` bytes all are `v`. -/
def Memory.fill (n : Nat) (v : Byte) : Memory :=
  if v = Memory.background then [] else (List.range n).map fun i => (i, v)

/-- `MemRead(space, i, 1)` (00_scope.md R11). -/
def readByte (c : Config) (m : Memory) (i : Nat) : Option Byte :=
  if i < c.planeBytes then some (m.get i) else none

/-- `MemWrite(space, i, 1, v)` (00_scope.md R11). -/
def writeByte (c : Config) (m : Memory) (i : Nat) (v : Byte) : Option Memory :=
  if i < c.planeBytes then some (m.set i v) else none

/-- `MemRead(space, 0, PLANE_BYTES)` (00_scope.md R11). -/
def readPlane (c : Config) (m : Memory) : List Byte := (List.range c.planeBytes).map m.get

/-- Sets or clears the bits of `mask` in a byte (43_framebuffer_ops.md R199). -/
def putBits (b mask : Byte) (bit : Bool) : Byte := if bit then b ||| mask else b &&& ~~~mask

/-- One plane's read-modify-write of `FB_SET_PIXEL` (43_framebuffer_ops.md R199). -/
def writeBit (c : Config) (m : Memory) (i : Nat) (mask : Byte) (bit : Bool) : Option Memory :=
  match readByte c m i with
  | none => none
  | some b => writeByte c m i (putBits b mask bit)

/-! ## The environment's answers -/

/-- The next answer. -/
def Feed.head {α : Type} (f : Feed α) : α := f.queue.headD f.rest

/-- The answers after `n` more. -/
def Feed.drop {α : Type} (f : Feed α) (n : Nat) : Feed α := { f with queue := f.queue.drop n }

/-! ## Panel-port primitives -/

/-- The five primitives (00_scope.md R12). -/
inductive Prim where
  | setRst (level : Level)
  | setDc (level : DcLevel)
  | xfer (bytes : List Byte)
  | delay (ms : Nat)
  | readBusy
deriving DecidableEq, Repr

/-- How a primitive ends: it is done; it sampled BUSY; it raised an error; it has no meaning. -/
inductive PrimEnd where
  | ok (s : State)
  | busy (s : State)
  | err (kind : ErrorKind) (s : State)
  | bad (f : Fault)
deriving DecidableEq, Repr

/-- A primitive that is done: its event, and the next position (10_state.md R29). -/
def State.did (s : State) (e : Event) : State :=
  { s with trace := e :: s.trace, useq := s.useq + 1 }

/-- A primitive that failed: its event (60_exceptions.md R228). -/
def State.failed (s : State) (e : Event) : State := { s with trace := e :: s.trace }

/-- The state after one answer of the environment has been taken. -/
def State.answered (s : State) : State := { s with portFeed := s.portFeed.drop 1 }

/-- The state after one sample of BUSY has been taken. -/
def State.sampled (s : State) : State := { s with busyFeed := s.busyFeed.drop 1 }

/-- Performs one primitive (00_scope.md R12). A sample that reads `BUSY` is followed by
`Delay(POLL_MS)`, and the position steps back to the sample (40_transport.md R125, 10_state.md R29). -/
def perform (p : Prim) (s : State) : PrimEnd :=
  match p with
  | .setRst level =>
    match s.portFeed.head with
    | .ok => .ok ({ s with pinRst := level }.answered.did (.rst level))
    | .fail f => .err .rsError ({ s with pinRst := f.rstAfter }.answered.failed (.rstFail level))
  | .setDc level =>
    match s.portFeed.head with
    | .ok => .ok ({ s with pinDc := level }.answered.did (.dc level))
    | .fail f => .err .dcError ({ s with pinDc := f.dcAfter }.answered.failed (.dcFail level))
  | .xfer bytes =>
    if bytes = [] then .bad .emptyTransfer
    else
      match s.portFeed.head with
      | .ok => .ok (s.answered.did (.xfer bytes))
      | .fail f => .err f.xfer.kind (s.answered.failed (.xferFail bytes f.xfer.kind))
  | .delay ms => .ok (s.did (.dly ms))
  | .readBusy =>
    match s.busyFeed.head with
    | .idle => .ok (s.sampled.did (.poll .idle))
    | .busy =>
      .busy { s.sampled with trace := .dly s.cfg.pollMs :: .poll .busy :: s.trace }

/-! ## Running a procedure -/

/-- One action of a procedure: a primitive, a change of `fsm` (42_driver_ops.md R161), or a contract
check (R162). -/
inductive Action where
  | prim (p : Prim)
  | fsm (f : Fsm)
  | contract (holds : Bool)
deriving DecidableEq, Repr

/-- How a run of actions ends: at its end; waiting for the panel; with an error; with a contract
violation; at a primitive that has no meaning. -/
inductive RunEnd where
  | done (s : State)
  | waiting (s : State)
  | err (kind : ErrorKind) (s : State)
  | abort (s : State)
  | bad (f : Fault)
deriving DecidableEq, Repr

/-- Runs actions in order up to the first that ends the run (40_transport.md R126). -/
def run : List Action → State → RunEnd
  | [], s => .done s
  | .fsm f :: rest, s => run rest { s with fsm := f }
  | .contract holds :: rest, s => if holds then run rest s else .abort s
  | .prim p :: rest, s =>
    match perform p s with
    | .ok s' => run rest s'
    | .busy s' => .waiting s'
    | .err kind s' => .err kind s'
    | .bad f => .bad f

/-- The actions from the primitive numbered `n` on, counted from 0, with the changes of `fsm` and the checks
right before it (10_state.md R29). -/
def skipPrims : Nat → List Action → List Action
  | 0, rest => rest
  | _ + 1, [] => []
  | n + 1, .prim _ :: rest => skipPrims n rest
  | n + 1, .fsm _ :: rest => skipPrims (n + 1) rest
  | n + 1, .contract _ :: rest => skipPrims (n + 1) rest

/-- `fsm` when the primitive numbered `n` is next, in a procedure that starts at `f`. -/
def fsmBefore : Nat → List Action → Fsm → Fsm
  | 0, _, f => f
  | _ + 1, [], f => f
  | n + 1, .prim _ :: rest, f => fsmBefore n rest f
  | n + 1, .fsm g :: rest, _ => fsmBefore (n + 1) rest g
  | n + 1, .contract _ :: rest, f => fsmBefore (n + 1) rest f

/-- The actions up to the end of `command`, where a list of actions goes on with it: the changes of `fsm`
and the checks before it, and it. -/
def upTo (command : List Action) : List Action → Option (List Action)
  | [] => none
  | .fsm f :: rest => (upTo command rest).map (.fsm f :: ·)
  | .contract holds :: rest => (upTo command rest).map (.contract holds :: ·)
  | .prim p :: rest => if command.isPrefixOf (.prim p :: rest) then some command else none

/-! ## The ends of an operation (00_scope.md R9) -/

/-- The operation is over: no operation in progress (10_state.md R29). -/
def State.ended (s : State) : State := { s with curOp := none, useq := 0 }

/-- `respond v`: the operation ends `Ok` and answers status 0x00 and the result (30_encoding.md R95). -/
def respond (result : List Byte) (s : State) : State :=
  { s.ended with responses := s.responses ++ [okStatus :: result] }

/-- Error entry (60_exceptions.md R228): `fsm ← Faulted`, no operation in progress, the status byte
answered; nothing is rolled back. The failing event is appended by `perform`. -/
def takeErr (kind : ErrorKind) (s : State) : State :=
  { s.ended with fsm := .faulted, responses := s.responses ++ [[kind.code]] }

/-- `Abort` (60_exceptions.md R231): `halted ← 1`, no operation in progress, no response, no event. -/
def takeAbort (s : State) : State := { s.ended with halted := true }

/-- What a run of actions makes of the operation: at its end, what `atEnd` says; an operation that waits
for the panel stays in progress (60_exceptions.md R237). -/
def finish (atEnd : State → State) : RunEnd → Host.Outcome State Fault Refusal
  | .done s => .next (atEnd s)
  | .waiting s => .next s
  | .err kind s => .next (takeErr kind s)
  | .abort s => .next (takeAbort s)
  | .bad f => .fault f

/-- Starts an operation: it is in progress, at its first primitive (10_state.md R29). -/
def State.started (s : State) (i : Instr) : State := { s with curOp := some i, useq := 0 }

/-- Runs an operation's procedure from its start. -/
def runOp (i : Instr) (actions : List Action) (s : State) : Host.Outcome State Fault Refusal :=
  finish (respond []) (run actions (s.started i))

/-! ## Admission (60_exceptions.md R235) -/

/-- The check of every operation: `Halted` first. An operation in progress cannot be overtaken
(00_scope.md R7); no step asks that (log entry 11). -/
def admitAny (s : State) : Option Refusal :=
  if s.halted then some .halted
  else if s.curOp.isSome then some .operationInProgress
  else none

/-- The `fsm` table of 42_driver_ops.md R160. -/
def admitFsm (isInit : Bool) : Fsm → Option Refusal
  | .uninitialized => if isInit then none else some .beforeInit
  | .ready => none
  | .faulted => some .useAfterFault
  | .resetting => some .operationInProgress
  | .softwareReset => some .operationInProgress
  | .configuring => some .operationInProgress

/-- Admission of a driver operation (42_driver_ops.md R160). -/
def admitDriver (isInit : Bool) (s : State) : Option Refusal :=
  match admitAny s with
  | some r => some r
  | none => admitFsm isInit s.fsm

/-! ## Block reset -/

/-- The framebuffer part of block reset, the pseudo-operation `FB_NEW` (43_framebuffer_ops.md R201). -/
def fbNew (u : PowerUp) (s : State) : State :=
  { s with rot := u.rot, inv := u.inv, black := u.black, red := u.red }

/-- Block reset (70_reset_and_hazards.md R260): the table of 10_state.md R35, with the unspecified
elements as `u` gives them; the observation starts again. The inputs and the parameters stay, the block
resets still to come among them (log entry 8). -/
def blockReset (u : PowerUp) (s : State) : State :=
  { fbNew u s with
    fsm := .uninitialized
    halted := false
    curOp := none
    useq := 0
    pinRst := u.pinRst
    pinDc := u.pinDc
    trace := []
    responses := []
    wireSlot := none }

end Sys2Proof.Machine
end

