-- ==== Sys2Proof/Machine/Framebuffer.lean ====
section
/-! DEFINITION. The seven framebuffer operations (43_framebuffer_ops.md). None touches the panel port. -/

namespace Sys2Proof.Machine

/-- Admission of a framebuffer operation (43_framebuffer_ops.md R208), then its effect. -/
def runFramebuffer (effect : State → Host.Outcome State Fault Refusal) (s : State) :
    Host.Outcome State Fault Refusal :=
  match admitAny s with
  | some r => .refused r
  | none => effect s

/-- `FB_CLEAR` (43_framebuffer_ops.md R200). -/
def execFbClear (color : Color) (s : State) : Host.Outcome State Fault Refusal :=
  runFramebuffer (fun s =>
    .next (respond []
      { s with
        black := Memory.fill s.cfg.planeBytes (fillByte (planeBits color).1)
        red := Memory.fill s.cfg.planeBytes (fillByte (planeBits color).2) })) s

/-- `FB_SET_PIXEL` (43_framebuffer_ops.md R199). -/
def execFbSetPixel (x y : U16) (color : Color) (s : State) : Host.Outcome State Fault Refusal :=
  runFramebuffer (fun s =>
    if InRange s.cfg s.rot x.toNat y.toNat then
      match mapPixel s.cfg s.rot x.toNat y.toNat with
      | (i, mask) =>
        match writeBit s.cfg s.black i mask (planeBits color).1,
            writeBit s.cfg s.red i mask (planeBits color).2 with
        | some black, some red => .next (respond [] { s with black := black, red := red })
        | _, _ => .fault .planeIndexOutOfRange
    else .refused .pixelOutOfRange) s

/-- `FB_SET_ROTATION` (43_framebuffer_ops.md R202). -/
def execFbSetRotation (r : Rotation) (s : State) : Host.Outcome State Fault Refusal :=
  runFramebuffer (fun s => .next (respond [] { s with rot := r })) s

/-- `FB_ROTATION` (43_framebuffer_ops.md R203). -/
def execFbRotation (s : State) : Host.Outcome State Fault Refusal :=
  runFramebuffer (fun s => .next (respond [s.rot.code] s)) s

/-- `FB_SIZE` (43_framebuffer_ops.md R204; result layout 30_encoding.md R95). -/
def execFbSize (s : State) : Host.Outcome State Fault Refusal :=
  runFramebuffer (fun s =>
    .next (respond
      (u16Bytes (BitVec.ofNat 16 (logicalSize s.cfg s.rot).1)
        ++ u16Bytes (BitVec.ofNat 16 (logicalSize s.cfg s.rot).2)) s)) s

/-- `FB_BLACK_DATA` (43_framebuffer_ops.md R205). -/
def execFbBlackData (s : State) : Host.Outcome State Fault Refusal :=
  runFramebuffer (fun s => .next (respond (readPlane s.cfg s.black) s)) s

/-- `FB_RED_DATA` (43_framebuffer_ops.md R206). -/
def execFbRedData (s : State) : Host.Outcome State Fault Refusal :=
  runFramebuffer (fun s => .next (respond (readPlane s.cfg s.red) s)) s

end Sys2Proof.Machine
end

