-- ==== Sys2Proof/Machine/Transport.lean ====
section
/-! DEFINITION. The six transport procedures (40_transport.md), as lists of actions. -/

namespace Sys2Proof.Machine

/-- `sendCommand(opcode)` (40_transport.md R120). -/
def sendCommand (opcode : Byte) : List Action := [.prim (.setDc .cmd), .prim (.xfer [opcode])]

/-- `sendData(bytes)` (40_transport.md R121). -/
def sendData (bytes : List Byte) : List Action := [.prim (.setDc .data), .prim (.xfer bytes)]

/-- `sendCommandWithData(opcode, bytes)` (40_transport.md R122). -/
def sendCommandWithData (opcode : Byte) (bytes : List Byte) : List Action :=
  sendCommand opcode ++ sendData bytes

/-- `repeatByte(value, count)` (40_transport.md R123): one transfer of one byte, `count` times. -/
def repeatByte (value : Byte) (count : Nat) : List Action :=
  .prim (.setDc .data) :: List.replicate count (.prim (.xfer [value]))

/-- `reset()` (40_transport.md R124). -/
def resetPulse (c : Config) : List Action :=
  [.prim (.setRst .low), .prim (.delay c.resetHoldMs), .prim (.setRst .high),
    .prim (.delay c.resetHoldMs)]

/-- `waitUntilIdle()` (40_transport.md R125): the sample; `perform` makes the loop. -/
def waitUntilIdle : List Action := [.prim .readBusy]

end Sys2Proof.Machine
end

