-- ==== Sys2Proof/Machine/Emit.lean ====
section
/-! DEFINITION. What the block sends for each of the thirteen wire commands (41_wire_commands.md), and the
checks of their operands. -/

namespace Sys2Proof.Machine

/-- 41_wire_commands.md R140. -/
def emitSwReset (c : Config) : List Action := sendCommand c.opcodes.swReset

/-- 41_wire_commands.md R141. -/
def emitDriverControl (c : Config) : List Action :=
  sendCommandWithData c.opcodes.driverControl [BitVec.ofNat 8 (c.height - 1), 0x00, 0x00]

/-- 41_wire_commands.md R142. -/
def emitDataMode (c : Config) : List Action :=
  sendCommandWithData c.opcodes.dataMode [c.flagEntryXincYinc]

/-- 41_wire_commands.md R143. -/
def emitSetRamXPos (c : Config) (x0 x1 : U16) : List Action :=
  sendCommandWithData c.opcodes.setRamXPos [xByte x0, xByte x1]

/-- 41_wire_commands.md R144. -/
def emitSetRamYPos (c : Config) (y0 y1 : U16) : List Action :=
  sendCommandWithData c.opcodes.setRamYPos [lo y0, hi y0, lo y1, hi y1]

/-- 41_wire_commands.md R145. -/
def emitSetRamXCount (c : Config) (x : U16) : List Action :=
  sendCommandWithData c.opcodes.setRamXCount [xByte x]

/-- 41_wire_commands.md R146. -/
def emitSetRamYCount (c : Config) (y : U16) : List Action :=
  sendCommandWithData c.opcodes.setRamYCount [lo y, hi y]

/-- 41_wire_commands.md R147. -/
def emitWriteBorder (c : Config) : List Action :=
  sendCommandWithData c.opcodes.writeBorder [c.flagBorder]

/-- 41_wire_commands.md R148. -/
def emitTempControl (c : Config) : List Action :=
  sendCommandWithData c.opcodes.tempControl [c.flagInternalTemp]

/-- The data part of a plane write (41_wire_commands.md R149, R150). -/
def emitPlane (c : Config) (clearByte : Byte) : PlaneData → List Action
  | .buffer bytes => sendData bytes
  | .clear => repeatByte clearByte c.planeBytes

/-- 41_wire_commands.md R149. -/
def emitWriteBwRam (c : Config) (data : PlaneData) : List Action :=
  sendCommand c.opcodes.writeBwRam ++ emitPlane c c.bwClearByte data

/-- 41_wire_commands.md R150. -/
def emitWriteRedRam (c : Config) (data : PlaneData) : List Action :=
  sendCommand c.opcodes.writeRedRam ++ emitPlane c c.redClearByte data

/-- 41_wire_commands.md R151. -/
def emitDispCtrl2 (c : Config) : List Action :=
  sendCommandWithData c.opcodes.dispCtrl2 [c.flagDisplayMode1]

/-- 41_wire_commands.md R152. -/
def emitMasterActivate (c : Config) : List Action := sendCommand c.opcodes.masterActivate

/-! ## Operands -/

/-- The X operands of an operation (60_exceptions.md R234, `OperandTooWide`; 30_encoding.md R85). -/
def checkX (xs : List U16) : Option Refusal := if xs.any tooWide then some .operandTooWide else none

/-- The bytes of a plane write (60_exceptions.md R234, `BufferLength`; 30_encoding.md R82). -/
def checkPlane (c : Config) (data : PlaneData) : Option Refusal :=
  if data.wellFormed c then none else some .bufferLength

end Sys2Proof.Machine
end

