-- ==== Sys2Proof/Machine/Driver.lean ====
section
/-! DEFINITION. The driver procedures and the nine driver operations (42_driver_ops.md). -/

namespace Sys2Proof.Machine

/-! ## Procedures -/

/-- `procedure setRamWindow(x0, y0, x1, y1)` (42_driver_ops.md R162): the contract check, then the X
command, then the Y command. -/
def setRamWindow (c : Config) (x0 y0 x1 y1 : U16) : List Action :=
  [.contract (decide (x0.toNat < x1.toNat) && decide (y0.toNat < y1.toNat))]
    ++ emitSetRamXPos c x0 x1 ++ emitSetRamYPos c y0 y1

/-- `procedure setRamCursor(x, y)` (42_driver_ops.md R163). -/
def setRamCursor (c : Config) (x y : U16) : List Action :=
  emitSetRamXCount c x ++ emitSetRamYCount c y

/-- `procedure selectFullFrame()` (42_driver_ops.md R164). -/
def selectFullFrame (c : Config) : List Action :=
  setRamWindow c 0 0 (BitVec.ofNat 16 (c.width - 1)) (BitVec.ofNat 16 (c.height - 1))
    ++ setRamCursor c 0 0

/-- The procedure of `INIT` (42_driver_ops.md R161). -/
def initProcedure (c : Config) : List Action :=
  [.fsm .resetting] ++ resetPulse c
    ++ [.fsm .softwareReset] ++ emitSwReset c ++ waitUntilIdle
    ++ [.fsm .configuring] ++ emitDriverControl c ++ emitDataMode c ++ selectFullFrame c
    ++ emitWriteBorder c ++ emitTempControl c ++ waitUntilIdle
    ++ [.fsm .ready]

/-- The procedure of `DISPLAY_FRAME` (42_driver_ops.md R169). -/
def displayProcedure (c : Config) : List Action :=
  emitDispCtrl2 c ++ emitMasterActivate c ++ waitUntilIdle

/-- The procedure of each driver operation (42_driver_ops.md R161 to R169). No other instruction is one of
the host's operations that send. -/
def driverProcedure (c : Config) : Instr → List Action
  | .init => initProcedure c
  | .setRamWindow x0 y0 x1 y1 => setRamWindow c x0 y0 x1 y1
  | .setRamCursor x y => setRamCursor c x y
  | .selectFullFrame => selectFullFrame c
  | .updateBwFrame buffer => selectFullFrame c ++ emitWriteBwRam c (.buffer buffer)
  | .updateRedFrame buffer => selectFullFrame c ++ emitWriteRedRam c (.buffer buffer)
  | .clearBwFrame => selectFullFrame c ++ emitWriteBwRam c .clear
  | .clearRedFrame => selectFullFrame c ++ emitWriteRedRam c .clear
  | .displayFrame => displayProcedure c
  | .fbClear _ | .fbSetPixel _ _ _ | .fbSetRotation _ | .fbRotation | .fbSize | .fbBlackData
  | .fbRedData => []
  | .swReset | .driverControl | .dataMode | .setRamXPos _ _ | .setRamYPos _ _ | .setRamXCount _
  | .setRamYCount _ | .writeBorder | .tempControl | .writeBwRam _ | .writeRedRam _ | .dispCtrl2
  | .masterActivate => []

/-! ## Meanings -/

/-- Admission, the operand check, then the procedure (60_exceptions.md R235). -/
def runDriver (i : Instr) (isInit : Bool) (operands : Option Refusal) (actions : List Action)
    (s : State) : Host.Outcome State Fault Refusal :=
  match admitDriver isInit s with
  | some r => .refused r
  | none =>
    match operands with
    | some r => .refused r
    | none => runOp i actions s

/-- `INIT` (42_driver_ops.md R161). -/
def execInit (s : State) : Host.Outcome State Fault Refusal :=
  runDriver .init true none (initProcedure s.cfg) s

/-- `SET_RAM_WINDOW` (42_driver_ops.md R162). -/
def execSetRamWindow (x0 y0 x1 y1 : U16) (s : State) : Host.Outcome State Fault Refusal :=
  runDriver (.setRamWindow x0 y0 x1 y1) false (checkX [x0, x1]) (setRamWindow s.cfg x0 y0 x1 y1) s

/-- `SET_RAM_CURSOR` (42_driver_ops.md R163). -/
def execSetRamCursor (x y : U16) (s : State) : Host.Outcome State Fault Refusal :=
  runDriver (.setRamCursor x y) false (checkX [x]) (setRamCursor s.cfg x y) s

/-- `SELECT_FULL_FRAME` (42_driver_ops.md R164). -/
def execSelectFullFrame (s : State) : Host.Outcome State Fault Refusal :=
  runDriver .selectFullFrame false none (selectFullFrame s.cfg) s

/-- `UPDATE_BW_FRAME` (42_driver_ops.md R165). -/
def execUpdateBwFrame (buffer : List Byte) (s : State) : Host.Outcome State Fault Refusal :=
  runDriver (.updateBwFrame buffer) false (checkPlane s.cfg (.buffer buffer))
    (selectFullFrame s.cfg ++ emitWriteBwRam s.cfg (.buffer buffer)) s

/-- `UPDATE_RED_FRAME` (42_driver_ops.md R166). -/
def execUpdateRedFrame (buffer : List Byte) (s : State) : Host.Outcome State Fault Refusal :=
  runDriver (.updateRedFrame buffer) false (checkPlane s.cfg (.buffer buffer))
    (selectFullFrame s.cfg ++ emitWriteRedRam s.cfg (.buffer buffer)) s

/-- `CLEAR_BW_FRAME` (42_driver_ops.md R167). -/
def execClearBwFrame (s : State) : Host.Outcome State Fault Refusal :=
  runDriver .clearBwFrame false none (selectFullFrame s.cfg ++ emitWriteBwRam s.cfg .clear) s

/-- `CLEAR_RED_FRAME` (42_driver_ops.md R168). -/
def execClearRedFrame (s : State) : Host.Outcome State Fault Refusal :=
  runDriver .clearRedFrame false none (selectFullFrame s.cfg ++ emitWriteRedRam s.cfg .clear) s

/-- `DISPLAY_FRAME` (42_driver_ops.md R169). -/
def execDisplayFrame (s : State) : Host.Outcome State Fault Refusal :=
  runDriver .displayFrame false none (displayProcedure s.cfg) s

/-! ## Going on with the operation in progress -/

/-- What is left of the procedure of `op` at the position (10_state.md R29). -/
def State.rest (s : State) (op : Instr) : List Action :=
  skipPrims s.useq (driverProcedure s.cfg op)

/-- Goes on with the operation in progress from its next primitive (10_state.md R29). -/
def resume (op : Instr) (s : State) : Host.Outcome State Fault Refusal :=
  finish (respond []) (run (s.rest op) s)

/-- The actions up to the end of a wire command's emission, where the operation in progress goes on with it
(41_wire_commands.md R153); `fsm` must be what the operation has made it (10_state.md R21). -/
def nextEmission (command : List Action) (s : State) : Option (List Action) :=
  match s.curOp with
  | none => none
  | some op =>
    if s.fsm = fsmBefore s.useq (driverProcedure s.cfg op) .ready then upTo command (s.rest op)
    else none

end Sys2Proof.Machine
end

