-- ==== Sys2Proof/Machine/Wire.lean ====
section
/-! DEFINITION. The meanings of the thirteen wire commands (41_wire_commands.md). A wire command is a part
of the driver procedure in progress (R153); as an instruction it is that part, run alone (log entry 7). -/

namespace Sys2Proof.Machine

/-- Emits a wire command as the next part of the driver procedure in progress (41_wire_commands.md R153):
the block must run at all (10_state.md R22), the operands must be ones the command has, and the procedure
must go on with it. The operation stays in progress behind it; a failure is the operation's
(60_exceptions.md R228). -/
def runWire (operands : Option Refusal) (command : List Action) (s : State) :
    Host.Outcome State Fault Refusal :=
  if s.halted then .refused .halted
  else
    match operands with
    | some r => .refused r
    | none =>
      match nextEmission command s with
      | none => .refused .notInProcedure
      | some actions => finish id (run actions s)

/-- `SW_RESET` (41_wire_commands.md R140). -/
def execSwReset (s : State) : Host.Outcome State Fault Refusal :=
  runWire none (emitSwReset s.cfg) s

/-- `DRIVER_CONTROL` (41_wire_commands.md R141). -/
def execDriverControl (s : State) : Host.Outcome State Fault Refusal :=
  runWire none (emitDriverControl s.cfg) s

/-- `DATA_MODE` (41_wire_commands.md R142). -/
def execDataMode (s : State) : Host.Outcome State Fault Refusal :=
  runWire none (emitDataMode s.cfg) s

/-- `SET_RAMXPOS` (41_wire_commands.md R143). -/
def execSetRamXPos (x0 x1 : U16) (s : State) : Host.Outcome State Fault Refusal :=
  runWire (checkX [x0, x1]) (emitSetRamXPos s.cfg x0 x1) s

/-- `SET_RAMYPOS` (41_wire_commands.md R144). -/
def execSetRamYPos (y0 y1 : U16) (s : State) : Host.Outcome State Fault Refusal :=
  runWire none (emitSetRamYPos s.cfg y0 y1) s

/-- `SET_RAMXCOUNT` (41_wire_commands.md R145). -/
def execSetRamXCount (x : U16) (s : State) : Host.Outcome State Fault Refusal :=
  runWire (checkX [x]) (emitSetRamXCount s.cfg x) s

/-- `SET_RAMYCOUNT` (41_wire_commands.md R146). -/
def execSetRamYCount (y : U16) (s : State) : Host.Outcome State Fault Refusal :=
  runWire none (emitSetRamYCount s.cfg y) s

/-- `WRITE_BORDER` (41_wire_commands.md R147). -/
def execWriteBorder (s : State) : Host.Outcome State Fault Refusal :=
  runWire none (emitWriteBorder s.cfg) s

/-- `TEMP_CONTROL` (41_wire_commands.md R148). -/
def execTempControl (s : State) : Host.Outcome State Fault Refusal :=
  runWire none (emitTempControl s.cfg) s

/-- `WRITE_BWRAM` (41_wire_commands.md R149). -/
def execWriteBwRam (data : PlaneData) (s : State) : Host.Outcome State Fault Refusal :=
  runWire (checkPlane s.cfg data) (emitWriteBwRam s.cfg data) s

/-- `WRITE_REDRAM` (41_wire_commands.md R150). -/
def execWriteRedRam (data : PlaneData) (s : State) : Host.Outcome State Fault Refusal :=
  runWire (checkPlane s.cfg data) (emitWriteRedRam s.cfg data) s

/-- `DISP_CTRL2` (41_wire_commands.md R151). -/
def execDispCtrl2 (s : State) : Host.Outcome State Fault Refusal :=
  runWire none (emitDispCtrl2 s.cfg) s

/-- `MASTER_ACTIVATE` (41_wire_commands.md R152). -/
def execMasterActivate (s : State) : Host.Outcome State Fault Refusal :=
  runWire none (emitMasterActivate s.cfg) s

end Sys2Proof.Machine
end

