-- ==== Sys2Proof/Machine/Dispatch.lean ====
section
/-! DEFINITION. One arm for each instruction. -/

namespace Sys2Proof.Machine

def exec (i : Instr) (s : State) : Host.Outcome State Fault Refusal :=
  match i with
  -- driver operations
  | .init => Sys2Proof.Machine.execInit s
  | .setRamWindow x0 y0 x1 y1 => Sys2Proof.Machine.execSetRamWindow x0 y0 x1 y1 s
  | .setRamCursor x y => Sys2Proof.Machine.execSetRamCursor x y s
  | .selectFullFrame => Sys2Proof.Machine.execSelectFullFrame s
  | .updateBwFrame buffer => Sys2Proof.Machine.execUpdateBwFrame buffer s
  | .updateRedFrame buffer => Sys2Proof.Machine.execUpdateRedFrame buffer s
  | .clearBwFrame => Sys2Proof.Machine.execClearBwFrame s
  | .clearRedFrame => Sys2Proof.Machine.execClearRedFrame s
  | .displayFrame => Sys2Proof.Machine.execDisplayFrame s
  -- framebuffer operations
  | .fbClear color => Sys2Proof.Machine.execFbClear color s
  | .fbSetPixel x y color => Sys2Proof.Machine.execFbSetPixel x y color s
  | .fbSetRotation r => Sys2Proof.Machine.execFbSetRotation r s
  | .fbRotation => Sys2Proof.Machine.execFbRotation s
  | .fbSize => Sys2Proof.Machine.execFbSize s
  | .fbBlackData => Sys2Proof.Machine.execFbBlackData s
  | .fbRedData => Sys2Proof.Machine.execFbRedData s
  -- wire commands
  | .swReset => Sys2Proof.Machine.execSwReset s
  | .driverControl => Sys2Proof.Machine.execDriverControl s
  | .dataMode => Sys2Proof.Machine.execDataMode s
  | .setRamXPos x0 x1 => Sys2Proof.Machine.execSetRamXPos x0 x1 s
  | .setRamYPos y0 y1 => Sys2Proof.Machine.execSetRamYPos y0 y1 s
  | .setRamXCount x => Sys2Proof.Machine.execSetRamXCount x s
  | .setRamYCount y => Sys2Proof.Machine.execSetRamYCount y s
  | .writeBorder => Sys2Proof.Machine.execWriteBorder s
  | .tempControl => Sys2Proof.Machine.execTempControl s
  | .writeBwRam data => Sys2Proof.Machine.execWriteBwRam data s
  | .writeRedRam data => Sys2Proof.Machine.execWriteRedRam data s
  | .dispCtrl2 => Sys2Proof.Machine.execDispCtrl2 s
  | .masterActivate => Sys2Proof.Machine.execMasterActivate s

end Sys2Proof.Machine
end

