-- ==== Sys2Proof/Machine/Fetch.lean ====
section
/-! DEFINITION. Where the next instruction comes from: the host's next request (30_encoding.md R102); while
an operation is in progress, the wire command it is to emit alone, if any (log entry 7); and the order of
checks when it arrives (60_exceptions.md R235). -/

namespace Sys2Proof.Machine

/-- The frame the block takes next, and the state without it. No request is taken while an operation is in
progress (00_scope.md R7). -/
def nextFrame (s : State) : Option (Frame × State) :=
  match s.curOp with
  | some _ => s.wireSlot.map fun bytes => (.wire bytes, { s with wireSlot := none })
  | none =>
    match s.requests with
    | [] => none
    | request :: rest => some (.host request, { s with requests := rest })

/-- An instruction arrives: `halted` is checked first, then the encoding (60_exceptions.md R235, steps
1 and 2); the rest of the order is in the meanings. -/
def acceptFrame (f : Frame) (s : State) : Host.Outcome State Fault Refusal :=
  if s.halted then .refused .halted
  else
    match decodeFrame s.cfg f with
    | none => .refused .reservedEncoding
    | some i => exec i s

/-- The sequencer's step when no block reset arrives: it takes the next instruction, or goes on with the
operation in progress, or does nothing (70_reset_and_hazards.md R262). -/
def advance (s : State) : Host.Outcome State Fault Refusal :=
  match nextFrame s with
  | some (f, s') => acceptFrame f s'
  | none =>
    match s.curOp with
    | some op => resume op s
    | none => .next s

/-- A driver operation whose procedure has this wire command, and the number of the command's first
primitive in it (41_wire_commands.md R140 to R152, "Emitted by"; 42_driver_ops.md R161 to R169). -/
def emittedBy : Instr → Option (Instr × Nat)
  | .swReset => some (.init, 4)
  | .driverControl => some (.init, 7)
  | .dataMode => some (.init, 11)
  | .setRamXPos x0 x1 => some (.setRamWindow x0 0 (x1 ||| 7) 1, 0)
  | .setRamYPos y0 y1 => some (.setRamWindow 0 y0 8 y1, 4)
  | .setRamXCount x => some (.setRamCursor x 0, 0)
  | .setRamYCount y => some (.setRamCursor 0 y, 4)
  | .writeBorder => some (.init, 31)
  | .tempControl => some (.init, 35)
  | .writeBwRam (.buffer bytes) => some (.updateBwFrame bytes, 16)
  | .writeBwRam .clear => some (.clearBwFrame, 16)
  | .writeRedRam (.buffer bytes) => some (.updateRedFrame bytes, 16)
  | .writeRedRam .clear => some (.clearRedFrame, 16)
  | .dispCtrl2 => some (.displayFrame, 0)
  | .masterActivate => some (.displayFrame, 4)
  | .init | .setRamWindow _ _ _ _ | .setRamCursor _ _ | .selectFullFrame | .updateBwFrame _
  | .updateRedFrame _ | .clearBwFrame | .clearRedFrame | .displayFrame => none
  | .fbClear _ | .fbSetPixel _ _ _ | .fbSetRotation _ | .fbRotation | .fbSize | .fbBlackData
  | .fbRedData => none

/-- `op` in progress, with its primitive numbered `n` next. -/
def State.inside (s : State) (op : Instr) (n : Nat) : State :=
  { s with
    curOp := some op
    useq := n
    fsm := fsmBefore n (driverProcedure s.cfg op) .ready }

/-- Puts a frame where `advance` takes the next one from: a request before the others; a wire command as
the next one of a driver operation in progress that emits it. -/
def State.withFrame (s : State) : Frame → State
  | .host bytes => { s.ended with requests := bytes :: s.requests }
  | .wire bytes =>
    match (decodeWire s.cfg bytes).bind emittedBy with
    | some (op, n) => { s.inside op n with wireSlot := some bytes }
    | none => { s with wireSlot := some bytes }

end Sys2Proof.Machine
end

