-- ==== Sys2Proof/Machine/Step.lean ====
section
/-! DEFINITION. One step of the block (log entry 1). -/

namespace Sys2Proof.Machine

/-- One step: the block reset that is due, or else the sequencer goes on. -/
def step (s : State) : Host.Outcome State Fault Refusal :=
  match s.resets with
  | ⟨0, values⟩ :: rest => .next (blockReset values { s with resets := rest })
  | ⟨n + 1, values⟩ :: rest => advance { s with resets := ⟨n, values⟩ :: rest }
  | [] => advance s

/-- The state whose next step fetches and runs the instruction of a table word: no block reset to come, and
the word where `advance` takes it from. -/
def State.withFetchWord (s : State) (nbits w : Nat) : State :=
  { s with resets := [] }.withFrame (tableFrame s.cfg nbits w)

end Sys2Proof.Machine
end

