-- ==== Sys2Proof/Machine/Pseudo.lean ====
section
/-! DEFINITION. The pseudo-operations (30_encoding.md R99): sequences of real operations. `FB_NEW` is
`fbNew` of Machine/Ops.lean, the framebuffer part of block reset. -/

namespace Sys2Proof.Machine

/-- `CONSTRUCT`: block reset, then `INIT`; the outcome is `INIT`'s (30_encoding.md R99,
42_driver_ops.md R170). -/
def construct (u : PowerUp) (s : State) : Host.Outcome State Fault Refusal :=
  exec .init (blockReset u s)

/-- Runs operations in order, each to its end, up to the first that stops. -/
def execAll : List Instr → State → Host.Outcome State Fault Refusal
  | [], s => .next s
  | i :: rest, s =>
    match exec i s with
    | .next s' => execAll rest s'
    | .fault f => .fault f
    | .refused r => .refused r

/-- `FB_DRAW` (43_framebuffer_ops.md R207): one `FB_SET_PIXEL` for each pair, in order. -/
def fbDraw (pixels : List (U16 × U16 × Color)) (s : State) : Host.Outcome State Fault Refusal :=
  execAll (pixels.map fun p => .fbSetPixel p.1 p.2.1 p.2.2) s

end Sys2Proof.Machine
end

