-- ==== Sys2Proof/Machine/Trace.lean ====
section
/-! DEFINITION. Reading a panel-port trace: the short forms and the flattening of 00_scope.md R12, and
parsing a trace back into wire commands (30_encoding.md R101). -/

namespace Sys2Proof.Machine

/-- `CMD(b)` = `DC(CMD), XFER([b])` (00_scope.md R12). -/
def cmd (b : Byte) : List Event := [.dc .cmd, .xfer [b]]

/-- `DAT(b0 b1 ...)` = `DC(DATA), XFER([b0, b1, ...])` (00_scope.md R12). -/
def dat (bytes : List Byte) : List Event := [.dc .data, .xfer bytes]

/-- `SFF`, the eight short-form events of `selectFullFrame` (42_driver_ops.md R164). -/
def sff (c : Config) : List Event :=
  cmd c.opcodes.setRamXPos ++ dat [0x00, BitVec.ofNat 8 ((c.width - 1) / 8)]
    ++ cmd c.opcodes.setRamYPos ++ dat [0x00, 0x00, BitVec.ofNat 8 (c.height - 1), 0x00]
    ++ cmd c.opcodes.setRamXCount ++ dat [0x00]
    ++ cmd c.opcodes.setRamYCount ++ dat [0x00, 0x00]

/-- A trace with consecutive transfers joined into one (00_scope.md R12, 92_eei_decisions.md D14). -/
def flatten : List Event → List Event
  | [] => []
  | .xfer bytes :: rest =>
    match flatten rest with
    | .xfer more :: rest' => .xfer (bytes ++ more) :: rest'
    | rest' => .xfer bytes :: rest'
  | e :: rest => e :: flatten rest

/-- Whether an event is a failure (00_scope.md R12, column "trace event (fail)"). -/
def Event.failing : Event → Bool
  | .rstFail _ | .dcFail _ | .xferFail _ _ => true
  | .rst _ | .dc _ | .xfer _ | .dly _ | .poll _ => false

/-- The bytes a trace sends, each with the level DC had, given the level before the trace. -/
def sentBytes : DcLevel → List Event → List (DcLevel × Byte)
  | _, [] => []
  | _, .dc level :: rest => sentBytes level rest
  | level, .xfer bytes :: rest => bytes.map (fun b => (level, b)) ++ sentBytes level rest
  | level, .rst _ :: rest => sentBytes level rest
  | level, .rstFail _ :: rest => sentBytes level rest
  | level, .dcFail _ :: rest => sentBytes level rest
  | level, .xferFail _ _ :: rest => sentBytes level rest
  | level, .dly _ :: rest => sentBytes level rest
  | level, .poll _ :: rest => sentBytes level rest

/-- Cuts sent bytes into commands: the payload bytes before the first command byte, and the commands,
each a command byte with its payload (30_encoding.md R101). -/
def groupCommands : List (DcLevel × Byte) → List Byte × List (List Byte)
  | [] => ([], [])
  | (.data, b) :: rest => (b :: (groupCommands rest).1, (groupCommands rest).2)
  | (.cmd, b) :: rest => ([], (b :: (groupCommands rest).1) :: (groupCommands rest).2)

/-- The wire commands of a list of frames, if every frame is one. -/
def decodeCommands (c : Config) : List (List Byte) → Option (List Instr)
  | [] => some []
  | frame :: rest =>
    match decodeWire c frame, decodeCommands c rest with
    | some i, some is => some (i :: is)
    | _, _ => none

/-- The wire commands of a trace (30_encoding.md R101): every payload must have the length R82 gives and
follow a command. -/
def parseTrace (c : Config) (level : DcLevel) (events : List Event) : Option (List Instr) :=
  match groupCommands (sentBytes level events) with
  | ([], frames) => decodeCommands c frames
  | (_ :: _, _) => none

end Sys2Proof.Machine
end

