-- ==== Sys2Proof/Safety.lean ====
section
/-! DEFINITION. The terms claims are stated in: the named premises of 00_scope.md R13, when an
operation is admitted, the invariants, the end of a run, and the panel as an open parameter. -/

namespace Sys2Proof.Machine

/-! ## The environment (00_scope.md R13) -/

/-- `NoTransportFault`: the environment answers `ok` to every primitive (00_scope.md R13). -/
def NoTransportFault (s : State) : Prop :=
  (∀ answer ∈ s.portFeed.queue, answer = .ok) ∧ s.portFeed.rest = .ok

/-- `PanelEventuallyIdle`: every infinite run of samples has one that reads `IDLE` (00_scope.md R13). The
samples after the queue are all `rest`, so this is what `rest` must be. -/
def PanelEventuallyIdle (s : State) : Prop := s.busyFeed.rest = .idle

/-- The next `n` samples of BUSY read `IDLE`. -/
def IdleFor (n : Nat) (s : State) : Prop := ∀ k < n, (s.busyFeed.drop k).head = .idle

/-- The next `n` answers of the environment are `ok`. -/
def OkFor (n : Nat) (s : State) : Prop := ∀ k < n, (s.portFeed.drop k).head = .ok

/-- The panel never reports idle (60_exceptions.md R237). -/
def NeverIdle (s : State) : Prop := ∀ k, (s.busyFeed.drop k).head = .busy

/-- The answer of the environment after the next `n` is this failure. -/
def FailsAfter (n : Nat) (f : PortFault) (s : State) : Prop := (s.portFeed.drop n).head = .fail f

/-- The first `k` of these samples read `BUSY`, and the next reads `IDLE`. -/
def FirstIdle (f : Feed BusySample) (k : Nat) : Prop :=
  (∀ j < k, (f.drop j).head = .busy) ∧ (f.drop k).head = .idle

/-- `k` rounds of a wait at a busy panel: a sample and a delay each (40_transport.md R125). -/
def busyRounds (c : Config) (k : Nat) : List Event :=
  (List.replicate k [.poll .busy, .dly c.pollMs]).flatten

/-! ## When an operation is admitted -/

/-- An operation can be issued at all: the block is not halted and no operation is in progress. -/
def Accepting (s : State) : Prop := s.halted = false ∧ s.curOp = none

/-- A driver operation is admitted (42_driver_ops.md R160), in a configuration that meets 00_scope.md R6. -/
structure DriverReady (s : State) : Prop where
  accepting : Accepting s
  ready : s.fsm = .ready
  valid : s.cfg.Valid

/-- `INIT` is admitted (42_driver_ops.md R160), in a configuration that meets 00_scope.md R6. -/
structure InitReady (s : State) : Prop where
  accepting : Accepting s
  admitted : s.fsm = .uninitialized ∨ s.fsm = .ready
  valid : s.cfg.Valid

/-! ## Invariants -/

/-- A plane in canonical form, with no byte outside its indices (10_state.md R25, R26). -/
def PlaneOk (c : Config) (m : Memory) : Prop := m.wf ∧ m.within c.planeBytes

/-- Both planes, and the planes each block reset to come would leave, are in canonical form. -/
structure PlanesOk (s : State) : Prop where
  black : PlaneOk s.cfg s.black
  red : PlaneOk s.cfg s.red
  coming : ∀ r ∈ s.resets, PlaneOk s.cfg r.values.black ∧ PlaneOk s.cfg r.values.red

/-- What `fsm`, `cur_op` and `useq` are between steps: between operations `fsm` is one of the three
persistent states (42_driver_ops.md R171); the only operations a step leaves in progress are `INIT` at
one of its two waits, with `fsm` at `SoftwareReset` or `Configuring` (42_driver_ops.md R161), and
`DISPLAY_FRAME` at its wait, with `fsm` at `Ready` (42_driver_ops.md R169). -/
inductive SequencerPlace (s : State) : Prop where
  | between (op : s.curOp = none) (pos : s.useq = 0) (fsm : s.fsm.persistent = true)
  | initReset (op : s.curOp = some .init) (pos : s.useq = 6) (fsm : s.fsm = .softwareReset)
      (live : s.halted = false)
  | initEnd (op : s.curOp = some .init) (pos : s.useq = 39) (fsm : s.fsm = .configuring)
      (live : s.halted = false)
  | display (op : s.curOp = some .displayFrame) (pos : s.useq = 6) (fsm : s.fsm = .ready)
      (live : s.halted = false)

/-- The sequencer is at one of those places, and is not asked to emit a wire command alone (log entry 7). -/
structure SequencerOk (s : State) : Prop where
  place : SequencerPlace s
  slot : s.wireSlot = none

/-- No byte of the planes holds a pixel whose bits are (black 0, red 1), the encoding of no colour
(43_framebuffer_ops.md R190, R208). -/
def NoRedWithoutBlackBit (s : State) : Prop :=
  ∀ i < s.cfg.planeBytes, s.red.get i &&& ~~~ s.black.get i = 0

/-! ## What is read of a state -/

/-- Whether the bit of a one-bit mask is set in a byte. -/
def bitSet (b mask : Byte) : Bool := decide (b &&& mask ≠ 0)

/-- The plane bits `(kb, kr)` of a logical pixel (10_state.md R27). -/
def pixelBits (s : State) (x y : Nat) : Bool × Bool :=
  (bitSet (s.black.get (mapPixel s.cfg s.rot x y).1) (mapPixel s.cfg s.rot x y).2,
    bitSet (s.red.get (mapPixel s.cfg s.rot x y).1) (mapPixel s.cfg s.rot x y).2)

/-- The wire commands a driver operation sends when nothing fails (42_driver_ops.md R161 to R169; the
lines "Emitted by" of 41_wire_commands.md). A framebuffer operation sends none. -/
def wireCommands (c : Config) : Instr → List Instr
  | .init => [.swReset, .driverControl, .dataMode] ++ fullFrameCommands c ++ [.writeBorder, .tempControl]
  | .setRamWindow x0 y0 x1 y1 => [.setRamXPos x0 x1, .setRamYPos y0 y1]
  | .setRamCursor x y => [.setRamXCount x, .setRamYCount y]
  | .selectFullFrame => fullFrameCommands c
  | .updateBwFrame buffer => fullFrameCommands c ++ [.writeBwRam (.buffer buffer)]
  | .updateRedFrame buffer => fullFrameCommands c ++ [.writeRedRam (.buffer buffer)]
  | .clearBwFrame => fullFrameCommands c ++ [.writeBwRam .clear]
  | .clearRedFrame => fullFrameCommands c ++ [.writeRedRam .clear]
  | .displayFrame => [.dispCtrl2, .masterActivate]
  | .fbClear _ | .fbSetPixel _ _ _ | .fbSetRotation _ | .fbRotation | .fbSize | .fbBlackData
  | .fbRedData => []
  | .swReset => [.swReset]
  | .driverControl => [.driverControl]
  | .dataMode => [.dataMode]
  | .setRamXPos x0 x1 => [.setRamXPos x0 x1]
  | .setRamYPos y0 y1 => [.setRamYPos y0 y1]
  | .setRamXCount x => [.setRamXCount x]
  | .setRamYCount y => [.setRamYCount y]
  | .writeBorder => [.writeBorder]
  | .tempControl => [.tempControl]
  | .writeBwRam data => [.writeBwRam data]
  | .writeRedRam data => [.writeRedRam data]
  | .dispCtrl2 => [.dispCtrl2]
  | .masterActivate => [.masterActivate]
where
  /-- The four commands of `selectFullFrame` (42_driver_ops.md R164). -/
  fullFrameCommands (c : Config) : List Instr :=
    [.setRamXPos 0 (BitVec.ofNat 16 (c.width - 1)), .setRamYPos 0 (BitVec.ofNat 16 (c.height - 1)),
      .setRamXCount 0, .setRamYCount 0]

/-- How an event reads when the primitive it stands for fails with an error of this kind (00_scope.md
R12, columns "trace event (ok)" and "trace event (fail)"; 60_exceptions.md R221). -/
def failsAs (e : Event) (kind : ErrorKind) : Option Event :=
  match e, kind with
  | .rst level, .rsError => some (.rstFail level)
  | .dc level, .dcError => some (.dcFail level)
  | .xfer bytes, .busWriteError => some (.xferFail bytes .busWriteError)
  | .xfer bytes, .csError => some (.xferFail bytes .csError)
  | _, _ => none

/-- The event stands for a primitive that the environment answers (00_scope.md R12). -/
def Event.answered : Event → Bool
  | .rst _ | .dc _ | .xfer _ => true
  | .rstFail _ | .dcFail _ | .xferFail _ _ | .dly _ | .poll _ => false

/-! ## The states an operation leaves -/

/-- `s` after primitives that all were done: their events, the level DC has then, how many answers of the
environment and how many samples of BUSY they took; no operation is in progress. -/
def State.sent (s : State) (events : List Event) (dc : DcLevel) (answers samples : Nat) : State :=
  { s with
    curOp := none
    useq := 0
    pinDc := dc
    trace := events.reverse ++ s.trace
    portFeed := s.portFeed.drop answers
    busyFeed := s.busyFeed.drop samples }

/-- `s` after one more response to the host. -/
def State.replied (s : State) (response : List Byte) : State :=
  { s with responses := s.responses ++ [response] }

/-- `s` with an environment that answers `ok` and `IDLE` for ever. -/
def State.quiet (s : State) : State := { s with portFeed := ⟨[], .ok⟩, busyFeed := ⟨[], .idle⟩ }

/-- The table of 10_state.md R35, with the values `u` of the elements it leaves unspecified; nothing has
been observed yet (70_reset_and_hazards.md R260). -/
structure JustReset (u : PowerUp) (s : State) : Prop where
  fsm : s.fsm = .uninitialized
  halted : s.halted = false
  curOp : s.curOp = none
  useq : s.useq = 0
  rot : s.rot = u.rot
  inv : s.inv = u.inv
  black : s.black = u.black
  red : s.red = u.red
  pinRst : s.pinRst = u.pinRst
  pinDc : s.pinDc = u.pinDc
  trace : s.trace = []
  responses : s.responses = []

/-- `t` differs from `s` at most in the sequencer, the pins, the observation and the inputs already taken:
the parameters, `rot`, `inv`, every byte of the planes, the requests and the wire slot are as they were. -/
structure PortFrame (s t : State) : Prop where
  fields : t = { s with
    fsm := t.fsm, halted := t.halted, pinRst := t.pinRst, pinDc := t.pinDc, curOp := t.curOp,
    useq := t.useq, trace := t.trace, responses := t.responses, portFeed := t.portFeed,
    busyFeed := t.busyFeed, resets := t.resets }
  bytes : ∀ a, readByte t.cfg t.black a = readByte s.cfg s.black a ∧
    readByte t.cfg t.red a = readByte s.cfg s.red a

/-- `t` is what is left where an operation fails: `whole` is what it would have left with a fault-free
environment, its events up to a primitive of some kind are those of `t`, the failing event stands for that
primitive, and nothing else changed but the pins and the inputs taken (60_exceptions.md R228). -/
def CutAtFailure (whole : Host.Outcome State Fault Refusal) (s t : State) : Prop :=
  ∃ t₀ before e after kind f,
    whole = .next t₀ ∧ t₀.events = s.events ++ before ++ e :: after ∧
    failsAs e kind = some f ∧ t.events = s.events ++ before ++ [f] ∧
    t = { s with
      fsm := .faulted
      curOp := none
      useq := 0
      pinRst := t.pinRst
      pinDc := t.pinDc
      trace := t.trace
      responses := s.responses ++ [[kind.code]]
      portFeed := t.portFeed
      busyFeed := t.busyFeed
      resets := t.resets }

/-- `t` is what is left where an operation fails at the event `e`, after `before`, as `f` says. -/
def FailedAt (before : List Event) (e : Event) (f : PortFault) (s t : State) : Prop :=
  ∃ kind failed, failsAs e kind = some failed ∧ (∀ bytes, e = .xfer bytes → kind = f.xfer.kind) ∧
    t.events = s.events ++ before ++ [failed] ∧ t.fsm = .faulted ∧ t.curOp = none ∧
    t.responses = s.responses ++ [[kind.code]]

/-- No block reset arrives in this step. -/
def NoResetDue (s : State) : Prop := ∀ u rest, s.resets ≠ ⟨0, u⟩ :: rest

/-- The operand values a driver operation runs with: X operands below 2048 and a window in order
(42_driver_ops.md R162, R163), an upload of `PLANE_BYTES` bytes (R165, R166). -/
def operandsOk (c : Config) : Instr → Prop
  | .setRamWindow x0 y0 x1 y1 =>
    x0.toNat < 2048 ∧ x1.toNat < 2048 ∧ x0.toNat < x1.toNat ∧ y0.toNat < y1.toNat
  | .setRamCursor x _ => x.toNat < 2048
  | .updateBwFrame buffer => buffer.length = c.planeBytes
  | .updateRedFrame buffer => buffer.length = c.planeBytes
  | .init | .selectFullFrame | .clearBwFrame | .clearRedFrame | .displayFrame => True
  | .fbClear _ | .fbSetPixel _ _ _ | .fbSetRotation _ | .fbRotation | .fbSize | .fbBlackData
  | .fbRedData => True
  | .swReset | .driverControl | .dataMode | .setRamXPos _ _ | .setRamYPos _ _ | .setRamXCount _
  | .setRamYCount _ | .writeBorder | .tempControl | .writeBwRam _ | .writeRedRam _ | .dispCtrl2
  | .masterActivate => True

/-- The operation in progress, if any, has operand values it runs with. Every step keeps this. -/
def InProgressOk (s : State) : Prop := ∀ op, s.curOp = some op → operandsOk s.cfg op

/-! ## A wire command as the next part of an operation (41_wire_commands.md R153) -/

/-- `op` is in progress and its procedure goes on with `command`, behind nothing but changes of `fsm` and
checks; its operands are ones it runs with, and `fsm` is what it has made it (10_state.md R21, R29). -/
structure GoesOnWith (s : State) (op : Instr) (command : List Action) : Prop where
  live : s.halted = false
  valid : s.cfg.Valid
  inProgress : s.curOp = some op
  operands : operandsOk s.cfg op
  fsm : s.fsm = fsmBefore s.useq (driverProcedure s.cfg op) .ready
  next : ∃ checks rest, s.rest op = checks ++ command ++ rest ∧ ∀ p, .prim p ∉ checks

/-- `s` after that many primitives of `op` more, all done: their events, the level DC has then, the answers
of the environment they took; `op` is still in progress. -/
def State.emitted (s : State) (op : Instr) (events : List Event) (dc : DcLevel) : State :=
  { s with
    fsm := fsmBefore (s.useq + events.length) (driverProcedure s.cfg op) .ready
    useq := s.useq + events.length
    pinDc := dc
    trace := events.reverse ++ s.trace
    portFeed := s.portFeed.drop events.length }

/-! ## Runs (70_reset_and_hazards.md R281) -/

/-- Where a run stands. -/
inductive RunStatus where
  /-- The host's requests are exhausted and the last response has been given. -/
  | finished
  /-- An operation ended `Abort`. -/
  | aborted
  /-- An operation is in progress, waiting for the panel. -/
  | waiting
  /-- The next step takes a request. -/
  | running
deriving DecidableEq, Repr

/-- Where a run stands. A refusal ends a run by `Host.Outcome.refused`; a hang is a run that is
`waiting` for ever. -/
def runStatus (s : State) : RunStatus :=
  if s.halted then .aborted
  else if s.curOp.isSome then .waiting
  else if s.requests = [] then .finished
  else .running

/-! ## The panel as a parameter (92_eei_decisions.md D27) -/

/-- A model of the panel: how its state may change at an event of the panel port. It is a relation,
since what a failed transfer delivered is any value (93_implementation_defined.md U5). Nothing in this
model assumes anything of it. -/
structure Panel (α : Type) where
  accepts : α → Event → α → Prop

/-- The states the panel may be in after a trace. -/
def Panel.after {α : Type} (p : Panel α) : List Event → α → α → Prop
  | [], a, b => a = b
  | e :: rest, a, b => ∃ m, p.accepts a e m ∧ p.after rest m b

end Sys2Proof.Machine
end

