-- ==== Sys2Proof/Certificates/Slice0/Obligations.lean ====
section
/-! DEFINITION. The statements for the provers. Byte 0x00 in a response is the status `Ok`
(30_encoding.md R96). How many answers and samples of the environment an operation takes, and that `useq`
returns to 0, are the model's (log entries 2 and 10), and so are how far one step goes (log entry 1), block
resets and requests as lists of State (log entries 8 and 16) and a wire command run alone (log entry 7); the
rest is the spec's unless a docstring says otherwise. -/

open Sys2Proof Sys2Proof.Machine

/-! ## Reset and steps -/

/-- 10_state.md R35: after block reset, at launch and when a block reset arrives, every element has the
value of the table, whatever the unspecified elements are. What else stays (parameters, requests, answers
and block resets to come) is the model's choice, log entry 8. -/
def Obligations.BlockResetGivesTheResetValues : Prop :=
  (∀ c u requests port busy resets, JustReset u (State.launch c u requests port busy resets)) ∧
  ∀ s u later, s.resets = ⟨0, u⟩ :: later →
    ∃ t, step s = .next t ∧ JustReset u t ∧ t.resets = later ∧ t.wireSlot = none ∧ t.cfg = s.cfg ∧
      t.requests = s.requests ∧ t.portFeed = s.portFeed ∧ t.busyFeed = s.busyFeed

/-- The state after reset meets the model's invariants. Its unspecified elements are the values of log
entries 3 and 4, the model's choice. -/
def Obligations.ResetStateMeetsTheInvariants : Prop :=
  JustReset PowerUp.zero State.reset ∧ PlanesOk State.reset ∧ SequencerOk State.reset ∧
    InProgressOk State.reset ∧ State.reset.cfg.Valid ∧ NoTransportFault State.reset ∧ PanelEventuallyIdle State.reset

/-- 70_reset_and_hazards.md R262: without a host operation the block does nothing. -/
def Obligations.NothingHappensOfItsOwnAccord : Prop :=
  ∀ s, s.curOp = none → nextFrame s = none → s.resets = [] → step s = .next s

/-- A step runs the instruction the next frame decodes to, on the state without that frame; without a frame
it goes on with the operation in progress (10_state.md R29). The countdown to a block reset, which goes on
beside it, is the model's (log entry 8), and so are frames from the wire slot (log entry 7). -/
def Obligations.StepRunsTheDecodedInstruction : Prop :=
  (∀ s f s' i, s.halted = false → nextFrame s = some (f, s') → decodeFrame s.cfg f = some i →
    (s.resets = [] → step s = exec i s') ∧
    ∀ n u later, s.resets = ⟨n + 1, u⟩ :: later →
      step s = exec i { s' with resets := ⟨n, u⟩ :: later }) ∧
  ∀ s op, s.curOp = some op → s.wireSlot = none → s.resets = [] → step s = resume op s

/-! ## Encodings -/

/-- Requests and wire commands written out from the tables of 30_encoding.md R82, R83, R91 to R94 decode to
what they stand for. The opcode bytes are the defaults of R83 (log entry 6); an X byte reads as the first
column of its byte, the model's choice (log entry 14). -/
def Obligations.WrittenWordsDecode : Prop :=
  decodeRequest [0x00] = some .init ∧
  decodeRequest [0x01, 0x08, 0x00, 0x10, 0x00, 0x3F, 0x00, 0x2F, 0x00]
    = some (.setRamWindow 8 16 63 47) ∧
  decodeRequest [0x02, 0x10, 0x00, 0x2C, 0x01] = some (.setRamCursor 16 300) ∧
  decodeRequest [0x04, 0x02, 0x00, 0xAA, 0x55] = some (.updateBwFrame [0xAA, 0x55]) ∧
  decodeRequest [0x0A, 0x64, 0x00, 0x32, 0x00, 0x02] = some (.fbSetPixel 100 50 .red) ∧
  decodeRequest [0x0B, 0x03] = some (.fbSetRotation .r270) ∧
  decodeRequest [0x0F] = some .fbRedData ∧
  decodeWire Config.std [0x12] = some .swReset ∧
  decodeWire Config.std [0x01, 0xC7, 0x00, 0x00] = some .driverControl ∧
  decodeWire Config.std [0x44, 0x01, 0x07] = some (.setRamXPos 8 56) ∧
  decodeWire Config.std [0x45, 0x10, 0x00, 0x2F, 0x00] = some (.setRamYPos 16 47) ∧
  decodeWire Config.std [0x4F, 0x2C, 0x01] = some (.setRamYCount 300) ∧
  decodeWire Config.std [0x20] = some .masterActivate

/-- 30_encoding.md R102, R91, R92: the encoding of a host operation decodes to it, at every operand value
and whatever bytes follow: a request says its own length. -/
def Obligations.HostRequestRoundTrip : Prop :=
  ∀ (c : Config) (i : Instr) (rest : List Byte), i.isWire = false → i.wellFormed c = true →
    decodeFront (i.encode c ++ rest) = some (i, rest) ∧ decodeRequest (i.encode c) = some i

/-- 30_encoding.md R82, R101: the encoding of a wire command decodes to what its bytes say of it: all of
it but the low three bits of an X operand (R85) and which of the two forms a plane payload came from
(R88). A command with neither decodes to itself. That such an X byte reads as the multiple of 8, and such a
payload as a buffer, is the model's choice (log entry 14). -/
def Obligations.WireCommandRoundTrip : Prop :=
  ∀ (c : Config) (i : Instr), c.Valid → i.isWire = true → i.wellFormed c = true →
    decodeWire c (i.encode c) = some (i.canonical c) ∧ (i.canonical c).encode c = i.encode c

/-- The decoder accepts nothing but encodings: the bytes it reads are the encoding of the well-formed
instruction it gives, so no bit is dropped. -/
def Obligations.DecodingIsExact : Prop :=
  ∀ (c : Config) (f : Frame) (i : Instr), decodeFrame c f = some i →
    i.wellFormed c = true ∧ i.frame c = f

/-- 30_encoding.md R97: reserved selectors, colours and rotations and requests of a wrong length are
refused with `ReservedEncoding`. -/
def Obligations.ReservedEncodingsAreRefused : Prop :=
  ∀ (s : State) (bytes : List Byte) (more : List (List Byte)),
    Accepting s → s.resets = [] → s.requests = bytes :: more →
    (∀ sel tail, bytes = sel :: tail → 0x10 ≤ sel.toNat → step s = .refused .reservedEncoding) ∧
    (∀ k, bytes = [0x09, k] → 3 ≤ k.toNat → step s = .refused .reservedEncoding) ∧
    (∀ a b d e k, bytes = [0x0A, a, b, d, e, k] → 3 ≤ k.toNat →
      step s = .refused .reservedEncoding) ∧
    (∀ k, bytes = [0x0B, k] → 4 ≤ k.toNat → step s = .refused .reservedEncoding) ∧
    (∀ op tail, bytes = HostOp.selector op :: tail → bytes.length ≠ requestLength op bytes →
      step s = .refused .reservedEncoding) ∧
    (bytes = [] → step s = .refused .reservedEncoding)

/-! ## Transport procedures -/

/-- 40_transport.md R120 and R121: the pin, at the command level or the data level, then the byte or the
bytes; a failure of the pin write is `DCError` before anything is on the bus, a failure of the transfer
`BusWriteError` or `CSError`. The level a failed pin write leaves is a free value (log entry 9). -/
def Obligations.SendsDriveThePinThenTheBytes : Prop :=
  (∀ s opcode,
    (OkFor 2 s → run (sendCommand opcode) s = .done { s with
      pinDc := .cmd, useq := s.useq + 2, portFeed := s.portFeed.drop 2,
      trace := .xfer [opcode] :: .dc .cmd :: s.trace }) ∧
    (∀ f, FailsAfter 0 f s → run (sendCommand opcode) s = .err .dcError { s with
      pinDc := f.dcAfter, portFeed := s.portFeed.drop 1, trace := .dcFail .cmd :: s.trace }) ∧
    (∀ f, OkFor 1 s → FailsAfter 1 f s → run (sendCommand opcode) s = .err f.xfer.kind { s with
      pinDc := .cmd, useq := s.useq + 1, portFeed := s.portFeed.drop 2,
      trace := .xferFail [opcode] f.xfer.kind :: .dc .cmd :: s.trace })) ∧
  ∀ s bytes, bytes ≠ [] →
    (OkFor 2 s → run (sendData bytes) s = .done { s with
      pinDc := .data, useq := s.useq + 2, portFeed := s.portFeed.drop 2,
      trace := .xfer bytes :: .dc .data :: s.trace }) ∧
    (∀ f, FailsAfter 0 f s → run (sendData bytes) s = .err .dcError { s with
      pinDc := f.dcAfter, portFeed := s.portFeed.drop 1, trace := .dcFail .data :: s.trace }) ∧
    (∀ f, OkFor 1 s → FailsAfter 1 f s → run (sendData bytes) s = .err f.xfer.kind { s with
      pinDc := .data, useq := s.useq + 1, portFeed := s.portFeed.drop 2,
      trace := .xferFail bytes f.xfer.kind :: .dc .data :: s.trace })

/-- 40_transport.md R122: `sendCommand`, then `sendData`; the first failure ends it, and what was sent
stays sent. -/
def Obligations.SendCommandWithDataIsBothInOrder : Prop :=
  ∀ s opcode bytes,
    (∀ u, run (sendCommand opcode) s = .done u →
      run (sendCommandWithData opcode bytes) s = run (sendData bytes) u) ∧
    (∀ k u, run (sendCommand opcode) s = .err k u →
      run (sendCommandWithData opcode bytes) s = .err k u)

/-- 40_transport.md R123: one level, then the byte `n` times; flattened, the trace of `sendData` of `n`
copies; a failure can come at any transfer, with those before it done and none after it. That each byte is a
transfer of its own is the model's choice (log entry 13; the cutting is not observable, R123); the level a failed
pin write leaves is a free value (log entry 9). -/
def Obligations.RepeatByteSendsTheByteNTimes : Prop :=
  ∀ (s : State) (v : Byte) (n : Nat), 1 ≤ n →
    (OkFor (n + 1) s → run (repeatByte v n) s = .done { s with
      pinDc := .data, useq := s.useq + (n + 1), portFeed := s.portFeed.drop (n + 1),
      trace := List.replicate n (.xfer [v]) ++ .dc .data :: s.trace }) ∧
    flatten (.dc .data :: List.replicate n (.xfer [v])) = dat (List.replicate n v) ∧
    (∀ f, FailsAfter 0 f s → run (repeatByte v n) s = .err .dcError { s with
      pinDc := f.dcAfter, portFeed := s.portFeed.drop 1, trace := .dcFail .data :: s.trace }) ∧
    (∀ f k, k < n → OkFor (k + 1) s → FailsAfter (k + 1) f s →
      run (repeatByte v n) s = .err f.xfer.kind { s with
        pinDc := .data, useq := s.useq + (k + 1), portFeed := s.portFeed.drop (k + 2),
        trace := .xferFail [v] f.xfer.kind :: (List.replicate k (.xfer [v]) ++ .dc .data :: s.trace) })

/-- 40_transport.md R124: low, hold, high, hold; nothing of the block changes but `pin_rst`, the position
and the trace; either pin write can fail, with `RSError`. The level a failed pin write leaves is a free
value (log entry 9). -/
def Obligations.ResetPulsesTheLine : Prop :=
  ∀ s : State,
    (OkFor 2 s → run (resetPulse s.cfg) s = .done { s with
      pinRst := .high, useq := s.useq + 4, portFeed := s.portFeed.drop 2,
      trace := .dly s.cfg.resetHoldMs :: .rst .high :: .dly s.cfg.resetHoldMs :: .rst .low
        :: s.trace }) ∧
    (∀ f, FailsAfter 0 f s → run (resetPulse s.cfg) s = .err .rsError { s with
      pinRst := f.rstAfter, portFeed := s.portFeed.drop 1, trace := .rstFail .low :: s.trace }) ∧
    (∀ f, OkFor 1 s → FailsAfter 1 f s → run (resetPulse s.cfg) s = .err .rsError { s with
      pinRst := f.rstAfter, useq := s.useq + 2, portFeed := s.portFeed.drop 2,
      trace := .rstFail .high :: .dly s.cfg.resetHoldMs :: .rst .low :: s.trace })

/-! ## Driver operations: results -/

/-- `INIT` (42_driver_ops.md R161) ends `Ok` with its 40 primitives in order, `fsm` at `Ready` and RST
high. -/
def Obligations.InitConfiguresThePanel : Prop :=
  ∀ s, InitReady s → NoTransportFault s → IdleFor 2 s →
    exec .init s = .next { (s.sent
      ([.rst .low, .dly s.cfg.resetHoldMs, .rst .high, .dly s.cfg.resetHoldMs]
        ++ cmd s.cfg.opcodes.swReset ++ [.poll .idle]
        ++ cmd s.cfg.opcodes.driverControl ++ dat [BitVec.ofNat 8 (s.cfg.height - 1), 0x00, 0x00]
        ++ cmd s.cfg.opcodes.dataMode ++ dat [s.cfg.flagEntryXincYinc]
        ++ sff s.cfg
        ++ cmd s.cfg.opcodes.writeBorder ++ dat [s.cfg.flagBorder]
        ++ cmd s.cfg.opcodes.tempControl ++ dat [s.cfg.flagInternalTemp]
        ++ [.poll .idle]) .data 36 2).replied [0x00] with fsm := .ready, pinRst := .high }

/-- `SET_RAM_WINDOW` (42_driver_ops.md R162) with a window in order sends the X command, then the Y
command. -/
def Obligations.SetRamWindowSendsTheBounds : Prop :=
  ∀ (s : State) (x0 y0 x1 y1 : U16), DriverReady s → NoTransportFault s →
    x0.toNat < 2048 → x1.toNat < 2048 → x0.toNat < x1.toNat → y0.toNat < y1.toNat →
    exec (.setRamWindow x0 y0 x1 y1) s = .next ((s.sent
      (cmd s.cfg.opcodes.setRamXPos ++ dat [xByte x0, xByte x1]
        ++ cmd s.cfg.opcodes.setRamYPos ++ dat [lo y0, hi y0, lo y1, hi y1]) .data 8 0).replied [0x00])

/-- `SET_RAM_CURSOR` (42_driver_ops.md R163) sends the X command, then the Y command. -/
def Obligations.SetRamCursorSendsTheCursor : Prop :=
  ∀ (s : State) (x y : U16), DriverReady s → NoTransportFault s → x.toNat < 2048 →
    exec (.setRamCursor x y) s = .next ((s.sent
      (cmd s.cfg.opcodes.setRamXCount ++ dat [xByte x]
        ++ cmd s.cfg.opcodes.setRamYCount ++ dat [lo y, hi y]) .data 8 0).replied [0x00])

/-- `SELECT_FULL_FRAME` (42_driver_ops.md R164) sends the full window and the cursor at its start. -/
def Obligations.SelectFullFrameSendsTheFullFrame : Prop :=
  ∀ s, DriverReady s → NoTransportFault s →
    exec .selectFullFrame s = .next ((s.sent (sff s.cfg) .data 16 0).replied [0x00])

/-- `UPDATE_BW_FRAME` and `UPDATE_RED_FRAME` (42_driver_ops.md R165, R166) select the full frame and send
the buffer as given. -/
def Obligations.UploadsSendTheBuffer : Prop :=
  ∀ (s : State) (buffer : List Byte), DriverReady s → NoTransportFault s →
    buffer.length = s.cfg.planeBytes →
    exec (.updateBwFrame buffer) s = .next ((s.sent
      (sff s.cfg ++ cmd s.cfg.opcodes.writeBwRam ++ dat buffer) .data 20 0).replied [0x00]) ∧
    exec (.updateRedFrame buffer) s = .next ((s.sent
      (sff s.cfg ++ cmd s.cfg.opcodes.writeRedRam ++ dat buffer) .data 20 0).replied [0x00])

/-- `CLEAR_BW_FRAME` and `CLEAR_RED_FRAME` (42_driver_ops.md R167, R168) select the full frame and send
the plane's clear byte `PLANE_BYTES` times. -/
def Obligations.ClearsSendTheClearByte : Prop :=
  ∀ s, DriverReady s → NoTransportFault s →
    exec .clearBwFrame s = .next ((s.sent
      (sff s.cfg ++ cmd s.cfg.opcodes.writeBwRam
        ++ .dc .data :: List.replicate s.cfg.planeBytes (.xfer [s.cfg.bwClearByte]))
      .data (19 + s.cfg.planeBytes) 0).replied [0x00]) ∧
    exec .clearRedFrame s = .next ((s.sent
      (sff s.cfg ++ cmd s.cfg.opcodes.writeRedRam
        ++ .dc .data :: List.replicate s.cfg.planeBytes (.xfer [s.cfg.redClearByte]))
      .data (19 + s.cfg.planeBytes) 0).replied [0x00])

/-- `DISPLAY_FRAME` (42_driver_ops.md R169) selects the update mode, triggers the refresh and sees the
panel idle. -/
def Obligations.DisplayFrameTriggersTheRefresh : Prop :=
  ∀ s, DriverReady s → NoTransportFault s → IdleFor 1 s →
    exec .displayFrame s = .next ((s.sent
      (cmd s.cfg.opcodes.dispCtrl2 ++ dat [s.cfg.flagDisplayMode1]
        ++ cmd s.cfg.opcodes.masterActivate ++ [.poll .idle]) .cmd 6 1).replied [0x00])

/-- The thirteen wire commands (41_wire_commands.md R140 to R152), where the driver procedure in progress
goes on with them (R153): which bytes go out, at which level; a plane write sends a buffer in one transfer,
or the plane's own clear byte `PLANE_BYTES` times. The operation stays in progress behind the command. That a
step can end there is the model's choice (log entry 7), and so is one transfer a byte of the clear form (log
entry 13). -/
def Obligations.WireCommandsSendTheirBytes : Prop :=
  ∀ (s : State) (op : Instr), NoTransportFault s →
    (GoesOnWith s op (emitSwReset s.cfg) →
      exec .swReset s = .next (s.emitted op (cmd s.cfg.opcodes.swReset) .cmd)) ∧
    (GoesOnWith s op (emitDriverControl s.cfg) →
      exec .driverControl s = .next (s.emitted op (cmd s.cfg.opcodes.driverControl
        ++ dat [BitVec.ofNat 8 (s.cfg.height - 1), 0x00, 0x00]) .data)) ∧
    (GoesOnWith s op (emitDataMode s.cfg) →
      exec .dataMode s = .next (s.emitted op (cmd s.cfg.opcodes.dataMode
        ++ dat [s.cfg.flagEntryXincYinc]) .data)) ∧
    (∀ x0 x1 : U16, x0.toNat < 2048 → x1.toNat < 2048 → GoesOnWith s op (emitSetRamXPos s.cfg x0 x1) →
      exec (.setRamXPos x0 x1) s = .next (s.emitted op (cmd s.cfg.opcodes.setRamXPos
        ++ dat [xByte x0, xByte x1]) .data)) ∧
    (∀ y0 y1 : U16, GoesOnWith s op (emitSetRamYPos s.cfg y0 y1) →
      exec (.setRamYPos y0 y1) s = .next (s.emitted op (cmd s.cfg.opcodes.setRamYPos
        ++ dat [lo y0, hi y0, lo y1, hi y1]) .data)) ∧
    (∀ x : U16, x.toNat < 2048 → GoesOnWith s op (emitSetRamXCount s.cfg x) →
      exec (.setRamXCount x) s = .next (s.emitted op (cmd s.cfg.opcodes.setRamXCount
        ++ dat [xByte x]) .data)) ∧
    (∀ y : U16, GoesOnWith s op (emitSetRamYCount s.cfg y) →
      exec (.setRamYCount y) s = .next (s.emitted op (cmd s.cfg.opcodes.setRamYCount
        ++ dat [lo y, hi y]) .data)) ∧
    (GoesOnWith s op (emitWriteBorder s.cfg) →
      exec .writeBorder s = .next (s.emitted op (cmd s.cfg.opcodes.writeBorder
        ++ dat [s.cfg.flagBorder]) .data)) ∧
    (GoesOnWith s op (emitTempControl s.cfg) →
      exec .tempControl s = .next (s.emitted op (cmd s.cfg.opcodes.tempControl
        ++ dat [s.cfg.flagInternalTemp]) .data)) ∧
    (∀ buffer : List Byte, buffer.length = s.cfg.planeBytes →
      (GoesOnWith s op (emitWriteBwRam s.cfg (.buffer buffer)) →
        exec (.writeBwRam (.buffer buffer)) s = .next (s.emitted op (cmd s.cfg.opcodes.writeBwRam
          ++ dat buffer) .data)) ∧
      (GoesOnWith s op (emitWriteRedRam s.cfg (.buffer buffer)) →
        exec (.writeRedRam (.buffer buffer)) s = .next (s.emitted op (cmd s.cfg.opcodes.writeRedRam
          ++ dat buffer) .data))) ∧
    (GoesOnWith s op (emitWriteBwRam s.cfg .clear) →
      exec (.writeBwRam .clear) s = .next (s.emitted op (cmd s.cfg.opcodes.writeBwRam
        ++ .dc .data :: List.replicate s.cfg.planeBytes (.xfer [s.cfg.bwClearByte])) .data)) ∧
    (GoesOnWith s op (emitWriteRedRam s.cfg .clear) →
      exec (.writeRedRam .clear) s = .next (s.emitted op (cmd s.cfg.opcodes.writeRedRam
        ++ .dc .data :: List.replicate s.cfg.planeBytes (.xfer [s.cfg.redClearByte])) .data)) ∧
    (GoesOnWith s op (emitDispCtrl2 s.cfg) →
      exec .dispCtrl2 s = .next (s.emitted op (cmd s.cfg.opcodes.dispCtrl2
        ++ dat [s.cfg.flagDisplayMode1]) .data)) ∧
    (GoesOnWith s op (emitMasterActivate s.cfg) →
      exec .masterActivate s = .next (s.emitted op (cmd s.cfg.opcodes.masterActivate) .cmd))

/-- 41_wire_commands.md R153: the host cannot emit a wire command; one is emitted only as a part of the driver
procedure in progress, in an `fsm` state in which that operation sends, and running it alone changes nothing:
the operation goes on from there as it would have gone on with it, or has ended as it would have ended. That
it can be run alone is the model's choice (log entry 7). -/
def Obligations.WireCommandsRunInsideDriverProcedures : Prop :=
  (∀ bytes i, decodeRequest bytes = some i → i.isWire = false) ∧
  (∀ (s : State) (i : Instr), i.isWire = true → i.wellFormed s.cfg = true → s.halted = false →
    s.curOp = none → exec i s = .refused .notInProcedure) ∧
  ∀ (s t : State) (i : Instr), i.isWire = true → exec i s = .next t →
    ∃ op, s.curOp = some op ∧ op.isDriver = true ∧ s.fsm ≠ .uninitialized ∧ s.fsm ≠ .faulted ∧
      ((t.curOp = some op ∧ resume op t = resume op s) ∨ (t.curOp = none ∧ resume op s = .next t))

/-! ## Framebuffer operations: results -/

/-- `FB_CLEAR` (43_framebuffer_ops.md R200, R190): its requests; every byte of both planes takes the colour's
fill value, nothing else changes but the response and the sequencer's position; running it again changes
no byte. -/
def Obligations.FbClearFillsBothPlanes : Prop :=
  decodeRequest [0x09, 0x00] = some (.fbClear .black) ∧
  decodeRequest [0x09, 0x01] = some (.fbClear .white) ∧
  decodeRequest [0x09, 0x02] = some (.fbClear .red) ∧
  ∀ s color, Accepting s →
    ∃ t, exec (.fbClear color) s = .next t ∧
      t = { s with black := t.black, red := t.red, useq := t.useq, responses := s.responses ++ [[0x00]] } ∧
      (∀ i < s.cfg.planeBytes,
        readByte t.cfg t.black i = some (if color = .black then 0x00 else 0xFF) ∧
        readByte t.cfg t.red i = some (if color = .red then 0xFF else 0x00)) ∧
      ∃ u, exec (.fbClear color) t = .next u ∧ u.black = t.black ∧ u.red = t.red

/-- `FB_SET_PIXEL` (43_framebuffer_ops.md R199) writes the bit of the mapper's address in each plane; the
other bits of the byte, every other byte of both planes and everything else stay. -/
def Obligations.SetPixelWritesOneBitOfEachPlane : Prop :=
  ∀ (s : State) (x y : U16) (color : Color), Accepting s → s.cfg.Valid → PlanesOk s →
    InRange s.cfg s.rot x.toNat y.toNat →
    ∃ t, exec (.fbSetPixel x y color) s = .next t ∧
      t = { s with black := t.black, red := t.red, useq := 0, responses := s.responses ++ [[0x00]] } ∧
      ∀ i m, mapPixel s.cfg s.rot x.toNat y.toNat = (i, m) →
        (∀ b, readByte s.cfg s.black i = some b →
          readByte t.cfg t.black i = some (if color = .black then b &&& ~~~m else b ||| m)) ∧
        (∀ r, readByte s.cfg s.red i = some r →
          readByte t.cfg t.red i = some (if color = .red then r ||| m else r &&& ~~~m)) ∧
        ∀ a, a ≠ i → readByte t.cfg t.black a = readByte s.cfg s.black a ∧
          readByte t.cfg t.red a = readByte s.cfg s.red a

/-- `FB_SET_ROTATION` (43_framebuffer_ops.md R202) writes `rot` and nothing else: no pixel moves. -/
def Obligations.SetRotationWritesRotAlone : Prop :=
  ∀ s r, Accepting s →
    exec (.fbSetRotation r) s =
      .next { s with rot := r, useq := 0, responses := s.responses ++ [[0x00]] }

/-- `FB_ROTATION` (43_framebuffer_ops.md R203), request `[0x0C]`, answers the code of `rot` and changes
nothing. -/
def Obligations.RotationAnswersTheCode : Prop :=
  decodeRequest [0x0C] = some .fbRotation ∧
  ∀ s, Accepting s →
    ∃ u, exec .fbRotation s = .next { s with
      useq := u
      responses := s.responses ++ [[0x00, match s.rot with
        | .r0 => 0
        | .r90 => 1
        | .r180 => 2
        | .r270 => 3]] }

/-- `FB_SIZE` (43_framebuffer_ops.md R204, 30_encoding.md R95), request `[0x0D]`, answers the logical extent,
width first, low bytes first, and changes nothing. -/
def Obligations.SizeAnswersTheLogicalExtent : Prop :=
  decodeRequest [0x0D] = some .fbSize ∧
  ∀ s, Accepting s → s.cfg.Valid →
    ∃ w h u, exec .fbSize s = .next { s with
        useq := u
        responses := s.responses ++ [[0x00, lo w, hi w, lo h, hi h]] } ∧
      (s.rot = .r0 ∨ s.rot = .r180 → w.toNat = s.cfg.width ∧ h.toNat = s.cfg.height) ∧
      (s.rot = .r90 ∨ s.rot = .r270 → w.toNat = s.cfg.height ∧ h.toNat = s.cfg.width)

/-- `FB_BLACK_DATA` and `FB_RED_DATA` (43_framebuffer_ops.md R205, R206), requests `[0x0E]` and `[0x0F]`,
answer the `PLANE_BYTES` bytes of the plane in order and change nothing. -/
def Obligations.PlaneReadsAnswerThePlane : Prop :=
  decodeRequest [0x0E] = some .fbBlackData ∧ decodeRequest [0x0F] = some .fbRedData ∧
  ∀ s, Accepting s →
    ∃ (b r : List Byte) (u v : Nat),
      exec .fbBlackData s = .next { s with useq := u, responses := s.responses ++ [0x00 :: b] } ∧
      exec .fbRedData s = .next { s with useq := v, responses := s.responses ++ [0x00 :: r] } ∧
      b.length = s.cfg.planeBytes ∧ r.length = s.cfg.planeBytes ∧
      ∀ i < s.cfg.planeBytes, b[i]? = readByte s.cfg s.black i ∧ r[i]? = readByte s.cfg s.red i

/-! ## The address mapper and what the planes hold -/

/-- 43_framebuffer_ops.md R197: at every rotation the mapper is a bijection from the logical pixels onto the
bits of a plane, it is the coordinate rotation followed by the unrotated addressing, and `WIDTH = 12`
breaks it. -/
def Obligations.MapperIsABijection : Prop :=
  (∀ (c : Config), c.Valid → ∀ r,
    (∀ x y, InRange c r x y →
      (mapPixel c r x y).1 < c.planeBytes ∧ (∃ k < 8, (mapPixel c r x y).2 = 0x80#8 >>> k) ∧
      (physical c r x y).1 < c.width ∧ (physical c r x y).2 < c.height ∧
      mapPixel c r x y = physicalAddress c (physical c r x y).1 (physical c r x y).2) ∧
    (∀ x y x' y', InRange c r x y → InRange c r x' y' →
      mapPixel c r x y = mapPixel c r x' y' → x = x' ∧ y = y') ∧
    (∀ i k, i < c.planeBytes → k < 8 →
      ∃ x y, InRange c r x y ∧ mapPixel c r x y = (i, 0x80#8 >>> k))) ∧
  ∀ c : Config, c.width = 12 →
    mapPixel c .r0 8 0 = (1, 0x80) ∧ mapPixel c .r0 0 1 = (1, 0x80)

/-- 43_framebuffer_ops.md R197's consequence and 10_state.md R27: after `FB_SET_PIXEL` the pixel's two bits
are the colour's, and the bits of no other pixel changed. -/
def Obligations.SetPixelChangesThatPixelAlone : Prop :=
  ∀ (s t : State) (x y : U16) (color : Color), s.cfg.Valid → PlanesOk s →
    exec (.fbSetPixel x y color) s = .next t →
    pixelBits t x.toNat y.toNat = planeBits color ∧
    ∀ x' y', InRange s.cfg s.rot x' y' → (x', y') ≠ (x.toNat, y.toNat) →
      pixelBits t x' y' = pixelBits s x' y'

/-- 43_framebuffer_ops.md R208: `FB_CLEAR` leaves no pixel with the bits (0, 1), and no instruction and no
step that is no block reset makes one. -/
def Obligations.NoInstructionMakesRedWithoutBlackBit : Prop :=
  (∀ s t color, exec (.fbClear color) s = .next t → NoRedWithoutBlackBit t) ∧
  (∀ s t i, PlanesOk s → NoRedWithoutBlackBit s → exec i s = .next t → NoRedWithoutBlackBit t) ∧
  ∀ s t, PlanesOk s → NoRedWithoutBlackBit s → NoResetDue s → step s = .next t →
    NoRedWithoutBlackBit t

/-- `FB_DRAW` (43_framebuffer_ops.md R207): with every pair in range, each pixel has the colour of the last
pair at that point, and one without a pair stays; a pair out of range refuses the batch there. -/
def Obligations.DrawAppliesThePairsInOrder : Prop :=
  ∀ (s : State) (pairs : List (U16 × U16 × Color)), Accepting s → s.cfg.Valid → PlanesOk s →
    (∀ p ∈ pairs, InRange s.cfg s.rot p.1.toNat p.2.1.toNat) →
    (∃ t, fbDraw pairs s = .next t ∧ t.rot = s.rot ∧
      ∀ x y, InRange s.cfg s.rot x y →
        pixelBits t x y =
          match pairs.reverse.find? fun p => p.1.toNat = x ∧ p.2.1.toNat = y with
          | some p => planeBits p.2.2
          | none => pixelBits s x y) ∧
    ∀ p rest, ¬ InRange s.cfg s.rot p.1.toNat p.2.1.toNat →
      fbDraw (pairs ++ p :: rest) s = .refused .pixelOutOfRange

/-! ## Admission, refusals, aborts -/

/-- 42_driver_ops.md R160, with 60_exceptions.md R234's `Halted`: who is turned away, before any primitive
and whatever the operands. -/
def Obligations.AdmissionFollowsTheTable : Prop :=
  ∀ (s : State) (i : Instr), s.curOp = none →
    (s.halted = true → exec i s = .refused .halted) ∧
    (s.halted = false → i.isDriver = true → i ≠ .init → s.fsm = .uninitialized →
      exec i s = .refused .beforeInit) ∧
    (s.halted = false → i.isDriver = true → s.fsm = .faulted →
      exec i s = .refused .useAfterFault) ∧
    (s.halted = false → s.cfg.Valid → i.isDriver = true → operandsOk s.cfg i →
      s.fsm = .ready ∨ (s.fsm = .uninitialized ∧ i = .init) → ∃ t, exec i s = .next t)

/-- The operand checks (42_driver_ops.md R162, R163, R165, R166; 43_framebuffer_ops.md R198): each refusal
on exactly its operands, before the contract check and before any primitive. A wire command run alone (log
entry 7) has the checks of its operands (30_encoding.md R85, R82). -/
def Obligations.OperandRefusalsComeBeforeTheProcedure : Prop :=
  (∀ s, DriverReady s →
    (∀ x0 y0 x1 y1 : U16, 2048 ≤ x0.toNat ∨ 2048 ≤ x1.toNat →
      exec (.setRamWindow x0 y0 x1 y1) s = .refused .operandTooWide) ∧
    (∀ x y : U16, 2048 ≤ x.toNat → exec (.setRamCursor x y) s = .refused .operandTooWide) ∧
    (∀ buffer : List Byte, buffer.length ≠ s.cfg.planeBytes →
      exec (.updateBwFrame buffer) s = .refused .bufferLength ∧
      exec (.updateRedFrame buffer) s = .refused .bufferLength) ∧
    (∀ (x y : U16) (color : Color), ¬ InRange s.cfg s.rot x.toNat y.toNat →
      exec (.fbSetPixel x y color) s = .refused .pixelOutOfRange)) ∧
  ∀ s : State, s.halted = false →
    (∀ x0 x1 : U16, 2048 ≤ x0.toNat ∨ 2048 ≤ x1.toNat →
      exec (.setRamXPos x0 x1) s = .refused .operandTooWide) ∧
    (∀ x : U16, 2048 ≤ x.toNat → exec (.setRamXCount x) s = .refused .operandTooWide) ∧
    ∀ buffer : List Byte, buffer.length ≠ s.cfg.planeBytes →
      exec (.writeBwRam (.buffer buffer)) s = .refused .bufferLength ∧
      exec (.writeRedRam (.buffer buffer)) s = .refused .bufferLength

/-- `SET_RAM_WINDOW` out of order ends `Abort` (42_driver_ops.md R162, 60_exceptions.md R231): `halted` is
set, nothing is sent, nothing is answered, all else stays, whatever the environment would answer. -/
def Obligations.MisorderedWindowAborts : Prop :=
  ∀ (s : State) (x0 y0 x1 y1 : U16), DriverReady s → x0.toNat < 2048 → x1.toNat < 2048 →
    x1.toNat ≤ x0.toNat ∨ y1.toNat ≤ y0.toNat →
    exec (.setRamWindow x0 y0 x1 y1) s = .next { s with halted := true, useq := 0 }

/-- 60_exceptions.md R232: there is no other contract violation. A step sets `halted` only by a
`SET_RAM_WINDOW` whose bounds are out of order, taken between operations. -/
def Obligations.OnlyAMisorderedWindowAborts : Prop :=
  ∀ s t, s.cfg.Valid → SequencerOk s → s.halted = false → step s = .next t → t.halted = true →
    s.curOp = none ∧ ∃ f s' x0 y0 x1 y1, nextFrame s = some (f, s') ∧
      decodeFrame s.cfg f = some (.setRamWindow x0 y0 x1 y1) ∧
      (x1.toNat ≤ x0.toNat ∨ y1.toNat ≤ y0.toNat)

/-- 60_exceptions.md R235, steps 1 to 5: the first check that applies decides, whatever the later ones
would say. -/
def Obligations.ChecksComeInTheirOrder : Prop :=
  ∀ (s : State) (f : Frame), s.curOp = none →
    (s.halted = true → acceptFrame f s = .refused .halted) ∧
    (s.halted = false → decodeFrame s.cfg f = none → acceptFrame f s = .refused .reservedEncoding) ∧
    (∀ i, s.halted = false → decodeFrame s.cfg f = some i → i.isDriver = true →
      (s.fsm = .uninitialized → i ≠ .init → acceptFrame f s = .refused .beforeInit) ∧
      (s.fsm = .faulted → acceptFrame f s = .refused .useAfterFault)) ∧
    (∀ x0 y0 x1 y1 : U16, s.halted = false → s.fsm = .ready →
      decodeFrame s.cfg f = some (.setRamWindow x0 y0 x1 y1) →
      (2048 ≤ x0.toNat ∨ 2048 ≤ x1.toNat → acceptFrame f s = .refused .operandTooWide) ∧
      (x0.toNat < 2048 → x1.toNat < 2048 → x1.toNat ≤ x0.toNat ∨ y1.toNat ≤ y0.toNat →
        ∃ t, acceptFrame f s = .next t ∧ t.halted = true ∧ t.trace = s.trace))

/-- 60_exceptions.md R234: the list of reasons is closed, and each says when. `notInProcedure`, for a wire
command that is no part of an operation in progress (41_wire_commands.md R153), is the model's (log entry 7);
no host request meets it. -/
def Obligations.EveryRefusalHasItsReason : Prop :=
  ∀ (s : State) (f : Frame) (r : Refusal), s.curOp = none → s.fsm.persistent = true →
    acceptFrame f s = .refused r →
    (r = .halted ∧ s.halted = true) ∨
    (r = .reservedEncoding ∧ decodeFrame s.cfg f = none) ∨
    ∃ i, decodeFrame s.cfg f = some i ∧
      ((r = .beforeInit ∧ i.isDriver = true ∧ i ≠ .init ∧ s.fsm = .uninitialized) ∨
      (r = .useAfterFault ∧ i.isDriver = true ∧ s.fsm = .faulted) ∨
      (r = .operandTooWide ∧
        ((∃ x0 y0 x1 y1, i = .setRamWindow x0 y0 x1 y1 ∧ (2048 ≤ x0.toNat ∨ 2048 ≤ x1.toNat)) ∨
        ∃ x y, i = .setRamCursor x y ∧ 2048 ≤ x.toNat)) ∨
      (r = .bufferLength ∧
        ∃ buffer, (i = .updateBwFrame buffer ∨ i = .updateRedFrame buffer) ∧
          buffer.length ≠ s.cfg.planeBytes) ∨
      (r = .pixelOutOfRange ∧
        ∃ x y color, i = .fbSetPixel x y color ∧ ¬ InRange s.cfg s.rot x.toNat y.toNat) ∨
      (r = .notInProcedure ∧ i.isWire = true))

/-! ## Errors -/

/-- 60_exceptions.md R228, 40_transport.md R126: an operation that fails, in the step that starts it or after
a wait, is the fault-free operation cut at the failing primitive. Every primitive before it was done, none
after it started; `fsm` is `Faulted`, no operation is in progress, the status byte is the answer, and nothing
else changed but the pins. That a wire command run alone fails as its operation is the model's (log entry
7). -/
def Obligations.FailureIsPrecise : Prop :=
  (∀ (s t : State) (i : Instr), s.cfg.Valid → s.fsm ≠ .faulted → exec i s = .next t →
    t.fsm = .faulted → CutAtFailure (exec i s.quiet) s t) ∧
  ∀ (s t : State) (op : Instr), s.cfg.Valid → SequencerOk s → s.curOp = some op → NoResetDue s →
    step s = .next t → t.fsm = .faulted → CutAtFailure (step s.quiet) s t

/-- 60_exceptions.md R222, R221, 40_transport.md R126: an operation can fail at every primitive that the
environment answers, in the step that starts it and after a wait: a failing answer at any of them ends it
there, with the error of that primitive. Every driver operation other than `INIT` begins with a pin write and
the opcode of its first command. The level a failed pin write leaves is a free value (log entry 9). -/
def Obligations.DriverOperationsCanFail : Prop :=
  (∀ (s t₀ : State) (i : Instr) (f : PortFault) (before after : List Event) (e : Event),
    i.isDriver = true ∨ i.isWire = true → exec i s.quiet = .next t₀ →
    t₀.events = s.events ++ before ++ e :: after → e.answered = true →
    OkFor (before.countP Event.answered) s → FailsAfter (before.countP Event.answered) f s →
    IdleFor 2 s → ∃ t, exec i s = .next t ∧ FailedAt before e f s t) ∧
  (∀ (s t₀ : State) (op : Instr) (f : PortFault) (before after : List Event) (e : Event),
    SequencerOk s → s.curOp = some op → NoResetDue s → step s.quiet = .next t₀ →
    t₀.events = s.events ++ before ++ e :: after → e.answered = true →
    OkFor (before.countP Event.answered) s → FailsAfter (before.countP Event.answered) f s →
    IdleFor 2 s → ∃ t, step s = .next t ∧ FailedAt before e f s t) ∧
  ∀ (s : State) (i : Instr) (f : PortFault), DriverReady s → i.isDriver = true → i ≠ .init →
    operandsOk s.cfg i →
    (FailsAfter 0 f s → exec i s = .next { s with
      fsm := .faulted, useq := 0, pinDc := f.dcAfter, portFeed := s.portFeed.drop 1,
      trace := .dcFail .cmd :: s.trace, responses := s.responses ++ [[0x03]] }) ∧
    (OkFor 1 s → FailsAfter 1 f s → ∃ command more b operands,
      wireCommands s.cfg i = command :: more ∧ command.encode s.cfg = b :: operands ∧
      exec i s = .next { s with
        fsm := .faulted, useq := 0, pinDc := .cmd, portFeed := s.portFeed.drop 2,
        trace := .xferFail [b] f.xfer.kind :: .dc .cmd :: s.trace,
        responses := s.responses ++ [[if f.xfer = .bus then 0x02 else 0x04]] })

/-- 60_exceptions.md R222, R221: `INIT` can end with `RSError` at either pin write of its reset pulse, and
with `DCError`, `BusWriteError` or `CSError` at its first command. -/
def Obligations.InitCanFail : Prop :=
  ∀ (s : State) (f : PortFault), InitReady s →
    (FailsAfter 0 f s → ∃ t, exec .init s = .next t ∧ t.fsm = .faulted ∧
      t.responses = s.responses ++ [[0x05]] ∧ t.events = s.events ++ [.rstFail .low]) ∧
    (OkFor 1 s → FailsAfter 1 f s → ∃ t, exec .init s = .next t ∧ t.fsm = .faulted ∧
      t.responses = s.responses ++ [[0x05]] ∧
      t.events = s.events ++ [.rst .low, .dly s.cfg.resetHoldMs, .rstFail .high]) ∧
    (OkFor 2 s → FailsAfter 2 f s → ∃ t, exec .init s = .next t ∧ t.fsm = .faulted ∧
      t.responses = s.responses ++ [[0x03]] ∧
      t.events = s.events ++ [.rst .low, .dly s.cfg.resetHoldMs, .rst .high,
        .dly s.cfg.resetHoldMs, .dcFail .cmd]) ∧
    (OkFor 3 s → FailsAfter 3 f s → ∃ t, exec .init s = .next t ∧ t.fsm = .faulted ∧
      t.responses = s.responses ++ [[if f.xfer = .bus then 0x02 else 0x04]] ∧
      t.events = s.events ++ [.rst .low, .dly s.cfg.resetHoldMs, .rst .high,
        .dly s.cfg.resetHoldMs, .dc .cmd, .xferFail [s.cfg.opcodes.swReset] f.xfer.kind])

/-- 30_encoding.md R96, 60_exceptions.md R222: the status codes, and which of them a step can answer:
`RSError` for `INIT` alone, no error for a framebuffer operation. -/
def Obligations.StatusCodesThatCanOccur : Prop :=
  [okStatus, ErrorKind.invalidFormatError.code, ErrorKind.busWriteError.code, ErrorKind.dcError.code,
    ErrorKind.csError.code, ErrorKind.rsError.code, ErrorKind.dataFormatNotImplemented.code,
    ErrorKind.outOfBoundsError.code] = [0x00, 0x01, 0x02, 0x03, 0x04, 0x05, 0x06, 0x07] ∧
  (∀ (s t : State), NoResetDue s → step s = .next t →
    t.responses = s.responses ∨ ∃ status result, t.responses = s.responses ++ [status :: result] ∧
      (status = 0x00 ∨ (result = [] ∧
        (status = 0x02 ∨ status = 0x03 ∨ status = 0x04 ∨ status = 0x05)))) ∧
  (∀ (s t : State) (i : Instr), exec i s = .next t → t.responses = s.responses ++ [[0x05]] →
    i = .init) ∧
  ∀ (s t : State) (i : Instr), i.isFramebuffer = true → exec i s = .next t →
    t.fsm = s.fsm ∧ ∃ result, t.responses = s.responses ++ [0x00 :: result]

/-- 60_exceptions.md R233, 10_state.md R22, R31: `Faulted` and `halted` are sticky. A step that is no block
reset leaves neither; and after a block reset `INIT` is admitted. -/
def Obligations.OnlyBlockResetRecovers : Prop :=
  ∀ s t, SequencerOk s → step s = .next t →
    (NoResetDue s → s.fsm = .faulted → t.fsm = .faulted) ∧
    (NoResetDue s → s.halted = true → t.halted = true ∧ t.events = s.events ∧
      t.responses = s.responses) ∧
    (s.cfg.Valid → ¬ NoResetDue s → InitReady t ∧ t.curOp = none)

/-- 10_state.md R21: the transitions of `fsm`. A step leaves `Uninitialized` by `INIT` alone and `Faulted` not
at all; from the two waits of `INIT` it goes on, or to `Faulted`; `Ready` it leaves by `INIT`, or to `Faulted`.
A wire command run alone (log entry 7) makes the two changes inside `INIT` that come before one, or fails. -/
def Obligations.FsmTransitionsFollowTheList : Prop :=
  (∀ s t, s.cfg.Valid → SequencerOk s → NoResetDue s → step s = .next t → t.fsm ≠ s.fsm →
    (s.fsm = .uninitialized ∨ s.fsm = .ready) ∧
      (∃ f s', nextFrame s = some (f, s') ∧ decodeFrame s.cfg f = some .init) ∧
      (t.fsm = .softwareReset ∨ t.fsm = .configuring ∨ t.fsm = .ready ∨ t.fsm = .faulted) ∨
    s.fsm = .ready ∧ t.fsm = .faulted ∧
      (∃ f s' i, nextFrame s = some (f, s') ∧ decodeFrame s.cfg f = some i ∧ i.isDriver = true) ∨
    s.fsm = .softwareReset ∧ (t.fsm = .configuring ∨ t.fsm = .ready ∨ t.fsm = .faulted) ∨
    s.fsm = .configuring ∧ t.fsm = .ready) ∧
  ∀ s t i, i.isWire = true → exec i s = .next t → t.fsm ≠ s.fsm →
    (s.fsm = .resetting ∧ t.fsm = .softwareReset) ∨
    (s.fsm = .softwareReset ∧ t.fsm = .configuring) ∨
    ((s.fsm = .resetting ∨ s.fsm = .softwareReset ∨ s.fsm = .configuring ∨ s.fsm = .ready) ∧
      t.fsm = .faulted)

/-! ## Frames -/

/-- What a driver operation, a wire command, or a step that goes on after a wait leaves unchanged, whatever the
environment answers: the planes, byte by byte, `rot`, `inv`, the requests and the wire slot; RST but by
`INIT`'s start; `fsm` but by `INIT`, its wire commands among it, or a failure; `halted` but by
`SET_RAM_WINDOW`. What a wire command run alone leaves is the model's (log entry 7). -/
def Obligations.DriverAndWireFrame : Prop :=
  (∀ (s t : State) (i : Instr), s.cfg.Valid → i.isDriver = true → exec i s = .next t →
    PortFrame s t ∧ t.resets = s.resets ∧
    (i ≠ .init → t.pinRst = s.pinRst ∧ (t.fsm = s.fsm ∨ t.fsm = .faulted)) ∧
    ((∀ x0 y0 x1 y1, i ≠ .setRamWindow x0 y0 x1 y1) → t.halted = s.halted) ∧
    (i ≠ .init → i ≠ .displayFrame → t.curOp = none ∧ t.busyFeed = s.busyFeed) ∧
    (t.curOp ≠ none → t.responses = s.responses)) ∧
  (∀ (s t : State) (i : Instr), s.cfg.Valid → i.isWire = true → exec i s = .next t →
    PortFrame s t ∧ t.resets = s.resets ∧ t.pinRst = s.pinRst ∧ t.busyFeed = s.busyFeed ∧
    (t.curOp = s.curOp ∨ t.curOp = none) ∧
    (s.curOp ≠ some .init → t.fsm = s.fsm ∨ t.fsm = .faulted) ∧
    ((∀ x0 y0 x1 y1, s.curOp ≠ some (.setRamWindow x0 y0 x1 y1)) → t.halted = s.halted) ∧
    (t.curOp ≠ none → t.responses = s.responses ∧ t.halted = s.halted)) ∧
  ∀ (s t : State) (op : Instr), s.cfg.Valid → SequencerOk s → s.curOp = some op → NoResetDue s →
    step s = .next t →
    PortFrame s t ∧ t.pinRst = s.pinRst ∧ t.halted = s.halted ∧
    (t.curOp = some op ∧ t.responses = s.responses ∨ t.curOp = none) ∧
    (op = .displayFrame → t.fsm = s.fsm ∧ t.pinDc = s.pinDc ∧ t.portFeed = s.portFeed)

/-- What a framebuffer operation leaves unchanged: all of the driver, the pins, the trace and the inputs;
`rot` but by `FB_SET_ROTATION`; every byte of the planes but by `FB_CLEAR` and, at the mapper's address,
by `FB_SET_PIXEL`. -/
def Obligations.FramebufferFrame : Prop :=
  ∀ (s t : State) (i : Instr), i.isFramebuffer = true → exec i s = .next t →
    t = { s with
      rot := t.rot, black := t.black, red := t.red, useq := 0, responses := t.responses } ∧
    ((∀ r, i ≠ .fbSetRotation r) → t.rot = s.rot) ∧
    ((∀ color, i ≠ .fbClear color) → (∀ x y color, i ≠ .fbSetPixel x y color) →
      ∀ a, readByte t.cfg t.black a = readByte s.cfg s.black a ∧
        readByte t.cfg t.red a = readByte s.cfg s.red a) ∧
    ∀ x y color, i = .fbSetPixel x y color →
      ∀ a, a ≠ (mapPixel s.cfg s.rot x.toNat y.toNat).1 →
        readByte t.cfg t.black a = readByte s.cfg s.black a ∧
        readByte t.cfg t.red a = readByte s.cfg s.red a

/-- 10_state.md R37 and 20_memory.md R63: no step changes a parameter; a step that is no block reset takes
nothing back: the trace and the responses only grow, by at most one response (60_exceptions.md R236),
and at most one request is taken. -/
def Obligations.StepsOnlyAddToTheObservation : Prop :=
  ∀ s t, step s = .next t →
    t.cfg = s.cfg ∧
    (NoResetDue s →
      (∃ new, t.events = s.events ++ new) ∧
      (t.responses = s.responses ∨ ∃ response, t.responses = s.responses ++ [response]) ∧
      (t.requests = s.requests ∨ ∃ request, s.requests = request :: t.requests))

/-! ## Invariants -/

/-- Every step keeps the planes in canonical form inside their indices (10_state.md R25, R26). -/
def Obligations.StepKeepsThePlanesCanonical : Prop :=
  ∀ s t, PlanesOk s → step s = .next t → PlanesOk t

/-- Every step keeps the sequencer in one of its four places: between operations with `fsm` at one of its
three persistent states (42_driver_ops.md R171), or at one of the three waits (20_memory.md R64), with no wire
command to emit alone (41_wire_commands.md R153); and an operation in progress keeps the operand values it was
admitted with. -/
def Obligations.StepKeepsTheSequencerLegal : Prop :=
  (∀ s t, s.cfg.Valid → SequencerOk s → step s = .next t → SequencerOk t) ∧
  ∀ s t, InProgressOk s → step s = .next t → InProgressOk t

/-- In a configuration that meets 00_scope.md R6 no step faults: every plane index is legal (20_memory.md
R60) and every transfer has a byte (40_transport.md R121). -/
def Obligations.NoStepFaults : Prop :=
  ∀ (s : State) (f : Fault), s.cfg.Valid → InProgressOk s → step s ≠ .fault f

/-! ## Waiting for the panel -/

/-- 40_transport.md R125: while the panel is busy, a step of a waiting operation is one sample and one delay,
and the operation stays at the sample. -/
def Obligations.BusyRoundIsOneSampleAndOneDelay : Prop :=
  ∀ (s : State) (i : Instr), SequencerOk s → s.curOp = some i → s.resets = [] →
    s.busyFeed.head = .busy →
    step s = .next { s with
      busyFeed := s.busyFeed.drop 1
      trace := .dly s.cfg.pollMs :: .poll .busy :: s.trace }

/-- 60_exceptions.md R237, 20_memory.md R64: `INIT` and `DISPLAY_FRAME` do not complete without an `IDLE`
sample as their last event, whether they waited or not. -/
def Obligations.NoCompletionWithoutAnIdleSample : Prop :=
  (∀ s t i, i = .init ∨ i = .displayFrame → exec i s = .next t →
    t.responses = s.responses ++ [[0x00]] → ∃ older, t.trace = .poll .idle :: older) ∧
  ∀ s t i, SequencerOk s → s.curOp = some i → NoResetDue s → step s = .next t →
    t.responses = s.responses ++ [[0x00]] →
    s.busyFeed.head = .idle ∧ ∃ older, t.trace = .poll .idle :: older

/-- Under `NoTransportFault` and `PanelEventuallyIdle` (00_scope.md R13), `INIT` ends `Ok` in `Ready`, its
commands in order (42_driver_ops.md R161) and each wait the rounds of the busy samples to come, then the `IDLE`
sample (40_transport.md R125). That each round is a step of its own is the model's (log entry 1). -/
def Obligations.InitEventuallyCompletes : Prop :=
  ∀ s s', InitReady s → NoTransportFault s → PanelEventuallyIdle s → s.wireSlot = none → s.resets = [] →
    nextFrame s = some (.host [0x00], s') →
    ∃ k₁ k₂ t, FirstIdle s.busyFeed k₁ ∧ FirstIdle (s.busyFeed.drop (k₁ + 1)) k₂ ∧
      k₁ + k₂ ≤ s.busyFeed.queue.length ∧
      Host.Core.run Sys2Proof.core (k₁ + k₂ + 1) s = .next t ∧
      t.curOp = none ∧ t.fsm = .ready ∧ t.pinRst = .high ∧ t.responses = s.responses ++ [[0x00]] ∧
      t.events = s.events
        ++ [.rst .low, .dly s.cfg.resetHoldMs, .rst .high, .dly s.cfg.resetHoldMs]
        ++ cmd s.cfg.opcodes.swReset ++ busyRounds s.cfg k₁ ++ [.poll .idle]
        ++ cmd s.cfg.opcodes.driverControl ++ dat [BitVec.ofNat 8 (s.cfg.height - 1), 0x00, 0x00]
        ++ cmd s.cfg.opcodes.dataMode ++ dat [s.cfg.flagEntryXincYinc]
        ++ sff s.cfg
        ++ cmd s.cfg.opcodes.writeBorder ++ dat [s.cfg.flagBorder]
        ++ cmd s.cfg.opcodes.tempControl ++ dat [s.cfg.flagInternalTemp]
        ++ busyRounds s.cfg k₂ ++ [.poll .idle]

/-- The same for `DISPLAY_FRAME` in `Ready` (42_driver_ops.md R169). -/
def Obligations.DisplayEventuallyCompletes : Prop :=
  ∀ s s', DriverReady s → NoTransportFault s → PanelEventuallyIdle s → s.wireSlot = none → s.resets = [] →
    nextFrame s = some (.host [0x08], s') →
    ∃ k t, FirstIdle s.busyFeed k ∧ k ≤ s.busyFeed.queue.length ∧
      Host.Core.run Sys2Proof.core (k + 1) s = .next t ∧
      t.curOp = none ∧ t.fsm = .ready ∧ t.responses = s.responses ++ [[0x00]] ∧
      t.events = s.events ++ cmd s.cfg.opcodes.dispCtrl2 ++ dat [s.cfg.flagDisplayMode1]
        ++ cmd s.cfg.opcodes.masterActivate ++ busyRounds s.cfg k ++ [.poll .idle]

/-- 60_exceptions.md R237: with a panel that never reports idle again, `DISPLAY_FRAME` never ends, and `INIT`
never ends at its first wait, with `fsm` at `SoftwareReset`, or at its second, with `fsm` at `Configuring`
(42_driver_ops.md R161): after any number of steps the operation is still in progress, nothing was answered,
and the trace is what was sent and then `POLL(BUSY), DLY(POLL_MS)` over and over. That each round is a step of
its own is the model's (log entry 1). -/
def Obligations.OperationsHangOnABusyPanel : Prop :=
  (∀ s s', DriverReady s → NoTransportFault s → NeverIdle s → s.wireSlot = none → s.resets = [] →
    nextFrame s = some (.host [0x08], s') →
    ∀ n, ∃ t, Host.Core.run Sys2Proof.core (n + 1) s = .next t ∧
      t.curOp = some .displayFrame ∧ t.fsm = .ready ∧ t.halted = false ∧
      t.responses = s.responses ∧
      t.events = s.events ++ cmd s.cfg.opcodes.dispCtrl2 ++ dat [s.cfg.flagDisplayMode1]
        ++ cmd s.cfg.opcodes.masterActivate ++ busyRounds s.cfg (n + 1)) ∧
  ∀ s s', InitReady s → NoTransportFault s → s.wireSlot = none → s.resets = [] →
    nextFrame s = some (.host [0x00], s') →
    (NeverIdle s → ∀ n, ∃ t, Host.Core.run Sys2Proof.core (n + 1) s = .next t ∧
      t.curOp = some .init ∧ t.fsm = .softwareReset ∧ t.halted = false ∧ t.responses = s.responses ∧
      t.events = s.events
        ++ [.rst .low, .dly s.cfg.resetHoldMs, .rst .high, .dly s.cfg.resetHoldMs]
        ++ cmd s.cfg.opcodes.swReset ++ busyRounds s.cfg (n + 1)) ∧
    ∀ k, FirstIdle s.busyFeed k → (∀ j, (s.busyFeed.drop (k + 1 + j)).head = .busy) →
      ∀ n, ∃ t, Host.Core.run Sys2Proof.core (k + n + 1) s = .next t ∧
        t.curOp = some .init ∧ t.fsm = .configuring ∧ t.halted = false ∧ t.responses = s.responses ∧
        t.events = s.events
          ++ [.rst .low, .dly s.cfg.resetHoldMs, .rst .high, .dly s.cfg.resetHoldMs]
          ++ cmd s.cfg.opcodes.swReset ++ busyRounds s.cfg k ++ [.poll .idle]
          ++ cmd s.cfg.opcodes.driverControl ++ dat [BitVec.ofNat 8 (s.cfg.height - 1), 0x00, 0x00]
          ++ cmd s.cfg.opcodes.dataMode ++ dat [s.cfg.flagEntryXincYinc]
          ++ sff s.cfg
          ++ cmd s.cfg.opcodes.writeBorder ++ dat [s.cfg.flagBorder]
          ++ cmd s.cfg.opcodes.tempControl ++ dat [s.cfg.flagInternalTemp]
          ++ busyRounds s.cfg (n + 1)

/-! ## Whole-trace rules -/

/-- 30_encoding.md R101: the fault-free trace of a driver operation or a wire command, whatever level DC had
before, parses back into the wire commands the operation is made of, as their bytes say them. What an X byte and
a plane payload say (log entry 14), and a wire command run alone (log entry 7), are the model's. -/
def Obligations.TraceParsesBackIntoCommands : Prop :=
  ∀ (s t : State) (i : Instr), s.cfg.Valid → NoTransportFault s → IdleFor 2 s →
    i.isDriver = true ∨ i.isWire = true → exec i s = .next t → t.halted = false →
    ∃ new, t.events = s.events ++ new ∧
      parseTrace s.cfg s.pinDc new = some ((wireCommands s.cfg i).map (Instr.canonical s.cfg))

/-- 42_driver_ops.md R167, R168, 40_transport.md R123: after flattening, a clear's trace is that of an upload
of as many clear bytes. -/
def Obligations.ClearLooksLikeAnUploadOfTheClearByte : Prop :=
  ∀ s, DriverReady s → NoTransportFault s →
    ∃ cb ub cr ur,
      exec .clearBwFrame s = .next cb ∧
      exec (.updateBwFrame (List.replicate s.cfg.planeBytes s.cfg.bwClearByte)) s = .next ub ∧
      exec .clearRedFrame s = .next cr ∧
      exec (.updateRedFrame (List.replicate s.cfg.planeBytes s.cfg.redClearByte)) s = .next ur ∧
      flatten (cb.events.drop s.events.length) = flatten (ub.events.drop s.events.length) ∧
      flatten (cr.events.drop s.events.length) = flatten (ur.events.drop s.events.length)

/-- `CONSTRUCT` (42_driver_ops.md R170) from any state: it ends `Ok` with a ready driver, or `Err` with a
driver every operation of which is refused, or it waits for the panel with no answer given. -/
def Obligations.ConstructGivesAReadyDriverOrAnError : Prop :=
  ∀ (s : State) (u : PowerUp), s.cfg.Valid →
    ∃ t, construct u s = .next t ∧
      ((t.responses = [[0x00]] ∧ t.fsm = .ready ∧ t.curOp = none) ∨
      (∃ kind : ErrorKind, t.responses = [[kind.code]] ∧ t.fsm = .faulted ∧
        ∀ i, i.isDriver = true → exec i t = .refused .useAfterFault) ∨
      (t.responses = [] ∧ t.curOp = some .init))

/-! ## What nothing depends on -/

/-- 10_state.md R24 and R28: nothing reads `inv`, and nothing reads the levels on the pins: a step from a
state that differs in them alone does the same, and leaves a state that differs in them alone. -/
def Obligations.NothingReadsTheInversionFlagOrThePins : Prop :=
  ∀ (s : State) (v : Bool) (rst : Level) (dc : DcLevel), NoResetDue s →
    (∀ t, step s = .next t → ∃ rst' dc',
      step { s with inv := v, pinRst := rst, pinDc := dc } =
        .next { t with inv := v, pinRst := rst', pinDc := dc' }) ∧
    ∀ r, step s = .refused r → step { s with inv := v, pinRst := rst, pinDc := dc } = .refused r

/-- 42_driver_ops.md R165 and 20_memory.md R66: what a driver operation or a wire command does and sends
does not depend on the framebuffer; a plane reaches the panel only as an upload's operand. That a wire command
can be run alone is the model's (log entry 7). -/
def Obligations.DriverDoesNotReadTheFramebuffer : Prop :=
  ∀ (s t : State) (i : Instr) (rot : Rotation) (black red : Memory),
    i.isDriver = true ∨ i.isWire = true → exec i s = .next t →
    exec i { s with rot := rot, black := black, red := red } =
      .next { t with rot := rot, black := black, red := red }
end

