-- ==== Sys2Proof/Laws/Bytes.lean ====
section
/-! SUPPORT. The bytes of 16-bit values and of X coordinates, and the codes read back. -/

namespace Sys2Proof

theorem lo_ofNat (n : Nat) : lo (BitVec.ofNat 16 n) = BitVec.ofNat 8 n := by
  apply BitVec.eq_of_toNat_eq
  simp [lo]

theorem hi_ofNat (n : Nat) : hi (BitVec.ofNat 16 n) = BitVec.ofNat 8 (n / 256) := by
  apply BitVec.eq_of_toNat_eq
  simp [hi, Nat.shiftRight_eq_div_pow]
  omega

theorem xByte_ofNat {n : Nat} (h : n < 65536) :
    xByte (BitVec.ofNat 16 n) = BitVec.ofNat 8 (n / 8) := by
  apply BitVec.eq_of_toNat_eq
  simp [xByte, Nat.shiftRight_eq_div_pow, Nat.mod_eq_of_lt h]

/-- The two bytes of a 16-bit value give it back (20_memory.md R53). -/
@[simp] theorem u16_lo_hi (v : U16) : u16 (lo v) (hi v) = v := by
  apply BitVec.eq_of_getLsbD_eq
  intro i hi'
  simp only [u16, lo, hi, BitVec.getLsbD_append, BitVec.getLsbD_extractLsb']
  split
  · simp_all
  · have : 8 + (i - 8) = i := by omega
    simp [this]
    omega

@[simp] theorem lo_u16 (l h : Byte) : lo (u16 l h) = l := by
  apply BitVec.eq_of_getLsbD_eq
  intro i hi'
  rw [lo, u16, BitVec.getLsbD_extractLsb', BitVec.getLsbD_append]
  simp [hi']

@[simp] theorem hi_u16 (l h : Byte) : hi (u16 l h) = h := by
  apply BitVec.eq_of_getLsbD_eq
  intro i hi'
  rw [hi, u16, BitVec.getLsbD_extractLsb', BitVec.getLsbD_append]
  simp [hi']

/-- A wire X byte is the byte of the coordinate it is read as (30_encoding.md R85). -/
@[simp] theorem xByte_xOfByte (b : Byte) : xByte (xOfByte b) = b := by
  apply BitVec.eq_of_toNat_eq
  have := b.isLt
  simp [xByte, xOfByte, Nat.shiftRight_eq_div_pow, Nat.shiftLeft_eq]
  omega

/-- A wire X byte drops the low three bits of its coordinate (20_memory.md R56). -/
theorem toNat_xOfByte_xByte {x : U16} (h : x.toNat < 2048) :
    (xOfByte (xByte x)).toNat = x.toNat - x.toNat % 8 := by
  simp [xByte, xOfByte, Nat.shiftRight_eq_div_pow, Nat.shiftLeft_eq]
  omega

theorem toNat_xOfByte_lt (b : Byte) : (xOfByte b).toNat < 2048 := by
  have := b.isLt
  simp [xOfByte, Nat.shiftLeft_eq]
  omega

@[simp] theorem decodeColor_code (color : Color) : decodeColor color.code = some color := by
  cases color <;> decide

@[simp] theorem decodeRotation_code (r : Rotation) : decodeRotation r.code = some r := by
  cases r <;> decide

@[simp] theorem decodeSelector_selector (op : HostOp) : decodeSelector op.selector = some op := by
  cases op <;> decide

/-- A byte that reads as a colour is that colour's code. -/
theorem decodeColor_eq_some {b : Byte} {color : Color} (h : decodeColor b = some color) :
    color.code = b := by
  simpa using List.find?_some h

/-- A byte that reads as a rotation is that rotation's code. -/
theorem decodeRotation_eq_some {b : Byte} {r : Rotation} (h : decodeRotation b = some r) :
    r.code = b := by
  simpa using List.find?_some h

/-- A byte that reads as a selector is that operation's selector. -/
theorem decodeSelector_eq_some {b : Byte} {op : HostOp} (h : decodeSelector b = some op) :
    op.selector = b := by
  simpa using List.find?_some h

/-- A byte that reads as an opcode is that command's opcode. -/
theorem decodeOpcode_eq_some {c : Config} {b : Byte} {op : WireOp}
    (h : decodeOpcode c b = some op) : op.opcode c = b := by
  simpa using List.find?_some h

/-- With pairwise distinct opcodes (30_encoding.md R83) a command's opcode reads as that command. -/
theorem decodeOpcode_opcode {c : Config} (h : c.opcodes.toList.Nodup) (op : WireOp) :
    decodeOpcode c (op.opcode c) = some op := by
  simp only [Opcodes.toList, List.nodup_cons, List.mem_cons, List.not_mem_nil, or_false,
    not_or] at h
  cases op <;> simp_all [decodeOpcode, WireOp.all, WireOp.opcode, List.find?]

/-- A short buffer's length survives its 16-bit field (30_encoding.md R92). -/
theorem toNat_length_field {buffer : List Byte} (h : buffer.length < 65536) :
    (BitVec.ofNat 16 buffer.length).toNat = buffer.length := by
  simp [Nat.mod_eq_of_lt h]

end Sys2Proof
end

