-- ==== Sys2Proof/Laws/State.lean ====
section
/-! SUPPORT. What each update of the state does to each field: one lemma for a field and an update. -/

namespace Sys2Proof.Machine

/-! ## `State.did` -/

@[simp] theorem State.did_cfg (s : State) (e : Event) :
    (s.did e).cfg = s.cfg := rfl
@[simp] theorem State.did_fsm (s : State) (e : Event) :
    (s.did e).fsm = s.fsm := rfl
@[simp] theorem State.did_halted (s : State) (e : Event) :
    (s.did e).halted = s.halted := rfl
@[simp] theorem State.did_rot (s : State) (e : Event) :
    (s.did e).rot = s.rot := rfl
@[simp] theorem State.did_inv (s : State) (e : Event) :
    (s.did e).inv = s.inv := rfl
@[simp] theorem State.did_black (s : State) (e : Event) :
    (s.did e).black = s.black := rfl
@[simp] theorem State.did_red (s : State) (e : Event) :
    (s.did e).red = s.red := rfl
@[simp] theorem State.did_pinRst (s : State) (e : Event) :
    (s.did e).pinRst = s.pinRst := rfl
@[simp] theorem State.did_pinDc (s : State) (e : Event) :
    (s.did e).pinDc = s.pinDc := rfl
@[simp] theorem State.did_curOp (s : State) (e : Event) :
    (s.did e).curOp = s.curOp := rfl
@[simp] theorem State.did_useq (s : State) (e : Event) :
    (s.did e).useq = s.useq + 1 := rfl
@[simp] theorem State.did_trace (s : State) (e : Event) :
    (s.did e).trace = e :: s.trace := rfl
@[simp] theorem State.did_responses (s : State) (e : Event) :
    (s.did e).responses = s.responses := rfl
@[simp] theorem State.did_requests (s : State) (e : Event) :
    (s.did e).requests = s.requests := rfl
@[simp] theorem State.did_wireSlot (s : State) (e : Event) :
    (s.did e).wireSlot = s.wireSlot := rfl
@[simp] theorem State.did_portFeed (s : State) (e : Event) :
    (s.did e).portFeed = s.portFeed := rfl
@[simp] theorem State.did_busyFeed (s : State) (e : Event) :
    (s.did e).busyFeed = s.busyFeed := rfl
@[simp] theorem State.did_resets (s : State) (e : Event) :
    (s.did e).resets = s.resets := rfl

/-! ## `State.failed` -/

@[simp] theorem State.failed_cfg (s : State) (e : Event) :
    (s.failed e).cfg = s.cfg := rfl
@[simp] theorem State.failed_fsm (s : State) (e : Event) :
    (s.failed e).fsm = s.fsm := rfl
@[simp] theorem State.failed_halted (s : State) (e : Event) :
    (s.failed e).halted = s.halted := rfl
@[simp] theorem State.failed_rot (s : State) (e : Event) :
    (s.failed e).rot = s.rot := rfl
@[simp] theorem State.failed_inv (s : State) (e : Event) :
    (s.failed e).inv = s.inv := rfl
@[simp] theorem State.failed_black (s : State) (e : Event) :
    (s.failed e).black = s.black := rfl
@[simp] theorem State.failed_red (s : State) (e : Event) :
    (s.failed e).red = s.red := rfl
@[simp] theorem State.failed_pinRst (s : State) (e : Event) :
    (s.failed e).pinRst = s.pinRst := rfl
@[simp] theorem State.failed_pinDc (s : State) (e : Event) :
    (s.failed e).pinDc = s.pinDc := rfl
@[simp] theorem State.failed_curOp (s : State) (e : Event) :
    (s.failed e).curOp = s.curOp := rfl
@[simp] theorem State.failed_useq (s : State) (e : Event) :
    (s.failed e).useq = s.useq := rfl
@[simp] theorem State.failed_trace (s : State) (e : Event) :
    (s.failed e).trace = e :: s.trace := rfl
@[simp] theorem State.failed_responses (s : State) (e : Event) :
    (s.failed e).responses = s.responses := rfl
@[simp] theorem State.failed_requests (s : State) (e : Event) :
    (s.failed e).requests = s.requests := rfl
@[simp] theorem State.failed_wireSlot (s : State) (e : Event) :
    (s.failed e).wireSlot = s.wireSlot := rfl
@[simp] theorem State.failed_portFeed (s : State) (e : Event) :
    (s.failed e).portFeed = s.portFeed := rfl
@[simp] theorem State.failed_busyFeed (s : State) (e : Event) :
    (s.failed e).busyFeed = s.busyFeed := rfl
@[simp] theorem State.failed_resets (s : State) (e : Event) :
    (s.failed e).resets = s.resets := rfl

/-! ## `State.answered` -/

@[simp] theorem State.answered_cfg (s : State) :
    (s.answered).cfg = s.cfg := rfl
@[simp] theorem State.answered_fsm (s : State) :
    (s.answered).fsm = s.fsm := rfl
@[simp] theorem State.answered_halted (s : State) :
    (s.answered).halted = s.halted := rfl
@[simp] theorem State.answered_rot (s : State) :
    (s.answered).rot = s.rot := rfl
@[simp] theorem State.answered_inv (s : State) :
    (s.answered).inv = s.inv := rfl
@[simp] theorem State.answered_black (s : State) :
    (s.answered).black = s.black := rfl
@[simp] theorem State.answered_red (s : State) :
    (s.answered).red = s.red := rfl
@[simp] theorem State.answered_pinRst (s : State) :
    (s.answered).pinRst = s.pinRst := rfl
@[simp] theorem State.answered_pinDc (s : State) :
    (s.answered).pinDc = s.pinDc := rfl
@[simp] theorem State.answered_curOp (s : State) :
    (s.answered).curOp = s.curOp := rfl
@[simp] theorem State.answered_useq (s : State) :
    (s.answered).useq = s.useq := rfl
@[simp] theorem State.answered_trace (s : State) :
    (s.answered).trace = s.trace := rfl
@[simp] theorem State.answered_responses (s : State) :
    (s.answered).responses = s.responses := rfl
@[simp] theorem State.answered_requests (s : State) :
    (s.answered).requests = s.requests := rfl
@[simp] theorem State.answered_wireSlot (s : State) :
    (s.answered).wireSlot = s.wireSlot := rfl
@[simp] theorem State.answered_portFeed (s : State) :
    (s.answered).portFeed = s.portFeed.drop 1 := rfl
@[simp] theorem State.answered_busyFeed (s : State) :
    (s.answered).busyFeed = s.busyFeed := rfl
@[simp] theorem State.answered_resets (s : State) :
    (s.answered).resets = s.resets := rfl

/-! ## `State.sampled` -/

@[simp] theorem State.sampled_cfg (s : State) :
    (s.sampled).cfg = s.cfg := rfl
@[simp] theorem State.sampled_fsm (s : State) :
    (s.sampled).fsm = s.fsm := rfl
@[simp] theorem State.sampled_halted (s : State) :
    (s.sampled).halted = s.halted := rfl
@[simp] theorem State.sampled_rot (s : State) :
    (s.sampled).rot = s.rot := rfl
@[simp] theorem State.sampled_inv (s : State) :
    (s.sampled).inv = s.inv := rfl
@[simp] theorem State.sampled_black (s : State) :
    (s.sampled).black = s.black := rfl
@[simp] theorem State.sampled_red (s : State) :
    (s.sampled).red = s.red := rfl
@[simp] theorem State.sampled_pinRst (s : State) :
    (s.sampled).pinRst = s.pinRst := rfl
@[simp] theorem State.sampled_pinDc (s : State) :
    (s.sampled).pinDc = s.pinDc := rfl
@[simp] theorem State.sampled_curOp (s : State) :
    (s.sampled).curOp = s.curOp := rfl
@[simp] theorem State.sampled_useq (s : State) :
    (s.sampled).useq = s.useq := rfl
@[simp] theorem State.sampled_trace (s : State) :
    (s.sampled).trace = s.trace := rfl
@[simp] theorem State.sampled_responses (s : State) :
    (s.sampled).responses = s.responses := rfl
@[simp] theorem State.sampled_requests (s : State) :
    (s.sampled).requests = s.requests := rfl
@[simp] theorem State.sampled_wireSlot (s : State) :
    (s.sampled).wireSlot = s.wireSlot := rfl
@[simp] theorem State.sampled_portFeed (s : State) :
    (s.sampled).portFeed = s.portFeed := rfl
@[simp] theorem State.sampled_busyFeed (s : State) :
    (s.sampled).busyFeed = s.busyFeed.drop 1 := rfl
@[simp] theorem State.sampled_resets (s : State) :
    (s.sampled).resets = s.resets := rfl

/-! ## `State.ended` -/

@[simp] theorem State.ended_cfg (s : State) :
    (s.ended).cfg = s.cfg := rfl
@[simp] theorem State.ended_fsm (s : State) :
    (s.ended).fsm = s.fsm := rfl
@[simp] theorem State.ended_halted (s : State) :
    (s.ended).halted = s.halted := rfl
@[simp] theorem State.ended_rot (s : State) :
    (s.ended).rot = s.rot := rfl
@[simp] theorem State.ended_inv (s : State) :
    (s.ended).inv = s.inv := rfl
@[simp] theorem State.ended_black (s : State) :
    (s.ended).black = s.black := rfl
@[simp] theorem State.ended_red (s : State) :
    (s.ended).red = s.red := rfl
@[simp] theorem State.ended_pinRst (s : State) :
    (s.ended).pinRst = s.pinRst := rfl
@[simp] theorem State.ended_pinDc (s : State) :
    (s.ended).pinDc = s.pinDc := rfl
@[simp] theorem State.ended_curOp (s : State) :
    (s.ended).curOp = none := rfl
@[simp] theorem State.ended_useq (s : State) :
    (s.ended).useq = 0 := rfl
@[simp] theorem State.ended_trace (s : State) :
    (s.ended).trace = s.trace := rfl
@[simp] theorem State.ended_responses (s : State) :
    (s.ended).responses = s.responses := rfl
@[simp] theorem State.ended_requests (s : State) :
    (s.ended).requests = s.requests := rfl
@[simp] theorem State.ended_wireSlot (s : State) :
    (s.ended).wireSlot = s.wireSlot := rfl
@[simp] theorem State.ended_portFeed (s : State) :
    (s.ended).portFeed = s.portFeed := rfl
@[simp] theorem State.ended_busyFeed (s : State) :
    (s.ended).busyFeed = s.busyFeed := rfl
@[simp] theorem State.ended_resets (s : State) :
    (s.ended).resets = s.resets := rfl

/-! ## `State.started` -/

@[simp] theorem State.started_cfg (s : State) (i : Instr) :
    (s.started i).cfg = s.cfg := rfl
@[simp] theorem State.started_fsm (s : State) (i : Instr) :
    (s.started i).fsm = s.fsm := rfl
@[simp] theorem State.started_halted (s : State) (i : Instr) :
    (s.started i).halted = s.halted := rfl
@[simp] theorem State.started_rot (s : State) (i : Instr) :
    (s.started i).rot = s.rot := rfl
@[simp] theorem State.started_inv (s : State) (i : Instr) :
    (s.started i).inv = s.inv := rfl
@[simp] theorem State.started_black (s : State) (i : Instr) :
    (s.started i).black = s.black := rfl
@[simp] theorem State.started_red (s : State) (i : Instr) :
    (s.started i).red = s.red := rfl
@[simp] theorem State.started_pinRst (s : State) (i : Instr) :
    (s.started i).pinRst = s.pinRst := rfl
@[simp] theorem State.started_pinDc (s : State) (i : Instr) :
    (s.started i).pinDc = s.pinDc := rfl
@[simp] theorem State.started_curOp (s : State) (i : Instr) :
    (s.started i).curOp = some i := rfl
@[simp] theorem State.started_useq (s : State) (i : Instr) :
    (s.started i).useq = 0 := rfl
@[simp] theorem State.started_trace (s : State) (i : Instr) :
    (s.started i).trace = s.trace := rfl
@[simp] theorem State.started_responses (s : State) (i : Instr) :
    (s.started i).responses = s.responses := rfl
@[simp] theorem State.started_requests (s : State) (i : Instr) :
    (s.started i).requests = s.requests := rfl
@[simp] theorem State.started_wireSlot (s : State) (i : Instr) :
    (s.started i).wireSlot = s.wireSlot := rfl
@[simp] theorem State.started_portFeed (s : State) (i : Instr) :
    (s.started i).portFeed = s.portFeed := rfl
@[simp] theorem State.started_busyFeed (s : State) (i : Instr) :
    (s.started i).busyFeed = s.busyFeed := rfl
@[simp] theorem State.started_resets (s : State) (i : Instr) :
    (s.started i).resets = s.resets := rfl

/-! ## `State.inside` -/

@[simp] theorem State.inside_cfg (s : State) (op : Instr) (n : Nat) :
    (s.inside op n).cfg = s.cfg := rfl
@[simp] theorem State.inside_fsm (s : State) (op : Instr) (n : Nat) :
    (s.inside op n).fsm = fsmBefore n (driverProcedure s.cfg op) .ready := rfl
@[simp] theorem State.inside_halted (s : State) (op : Instr) (n : Nat) :
    (s.inside op n).halted = s.halted := rfl
@[simp] theorem State.inside_rot (s : State) (op : Instr) (n : Nat) :
    (s.inside op n).rot = s.rot := rfl
@[simp] theorem State.inside_inv (s : State) (op : Instr) (n : Nat) :
    (s.inside op n).inv = s.inv := rfl
@[simp] theorem State.inside_black (s : State) (op : Instr) (n : Nat) :
    (s.inside op n).black = s.black := rfl
@[simp] theorem State.inside_red (s : State) (op : Instr) (n : Nat) :
    (s.inside op n).red = s.red := rfl
@[simp] theorem State.inside_pinRst (s : State) (op : Instr) (n : Nat) :
    (s.inside op n).pinRst = s.pinRst := rfl
@[simp] theorem State.inside_pinDc (s : State) (op : Instr) (n : Nat) :
    (s.inside op n).pinDc = s.pinDc := rfl
@[simp] theorem State.inside_curOp (s : State) (op : Instr) (n : Nat) :
    (s.inside op n).curOp = some op := rfl
@[simp] theorem State.inside_useq (s : State) (op : Instr) (n : Nat) :
    (s.inside op n).useq = n := rfl
@[simp] theorem State.inside_trace (s : State) (op : Instr) (n : Nat) :
    (s.inside op n).trace = s.trace := rfl
@[simp] theorem State.inside_responses (s : State) (op : Instr) (n : Nat) :
    (s.inside op n).responses = s.responses := rfl
@[simp] theorem State.inside_requests (s : State) (op : Instr) (n : Nat) :
    (s.inside op n).requests = s.requests := rfl
@[simp] theorem State.inside_wireSlot (s : State) (op : Instr) (n : Nat) :
    (s.inside op n).wireSlot = s.wireSlot := rfl
@[simp] theorem State.inside_portFeed (s : State) (op : Instr) (n : Nat) :
    (s.inside op n).portFeed = s.portFeed := rfl
@[simp] theorem State.inside_busyFeed (s : State) (op : Instr) (n : Nat) :
    (s.inside op n).busyFeed = s.busyFeed := rfl
@[simp] theorem State.inside_resets (s : State) (op : Instr) (n : Nat) :
    (s.inside op n).resets = s.resets := rfl

/-! ## `respond` -/

@[simp] theorem respond_cfg (r : List Byte) (s : State) :
    (respond r s).cfg = s.cfg := rfl
@[simp] theorem respond_fsm (r : List Byte) (s : State) :
    (respond r s).fsm = s.fsm := rfl
@[simp] theorem respond_halted (r : List Byte) (s : State) :
    (respond r s).halted = s.halted := rfl
@[simp] theorem respond_rot (r : List Byte) (s : State) :
    (respond r s).rot = s.rot := rfl
@[simp] theorem respond_inv (r : List Byte) (s : State) :
    (respond r s).inv = s.inv := rfl
@[simp] theorem respond_black (r : List Byte) (s : State) :
    (respond r s).black = s.black := rfl
@[simp] theorem respond_red (r : List Byte) (s : State) :
    (respond r s).red = s.red := rfl
@[simp] theorem respond_pinRst (r : List Byte) (s : State) :
    (respond r s).pinRst = s.pinRst := rfl
@[simp] theorem respond_pinDc (r : List Byte) (s : State) :
    (respond r s).pinDc = s.pinDc := rfl
@[simp] theorem respond_curOp (r : List Byte) (s : State) :
    (respond r s).curOp = none := rfl
@[simp] theorem respond_useq (r : List Byte) (s : State) :
    (respond r s).useq = 0 := rfl
@[simp] theorem respond_trace (r : List Byte) (s : State) :
    (respond r s).trace = s.trace := rfl
@[simp] theorem respond_responses (r : List Byte) (s : State) :
    (respond r s).responses = s.responses ++ [okStatus :: r] := rfl
@[simp] theorem respond_requests (r : List Byte) (s : State) :
    (respond r s).requests = s.requests := rfl
@[simp] theorem respond_wireSlot (r : List Byte) (s : State) :
    (respond r s).wireSlot = s.wireSlot := rfl
@[simp] theorem respond_portFeed (r : List Byte) (s : State) :
    (respond r s).portFeed = s.portFeed := rfl
@[simp] theorem respond_busyFeed (r : List Byte) (s : State) :
    (respond r s).busyFeed = s.busyFeed := rfl
@[simp] theorem respond_resets (r : List Byte) (s : State) :
    (respond r s).resets = s.resets := rfl

/-! ## `takeErr` -/

@[simp] theorem takeErr_cfg (k : ErrorKind) (s : State) :
    (takeErr k s).cfg = s.cfg := rfl
@[simp] theorem takeErr_fsm (k : ErrorKind) (s : State) :
    (takeErr k s).fsm = .faulted := rfl
@[simp] theorem takeErr_halted (k : ErrorKind) (s : State) :
    (takeErr k s).halted = s.halted := rfl
@[simp] theorem takeErr_rot (k : ErrorKind) (s : State) :
    (takeErr k s).rot = s.rot := rfl
@[simp] theorem takeErr_inv (k : ErrorKind) (s : State) :
    (takeErr k s).inv = s.inv := rfl
@[simp] theorem takeErr_black (k : ErrorKind) (s : State) :
    (takeErr k s).black = s.black := rfl
@[simp] theorem takeErr_red (k : ErrorKind) (s : State) :
    (takeErr k s).red = s.red := rfl
@[simp] theorem takeErr_pinRst (k : ErrorKind) (s : State) :
    (takeErr k s).pinRst = s.pinRst := rfl
@[simp] theorem takeErr_pinDc (k : ErrorKind) (s : State) :
    (takeErr k s).pinDc = s.pinDc := rfl
@[simp] theorem takeErr_curOp (k : ErrorKind) (s : State) :
    (takeErr k s).curOp = none := rfl
@[simp] theorem takeErr_useq (k : ErrorKind) (s : State) :
    (takeErr k s).useq = 0 := rfl
@[simp] theorem takeErr_trace (k : ErrorKind) (s : State) :
    (takeErr k s).trace = s.trace := rfl
@[simp] theorem takeErr_responses (k : ErrorKind) (s : State) :
    (takeErr k s).responses = s.responses ++ [[k.code]] := rfl
@[simp] theorem takeErr_requests (k : ErrorKind) (s : State) :
    (takeErr k s).requests = s.requests := rfl
@[simp] theorem takeErr_wireSlot (k : ErrorKind) (s : State) :
    (takeErr k s).wireSlot = s.wireSlot := rfl
@[simp] theorem takeErr_portFeed (k : ErrorKind) (s : State) :
    (takeErr k s).portFeed = s.portFeed := rfl
@[simp] theorem takeErr_busyFeed (k : ErrorKind) (s : State) :
    (takeErr k s).busyFeed = s.busyFeed := rfl
@[simp] theorem takeErr_resets (k : ErrorKind) (s : State) :
    (takeErr k s).resets = s.resets := rfl

/-! ## `takeAbort` -/

@[simp] theorem takeAbort_cfg (s : State) :
    (takeAbort s).cfg = s.cfg := rfl
@[simp] theorem takeAbort_fsm (s : State) :
    (takeAbort s).fsm = s.fsm := rfl
@[simp] theorem takeAbort_halted (s : State) :
    (takeAbort s).halted = true := rfl
@[simp] theorem takeAbort_rot (s : State) :
    (takeAbort s).rot = s.rot := rfl
@[simp] theorem takeAbort_inv (s : State) :
    (takeAbort s).inv = s.inv := rfl
@[simp] theorem takeAbort_black (s : State) :
    (takeAbort s).black = s.black := rfl
@[simp] theorem takeAbort_red (s : State) :
    (takeAbort s).red = s.red := rfl
@[simp] theorem takeAbort_pinRst (s : State) :
    (takeAbort s).pinRst = s.pinRst := rfl
@[simp] theorem takeAbort_pinDc (s : State) :
    (takeAbort s).pinDc = s.pinDc := rfl
@[simp] theorem takeAbort_curOp (s : State) :
    (takeAbort s).curOp = none := rfl
@[simp] theorem takeAbort_useq (s : State) :
    (takeAbort s).useq = 0 := rfl
@[simp] theorem takeAbort_trace (s : State) :
    (takeAbort s).trace = s.trace := rfl
@[simp] theorem takeAbort_responses (s : State) :
    (takeAbort s).responses = s.responses := rfl
@[simp] theorem takeAbort_requests (s : State) :
    (takeAbort s).requests = s.requests := rfl
@[simp] theorem takeAbort_wireSlot (s : State) :
    (takeAbort s).wireSlot = s.wireSlot := rfl
@[simp] theorem takeAbort_portFeed (s : State) :
    (takeAbort s).portFeed = s.portFeed := rfl
@[simp] theorem takeAbort_busyFeed (s : State) :
    (takeAbort s).busyFeed = s.busyFeed := rfl
@[simp] theorem takeAbort_resets (s : State) :
    (takeAbort s).resets = s.resets := rfl

/-! ## `fbNew` -/

@[simp] theorem fbNew_cfg (u : PowerUp) (s : State) :
    (fbNew u s).cfg = s.cfg := rfl
@[simp] theorem fbNew_fsm (u : PowerUp) (s : State) :
    (fbNew u s).fsm = s.fsm := rfl
@[simp] theorem fbNew_halted (u : PowerUp) (s : State) :
    (fbNew u s).halted = s.halted := rfl
@[simp] theorem fbNew_rot (u : PowerUp) (s : State) :
    (fbNew u s).rot = u.rot := rfl
@[simp] theorem fbNew_inv (u : PowerUp) (s : State) :
    (fbNew u s).inv = u.inv := rfl
@[simp] theorem fbNew_black (u : PowerUp) (s : State) :
    (fbNew u s).black = u.black := rfl
@[simp] theorem fbNew_red (u : PowerUp) (s : State) :
    (fbNew u s).red = u.red := rfl
@[simp] theorem fbNew_pinRst (u : PowerUp) (s : State) :
    (fbNew u s).pinRst = s.pinRst := rfl
@[simp] theorem fbNew_pinDc (u : PowerUp) (s : State) :
    (fbNew u s).pinDc = s.pinDc := rfl
@[simp] theorem fbNew_curOp (u : PowerUp) (s : State) :
    (fbNew u s).curOp = s.curOp := rfl
@[simp] theorem fbNew_useq (u : PowerUp) (s : State) :
    (fbNew u s).useq = s.useq := rfl
@[simp] theorem fbNew_trace (u : PowerUp) (s : State) :
    (fbNew u s).trace = s.trace := rfl
@[simp] theorem fbNew_responses (u : PowerUp) (s : State) :
    (fbNew u s).responses = s.responses := rfl
@[simp] theorem fbNew_requests (u : PowerUp) (s : State) :
    (fbNew u s).requests = s.requests := rfl
@[simp] theorem fbNew_wireSlot (u : PowerUp) (s : State) :
    (fbNew u s).wireSlot = s.wireSlot := rfl
@[simp] theorem fbNew_portFeed (u : PowerUp) (s : State) :
    (fbNew u s).portFeed = s.portFeed := rfl
@[simp] theorem fbNew_busyFeed (u : PowerUp) (s : State) :
    (fbNew u s).busyFeed = s.busyFeed := rfl
@[simp] theorem fbNew_resets (u : PowerUp) (s : State) :
    (fbNew u s).resets = s.resets := rfl

/-! ## `blockReset` -/

@[simp] theorem blockReset_cfg (u : PowerUp) (s : State) :
    (blockReset u s).cfg = s.cfg := rfl
@[simp] theorem blockReset_fsm (u : PowerUp) (s : State) :
    (blockReset u s).fsm = .uninitialized := rfl
@[simp] theorem blockReset_halted (u : PowerUp) (s : State) :
    (blockReset u s).halted = false := rfl
@[simp] theorem blockReset_rot (u : PowerUp) (s : State) :
    (blockReset u s).rot = u.rot := rfl
@[simp] theorem blockReset_inv (u : PowerUp) (s : State) :
    (blockReset u s).inv = u.inv := rfl
@[simp] theorem blockReset_black (u : PowerUp) (s : State) :
    (blockReset u s).black = u.black := rfl
@[simp] theorem blockReset_red (u : PowerUp) (s : State) :
    (blockReset u s).red = u.red := rfl
@[simp] theorem blockReset_pinRst (u : PowerUp) (s : State) :
    (blockReset u s).pinRst = u.pinRst := rfl
@[simp] theorem blockReset_pinDc (u : PowerUp) (s : State) :
    (blockReset u s).pinDc = u.pinDc := rfl
@[simp] theorem blockReset_curOp (u : PowerUp) (s : State) :
    (blockReset u s).curOp = none := rfl
@[simp] theorem blockReset_useq (u : PowerUp) (s : State) :
    (blockReset u s).useq = 0 := rfl
@[simp] theorem blockReset_trace (u : PowerUp) (s : State) :
    (blockReset u s).trace = [] := rfl
@[simp] theorem blockReset_responses (u : PowerUp) (s : State) :
    (blockReset u s).responses = [] := rfl
@[simp] theorem blockReset_requests (u : PowerUp) (s : State) :
    (blockReset u s).requests = s.requests := rfl
@[simp] theorem blockReset_wireSlot (u : PowerUp) (s : State) :
    (blockReset u s).wireSlot = none := rfl
@[simp] theorem blockReset_portFeed (u : PowerUp) (s : State) :
    (blockReset u s).portFeed = s.portFeed := rfl
@[simp] theorem blockReset_busyFeed (u : PowerUp) (s : State) :
    (blockReset u s).busyFeed = s.busyFeed := rfl
@[simp] theorem blockReset_resets (u : PowerUp) (s : State) :
    (blockReset u s).resets = s.resets := rfl

/-! ## Answers of the environment -/

@[simp] theorem Feed.drop_zero {α : Type} (f : Feed α) : f.drop 0 = f := rfl

@[simp] theorem Feed.drop_rest {α : Type} (f : Feed α) (n : Nat) : (f.drop n).rest = f.rest := rfl

@[simp] theorem Feed.drop_queue {α : Type} (f : Feed α) (n : Nat) :
    (f.drop n).queue = f.queue.drop n := rfl

@[simp] theorem Feed.drop_drop {α : Type} (f : Feed α) (m n : Nat) :
    (f.drop m).drop n = f.drop (m + n) := by
  simp [Feed.drop]

/-- An answer of the environment is one of the queue, or the one it gives for ever. -/
theorem Feed.head_mem {α : Type} (f : Feed α) : f.head ∈ f.queue ∨ f.head = f.rest := by
  rcases f with ⟨queue, rest⟩
  cases queue <;> simp [Feed.head]

/-! ## The events of a state -/

@[simp] theorem State.did_events (s : State) (e : Event) : (s.did e).events = s.events ++ [e] := by
  simp [State.events]

@[simp] theorem State.failed_events (s : State) (e : Event) :
    (s.failed e).events = s.events ++ [e] := by
  simp [State.events]

/-! ## Where the next frame stands -/

@[simp] theorem nextFrame_withFrame_host (s : State) (bytes : List Byte) :
    nextFrame (s.withFrame (.host bytes)) = some (.host bytes, s.ended) := rfl

/-- The frame of a wire command stands where an operation in progress takes it from. -/
theorem nextFrame_withFrame_wire {s : State} {bytes : List Byte} {i op : Instr} {n : Nat}
    (hd : decodeWire s.cfg bytes = some i) (he : emittedBy i = some (op, n)) :
    nextFrame (s.withFrame (.wire bytes)) =
      some (.wire bytes, { s.inside op n with wireSlot := none }) := by
  simp [State.withFrame, hd, he, nextFrame]

end Sys2Proof.Machine
end

