-- ==== Sys2Proof/Laws/Run.lean ====
section
/-! SUPPORT. What a primitive and a run of actions can do, said once: the fields they never touch, how
runs compose, and the one result of a run that meets no failure and no busy panel. -/

namespace Sys2Proof.Machine

/-! ## The environment's answers -/

theorem Feed.head_of_all {α : Type} {f : Feed α} {a : α} (h : ∀ x ∈ f.queue, x = a)
    (hr : f.rest = a) : f.head = a := by
  rcases f.head_mem with hm | hm
  · exact h _ hm
  · rw [hm, hr]

theorem NoTransportFault.head {s : State} (h : NoTransportFault s) : s.portFeed.head = .ok :=
  Feed.head_of_all h.1 h.2

/-- `NoTransportFault` is a premise on the answers to come alone. -/
theorem NoTransportFault.of_drop {s t : State} (h : NoTransportFault s) (n : Nat)
    (ht : t.portFeed = s.portFeed.drop n) : NoTransportFault t :=
  ⟨fun a ha => h.1 a (List.mem_of_mem_drop (by simpa [ht] using ha)), by simpa [ht] using h.2⟩

theorem IdleFor.head {s : State} {n : Nat} (h : IdleFor (n + 1) s) : s.busyFeed.head = .idle :=
  h 0 (by omega)

/-- `IdleFor` is a premise on the samples to come alone. -/
theorem IdleFor.of_drop {s t : State} {n k : Nat} (h : IdleFor (n + k) s)
    (ht : t.busyFeed = s.busyFeed.drop n) : IdleFor k t := by
  intro j hj
  have := h (n + j) (by omega)
  simpa [ht] using this

theorem IdleFor.of_eq {s t : State} {n : Nat} (h : IdleFor n s) (ht : t.busyFeed = s.busyFeed) :
    IdleFor n t := by
  intro j hj
  rw [ht]
  exact h j hj

theorem IdleFor.mono {s : State} {m n : Nat} (h : IdleFor n s) (hmn : m ≤ n) : IdleFor m s :=
  fun k hk => h k (by omega)

@[simp] theorem cmd_length (b : Byte) : (cmd b).length = 2 := rfl
@[simp] theorem dat_length (bytes : List Byte) : (dat bytes).length = 2 := rfl

/-! ## What a primitive and a run leave alone -/

/-- `t` differs from `s` at most in `fsm`, the pins, the position, the trace and the answers taken. -/
structure PortOnly (s t : State) : Prop where
  cfg : t.cfg = s.cfg
  halted : t.halted = s.halted
  rot : t.rot = s.rot
  inv : t.inv = s.inv
  black : t.black = s.black
  red : t.red = s.red
  curOp : t.curOp = s.curOp
  responses : t.responses = s.responses
  requests : t.requests = s.requests
  wireSlot : t.wireSlot = s.wireSlot
  resets : t.resets = s.resets

theorem PortOnly.refl (s : State) : PortOnly s s := by constructor <;> rfl

theorem PortOnly.trans {s t u : State} (h : PortOnly s t) (k : PortOnly t u) : PortOnly s u where
  cfg := k.cfg.trans h.cfg
  halted := k.halted.trans h.halted
  rot := k.rot.trans h.rot
  inv := k.inv.trans h.inv
  black := k.black.trans h.black
  red := k.red.trans h.red
  curOp := k.curOp.trans h.curOp
  responses := k.responses.trans h.responses
  requests := k.requests.trans h.requests
  wireSlot := k.wireSlot.trans h.wireSlot
  resets := k.resets.trans h.resets

/-- The state a primitive ends with, if it ends with one. -/
def PrimEnd.state? : PrimEnd → Option State
  | .ok s => some s
  | .busy s => some s
  | .err _ s => some s
  | .bad _ => none

/-- The state a run ends with, if it ends with one. -/
def RunEnd.state? : RunEnd → Option State
  | .done s => some s
  | .waiting s => some s
  | .err _ s => some s
  | .abort s => some s
  | .bad _ => none

/-- A primitive leaves all but the port alone, and `fsm` too. -/
theorem perform_portOnly {p : Prim} {s t : State} (h : (perform p s).state? = some t) :
    PortOnly s t ∧ t.fsm = s.fsm := by
  cases p with
  | setRst level =>
    simp only [perform] at h
    split at h <;> cases h <;> exact ⟨by constructor <;> rfl, rfl⟩
  | setDc level =>
    simp only [perform] at h
    split at h <;> cases h <;> exact ⟨by constructor <;> rfl, rfl⟩
  | xfer bytes =>
    simp only [perform] at h
    split at h
    · cases h
    · split at h <;> cases h <;> exact ⟨by constructor <;> rfl, rfl⟩
  | delay ms => cases h; exact ⟨by constructor <;> rfl, rfl⟩
  | readBusy =>
    simp only [perform] at h
    split at h <;> cases h <;> exact ⟨by constructor <;> rfl, rfl⟩

/-- A run leaves all but the port and `fsm` alone, however it ends. -/
theorem run_portOnly {actions : List Action} {s t : State}
    (h : (run actions s).state? = some t) : PortOnly s t := by
  induction actions generalizing s with
  | nil => cases h; exact .refl _
  | cons a rest ih =>
    cases a with
    | fsm f => exact PortOnly.trans (by constructor <;> rfl) (ih h)
    | contract holds =>
      simp only [run] at h
      split at h
      · exact ih h
      · cases h; exact .refl _
    | prim p =>
      have hp := @perform_portOnly p s
      revert h
      simp only [run]
      cases hq : perform p s with
      | ok s' => intro h; exact (hp (by rw [hq]; rfl)).1.trans (ih h)
      | busy s' => intro h; cases h; exact (hp (by rw [hq]; rfl)).1
      | err k s' => intro h; cases h; exact (hp (by rw [hq]; rfl)).1
      | bad f => intro h; cases h

/-! ## One primitive at a time -/

theorem perform_setRst_ok {s : State} (h : s.portFeed.head = .ok) (level : Level) :
    perform (.setRst level) s = .ok ({ s with pinRst := level }.answered.did (.rst level)) := by
  simp [perform, h]

theorem perform_setRst_fail {s : State} {f : PortFault} (h : s.portFeed.head = .fail f)
    (level : Level) : perform (.setRst level) s =
      .err .rsError ({ s with pinRst := f.rstAfter }.answered.failed (.rstFail level)) := by
  simp [perform, h]

theorem perform_setDc_ok {s : State} (h : s.portFeed.head = .ok) (level : DcLevel) :
    perform (.setDc level) s = .ok ({ s with pinDc := level }.answered.did (.dc level)) := by
  simp [perform, h]

theorem perform_setDc_fail {s : State} {f : PortFault} (h : s.portFeed.head = .fail f)
    (level : DcLevel) : perform (.setDc level) s =
      .err .dcError ({ s with pinDc := f.dcAfter }.answered.failed (.dcFail level)) := by
  simp [perform, h]

theorem perform_xfer_ok {s : State} (h : s.portFeed.head = .ok) {bytes : List Byte}
    (hne : bytes ≠ []) : perform (.xfer bytes) s = .ok (s.answered.did (.xfer bytes)) := by
  simp [perform, h, hne]

theorem perform_xfer_fail {s : State} {f : PortFault} (h : s.portFeed.head = .fail f)
    {bytes : List Byte} (hne : bytes ≠ []) : perform (.xfer bytes) s =
      .err f.xfer.kind (s.answered.failed (.xferFail bytes f.xfer.kind)) := by
  simp [perform, h, hne]

theorem perform_readBusy_idle {s : State} (h : s.busyFeed.head = .idle) :
    perform .readBusy s = .ok (s.sampled.did (.poll .idle)) := by
  simp [perform, h]

theorem perform_readBusy_busy {s : State} (h : s.busyFeed.head = .busy) :
    perform .readBusy s =
      .busy { s.sampled with trace := .dly s.cfg.pollMs :: .poll .busy :: s.trace } := by
  simp [perform, h]

/-- A primitive that is done hands over to the rest of the procedure. -/
theorem run_prim_ok {p : Prim} {s s' : State} (h : perform p s = .ok s') (rest : List Action) :
    run (.prim p :: rest) s = run rest s' := by
  simp [run, h]

/-- A primitive that fails ends the run. -/
theorem run_prim_err {p : Prim} {s s' : State} {k : ErrorKind} (h : perform p s = .err k s')
    (rest : List Action) : run (.prim p :: rest) s = .err k s' := by
  simp [run, h]

/-- A sample that reads `BUSY` ends the run with the operation waiting. -/
theorem run_prim_busy {p : Prim} {s s' : State} (h : perform p s = .busy s')
    (rest : List Action) : run (.prim p :: rest) s = .waiting s' := by
  simp [run, h]

/-! ## How runs compose -/

/-- Goes on with the rest of a procedure when the first part is done. -/
def RunEnd.andThen : RunEnd → List Action → RunEnd
  | .done s, rest => run rest s
  | .waiting s, _ => .waiting s
  | .err k s, _ => .err k s
  | .abort s, _ => .abort s
  | .bad f, _ => .bad f

/-- Running two parts of a procedure is running the first and then the second. -/
theorem run_append (as bs : List Action) (s : State) :
    run (as ++ bs) s = (run as s).andThen bs := by
  induction as generalizing s with
  | nil => rfl
  | cons a rest ih =>
    cases a with
    | fsm f => exact ih _
    | contract holds =>
      simp only [List.cons_append, run]
      split
      · exact ih s
      · rfl
    | prim p =>
      simp only [List.cons_append, run]
      cases perform p s <;> simp [RunEnd.andThen, ih]

/-! ## A run that meets no failure -/

/-- The event a primitive leaves when the environment answers `ok` and `IDLE`. -/
def Prim.event : Prim → Event
  | .setRst level => .rst level
  | .setDc level => .dc level
  | .xfer bytes => .xfer bytes
  | .delay ms => .dly ms
  | .readBusy => .poll .idle

/-- The events of a list of actions when the environment answers `ok` and `IDLE`. -/
def okEvents : List Action → List Event
  | [] => []
  | .prim p :: rest => p.event :: okEvents rest
  | .fsm _ :: rest => okEvents rest
  | .contract _ :: rest => okEvents rest

/-- How many answers of the environment a list of actions takes. -/
def answerCount : List Action → Nat
  | [] => 0
  | .prim (.setRst _) :: rest => answerCount rest + 1
  | .prim (.setDc _) :: rest => answerCount rest + 1
  | .prim (.xfer _) :: rest => answerCount rest + 1
  | .prim (.delay _) :: rest => answerCount rest
  | .prim .readBusy :: rest => answerCount rest
  | .fsm _ :: rest => answerCount rest
  | .contract _ :: rest => answerCount rest

/-- How many samples of BUSY a list of actions takes when the panel is idle. -/
def sampleCount : List Action → Nat
  | [] => 0
  | .prim (.setRst _) :: rest => sampleCount rest
  | .prim (.setDc _) :: rest => sampleCount rest
  | .prim (.xfer _) :: rest => sampleCount rest
  | .prim (.delay _) :: rest => sampleCount rest
  | .prim .readBusy :: rest => sampleCount rest + 1
  | .fsm _ :: rest => sampleCount rest
  | .contract _ :: rest => sampleCount rest

/-- `fsm` after a list of actions. -/
def lastFsm : List Action → Fsm → Fsm
  | [], f => f
  | .fsm g :: rest, _ => lastFsm rest g
  | .prim _ :: rest, f => lastFsm rest f
  | .contract _ :: rest, f => lastFsm rest f

/-- The level of RST after a list of actions. -/
def lastRst : List Action → Level → Level
  | [], l => l
  | .prim (.setRst level) :: rest, _ => lastRst rest level
  | .prim (.setDc _) :: rest, l => lastRst rest l
  | .prim (.xfer _) :: rest, l => lastRst rest l
  | .prim (.delay _) :: rest, l => lastRst rest l
  | .prim .readBusy :: rest, l => lastRst rest l
  | .fsm _ :: rest, l => lastRst rest l
  | .contract _ :: rest, l => lastRst rest l

/-- The level of DC after a list of actions. -/
def lastDc : List Action → DcLevel → DcLevel
  | [], l => l
  | .prim (.setDc level) :: rest, _ => lastDc rest level
  | .prim (.setRst _) :: rest, l => lastDc rest l
  | .prim (.xfer _) :: rest, l => lastDc rest l
  | .prim (.delay _) :: rest, l => lastDc rest l
  | .prim .readBusy :: rest, l => lastDc rest l
  | .fsm _ :: rest, l => lastDc rest l
  | .contract _ :: rest, l => lastDc rest l

/-- Every contract check holds and every transfer has a byte. -/
def Sound : List Action → Prop
  | [] => True
  | .contract holds :: rest => holds = true ∧ Sound rest
  | .prim (.xfer bytes) :: rest => bytes ≠ [] ∧ Sound rest
  | .prim (.setRst _) :: rest => Sound rest
  | .prim (.setDc _) :: rest => Sound rest
  | .prim (.delay _) :: rest => Sound rest
  | .prim .readBusy :: rest => Sound rest
  | .fsm _ :: rest => Sound rest

/-- The state after a list of actions when the environment answers `ok` and `IDLE`. -/
def State.afterOk (s : State) (actions : List Action) : State :=
  { s with
    fsm := lastFsm actions s.fsm
    pinRst := lastRst actions s.pinRst
    pinDc := lastDc actions s.pinDc
    useq := s.useq + (okEvents actions).length
    trace := (okEvents actions).reverse ++ s.trace
    portFeed := s.portFeed.drop (answerCount actions)
    busyFeed := s.busyFeed.drop (sampleCount actions) }

/-- The one result of a run that meets no failure and an idle panel. -/
theorem run_ok {actions : List Action} {s : State} (hs : Sound actions) (hp : NoTransportFault s)
    (hb : IdleFor (sampleCount actions) s) : run actions s = .done (s.afterOk actions) := by
  induction actions generalizing s with
  | nil => rfl
  | cons a rest ih =>
    cases a with
    | fsm f => exact ih hs hp hb
    | contract holds =>
      obtain ⟨rfl, hs⟩ := hs
      exact ih hs hp hb
    | prim p =>
      cases p with
      | setRst level =>
        rw [run_prim_ok (perform_setRst_ok hp.head level) rest, ih hs]
        · simp [State.afterOk, okEvents, answerCount, sampleCount, lastFsm, lastRst, lastDc,
            Prim.event, State.did, State.answered, Nat.add_assoc, Nat.add_comm]
        · exact hp.of_drop 1 rfl
        · exact hb.of_eq rfl
      | setDc level =>
        rw [run_prim_ok (perform_setDc_ok hp.head level) rest, ih hs]
        · simp [State.afterOk, okEvents, answerCount, sampleCount, lastFsm, lastRst, lastDc,
            Prim.event, State.did, State.answered, Nat.add_assoc, Nat.add_comm]
        · exact hp.of_drop 1 rfl
        · exact hb.of_eq rfl
      | xfer bytes =>
        obtain ⟨hne, hs⟩ := hs
        rw [run_prim_ok (perform_xfer_ok hp.head hne) rest, ih hs]
        · simp [State.afterOk, okEvents, answerCount, sampleCount, lastFsm, lastRst, lastDc,
            Prim.event, State.did, State.answered, Nat.add_assoc, Nat.add_comm]
        · exact hp.of_drop 1 rfl
        · exact hb.of_eq rfl
      | delay ms =>
        rw [run_prim_ok (show perform (.delay ms) s = .ok (s.did (.dly ms)) from rfl) rest, ih hs]
        · simp [State.afterOk, okEvents, answerCount, sampleCount, lastFsm, lastRst, lastDc,
            Prim.event, State.did, Nat.add_assoc, Nat.add_comm]
        · exact hp.of_drop 0 rfl
        · exact hb.of_eq rfl
      | readBusy =>
        have hb' : IdleFor (1 + sampleCount rest) s := by
          simpa [sampleCount, Nat.add_comm] using hb
        rw [run_prim_ok (perform_readBusy_idle (hb'.mono (m := 1) (by omega)).head) rest, ih hs]
        · simp [State.afterOk, okEvents, answerCount, sampleCount, lastFsm, lastRst, lastDc,
            Prim.event, State.did, State.sampled, Nat.add_assoc, Nat.add_comm]
        · exact hp.of_drop 0 rfl
        · exact hb'.of_drop rfl

/-! ## The pieces of a fault-free run, over appended lists -/

@[simp] theorem okEvents_append (as bs : List Action) :
    okEvents (as ++ bs) = okEvents as ++ okEvents bs := by
  induction as with
  | nil => rfl
  | cons a rest ih => cases a <;> simp [okEvents, ih]

@[simp] theorem answerCount_append (as bs : List Action) :
    answerCount (as ++ bs) = answerCount as + answerCount bs := by
  induction as with
  | nil => simp [answerCount]
  | cons a rest ih =>
    cases a with
    | prim p => cases p <;> (simp [answerCount, ih]; try omega)
    | fsm f => simpa [answerCount] using ih
    | contract h => simpa [answerCount] using ih

@[simp] theorem sampleCount_append (as bs : List Action) :
    sampleCount (as ++ bs) = sampleCount as + sampleCount bs := by
  induction as with
  | nil => simp [sampleCount]
  | cons a rest ih =>
    cases a with
    | prim p => cases p <;> (simp [sampleCount, ih]; try omega)
    | fsm f => simpa [sampleCount] using ih
    | contract h => simpa [sampleCount] using ih

@[simp] theorem lastFsm_append (as bs : List Action) (f : Fsm) :
    lastFsm (as ++ bs) f = lastFsm bs (lastFsm as f) := by
  induction as generalizing f with
  | nil => rfl
  | cons a rest ih => cases a <;> exact ih _

@[simp] theorem lastRst_append (as bs : List Action) (l : Level) :
    lastRst (as ++ bs) l = lastRst bs (lastRst as l) := by
  induction as generalizing l with
  | nil => rfl
  | cons a rest ih =>
    cases a with
    | prim p => cases p <;> exact ih _
    | fsm f => exact ih _
    | contract h => exact ih _

@[simp] theorem lastDc_append (as bs : List Action) (l : DcLevel) :
    lastDc (as ++ bs) l = lastDc bs (lastDc as l) := by
  induction as generalizing l with
  | nil => rfl
  | cons a rest ih =>
    cases a with
    | prim p => cases p <;> exact ih _
    | fsm f => exact ih _
    | contract h => exact ih _

@[simp] theorem Sound_append (as bs : List Action) : Sound (as ++ bs) ↔ Sound as ∧ Sound bs := by
  induction as with
  | nil => simp [Sound]
  | cons a rest ih =>
    cases a with
    | prim p => cases p <;> simp [Sound, ih, and_assoc]
    | fsm f => simpa [Sound] using ih
    | contract h => simp [Sound, ih, and_assoc]

/-! ## The pieces of a fault-free run of repeated one-byte transfers -/

@[simp] theorem okEvents_replicate (n : Nat) (v : Byte) :
    okEvents (List.replicate n (.prim (.xfer [v]))) = List.replicate n (.xfer [v]) := by
  induction n with
  | zero => rfl
  | succ n ih => simp [List.replicate_succ, okEvents, Prim.event, ih]

@[simp] theorem answerCount_replicate (n : Nat) (v : Byte) :
    answerCount (List.replicate n (.prim (.xfer [v]))) = n := by
  induction n with
  | zero => rfl
  | succ n ih => simp [List.replicate_succ, answerCount, ih]

@[simp] theorem sampleCount_replicate (n : Nat) (v : Byte) :
    sampleCount (List.replicate n (.prim (.xfer [v]))) = 0 := by
  induction n with
  | zero => rfl
  | succ n ih => simp [List.replicate_succ, sampleCount, ih]

@[simp] theorem lastFsm_replicate (n : Nat) (v : Byte) (f : Fsm) :
    lastFsm (List.replicate n (.prim (.xfer [v]))) f = f := by
  induction n with
  | zero => rfl
  | succ n ih => simp [List.replicate_succ, lastFsm, ih]

@[simp] theorem lastRst_replicate (n : Nat) (v : Byte) (l : Level) :
    lastRst (List.replicate n (.prim (.xfer [v]))) l = l := by
  induction n with
  | zero => rfl
  | succ n ih => simp [List.replicate_succ, lastRst, ih]

@[simp] theorem lastDc_replicate (n : Nat) (v : Byte) (l : DcLevel) :
    lastDc (List.replicate n (.prim (.xfer [v]))) l = l := by
  induction n with
  | zero => rfl
  | succ n ih => simp [List.replicate_succ, lastDc, ih]

@[simp] theorem Sound_replicate (n : Nat) (v : Byte) :
    Sound (List.replicate n (.prim (.xfer [v]))) := by
  induction n with
  | zero => trivial
  | succ n ih => exact ⟨by simp, ih⟩

end Sys2Proof.Machine
end

