-- ==== Sys2Proof/Laws/RunCases.lean ====
section
/-! SUPPORT. The ends of a run, read backwards: what must have happened for a run to end as it did. -/

namespace Sys2Proof.Machine

/-! ## Primitives -/

/-- A primitive that is done did what it does on `ok` and `IDLE`. -/
theorem perform_ok_inv {p : Prim} {s t : State} (h : perform p s = .ok t) :
    t = s.afterOk [.prim p] := by
  cases p with
  | setRst level =>
    simp only [perform] at h
    split at h <;> cases h
    simp [State.afterOk, okEvents, answerCount, sampleCount, lastFsm, lastRst, lastDc, Prim.event,
      State.did, State.answered]
  | setDc level =>
    simp only [perform] at h
    split at h <;> cases h
    simp [State.afterOk, okEvents, answerCount, sampleCount, lastFsm, lastRst, lastDc, Prim.event,
      State.did, State.answered]
  | xfer bytes =>
    simp only [perform] at h
    split at h
    · cases h
    · split at h <;> cases h
      simp [State.afterOk, okEvents, answerCount, sampleCount, lastFsm, lastRst, lastDc, Prim.event,
        State.did, State.answered]
  | delay ms =>
    cases h
    simp [State.afterOk, okEvents, answerCount, sampleCount, lastFsm, lastRst, lastDc, Prim.event,
      State.did]
  | readBusy =>
    simp only [perform] at h
    split at h <;> cases h
    simp [State.afterOk, okEvents, answerCount, sampleCount, lastFsm, lastRst, lastDc, Prim.event,
      State.did, State.sampled]

/-- Only a sample of BUSY makes an operation wait, and what it leaves. -/
theorem perform_busy_inv {p : Prim} {s t : State} (h : perform p s = .busy t) :
    p = .readBusy ∧ s.busyFeed.head = .busy ∧
      t = { s.sampled with trace := .dly s.cfg.pollMs :: .poll .busy :: s.trace } := by
  cases p with
  | setRst level => simp only [perform] at h; split at h <;> cases h
  | setDc level => simp only [perform] at h; split at h <;> cases h
  | xfer bytes =>
    simp only [perform] at h
    split at h
    · cases h
    · split at h <;> cases h
  | delay ms => cases h
  | readBusy =>
    simp only [perform] at h
    split at h <;> cases h
    exact ⟨rfl, ‹_›, rfl⟩

/-- The failing event of a primitive, for a kind of error (00_scope.md R12). -/
def Prim.failEvent (p : Prim) (kind : ErrorKind) : Option Event :=
  match p with
  | .setRst level => some (.rstFail level)
  | .setDc level => some (.dcFail level)
  | .xfer bytes => some (.xferFail bytes kind)
  | .delay _ => none
  | .readBusy => none

/-- The kinds of error a primitive can raise (60_exceptions.md R221). -/
def Prim.raises (p : Prim) (kind : ErrorKind) : Prop :=
  match p with
  | .setRst _ => kind = .rsError
  | .setDc _ => kind = .dcError
  | .xfer _ => kind = .busWriteError ∨ kind = .csError
  | .delay _ => False
  | .readBusy => False

/-- What a failing primitive raises and leaves. -/
theorem perform_err_inv {p : Prim} {s t : State} {k : ErrorKind} (h : perform p s = .err k t) :
    p.raises k ∧ ∃ e, p.failEvent k = some e ∧ t.trace = e :: s.trace ∧ t.useq = s.useq ∧
      t.portFeed = s.portFeed.drop 1 ∧ t.busyFeed = s.busyFeed ∧ s.portFeed.head ≠ .ok := by
  cases p with
  | setRst level =>
    simp only [perform] at h
    split at h <;> cases h
    rename_i f hf
    exact ⟨rfl, _, rfl, rfl, rfl, rfl, rfl, by rw [hf]; simp⟩
  | setDc level =>
    simp only [perform] at h
    split at h <;> cases h
    rename_i f hf
    exact ⟨rfl, _, rfl, rfl, rfl, rfl, rfl, by rw [hf]; simp⟩
  | xfer bytes =>
    simp only [perform] at h
    split at h
    · cases h
    · split at h <;> cases h
      rename_i f hf
      refine ⟨?_, _, rfl, rfl, rfl, rfl, rfl, by rw [hf]; simp⟩
      show f.xfer.kind = _ ∨ f.xfer.kind = _
      cases f.xfer <;> simp [XferFault.kind]
  | delay ms => cases h
  | readBusy =>
    simp only [perform] at h
    split at h <;> cases h

/-- Only a transfer of no bytes has no meaning. -/
theorem perform_bad_inv {p : Prim} {s : State} {f : Fault} (h : perform p s = .bad f) :
    p = .xfer [] ∧ f = .emptyTransfer := by
  cases p with
  | setRst level => simp only [perform] at h; split at h <;> cases h
  | setDc level => simp only [perform] at h; split at h <;> cases h
  | xfer bytes =>
    simp only [perform] at h
    split at h
    · rename_i hb; cases h; exact ⟨by rw [hb], rfl⟩
    · split at h <;> cases h
  | delay ms => cases h
  | readBusy => simp only [perform] at h; split at h <;> cases h

/-! ## Runs -/

@[simp] theorem State.afterOk_nil (s : State) : s.afterOk [] = s := rfl

theorem State.afterOk_append (s : State) (as bs : List Action) :
    s.afterOk (as ++ bs) = (s.afterOk as).afterOk bs := by
  simp [State.afterOk, Nat.add_assoc]

theorem State.afterOk_cons (s : State) (a : Action) (rest : List Action) :
    s.afterOk (a :: rest) = (s.afterOk [a]).afterOk rest :=
  State.afterOk_append s [a] rest

/-- How a run ended says where: up to there everything was done, and there is what ended it. -/
inductive EndsAt (actions : List Action) (s : State) : RunEnd → Prop where
  | done : EndsAt actions s (.done (s.afterOk actions))
  | waiting (pre post : List Action) (h : actions = pre ++ .prim .readBusy :: post)
      (hb : (s.afterOk pre).busyFeed.head = .busy) :
      EndsAt actions s (.waiting { (s.afterOk pre).sampled with
        trace := .dly s.cfg.pollMs :: .poll .busy :: (s.afterOk pre).trace })
  | err (pre post : List Action) (p : Prim) (k : ErrorKind) (t : State)
      (h : actions = pre ++ .prim p :: post) (hp : perform p (s.afterOk pre) = .err k t) :
      EndsAt actions s (.err k t)
  | abort (pre post : List Action) (h : actions = pre ++ .contract false :: post) :
      EndsAt actions s (.abort (s.afterOk pre))
  | bad (pre post : List Action) (h : actions = pre ++ .prim (.xfer []) :: post) :
      EndsAt actions s (.bad .emptyTransfer)

/-- A step in front of a run that ends somewhere. -/
theorem EndsAt.cons {rest : List Action} {s : State} {a : Action} {e : RunEnd}
    (h : EndsAt rest (s.afterOk [a]) e) : EndsAt (a :: rest) s e := by
  cases h with
  | done => rw [← State.afterOk_cons]; exact .done
  | waiting pre post h hb =>
    rw [← State.afterOk_cons] at hb ⊢
    exact .waiting (a :: pre) post (by simp [h]) hb
  | err pre post p k t h hp =>
    rw [← State.afterOk_cons] at hp
    exact .err (a :: pre) post p k t (by simp [h]) hp
  | abort pre post h =>
    rw [← State.afterOk_cons]
    exact .abort (a :: pre) post (by simp [h])
  | bad pre post h => exact .bad (a :: pre) post (by simp [h])

/-- Everything a run can do. -/
theorem run_endsAt (actions : List Action) (s : State) : EndsAt actions s (run actions s) := by
  induction actions generalizing s with
  | nil => exact .done
  | cons a rest ih =>
    cases a with
    | fsm f => exact EndsAt.cons (ih _)
    | contract holds =>
      cases holds with
      | true => exact EndsAt.cons (ih _)
      | false => exact .abort [] rest rfl
    | prim p =>
      cases hp : perform p s with
      | ok t =>
        rw [run_prim_ok hp, perform_ok_inv hp]
        exact EndsAt.cons (ih _)
      | busy t =>
        obtain ⟨rfl, hb, rfl⟩ := perform_busy_inv hp
        rw [run_prim_busy hp]
        exact .waiting [] rest rfl hb
      | err k t =>
        rw [run_prim_err hp]
        exact .err [] rest p k t rfl hp
      | bad f =>
        obtain ⟨rfl, rfl⟩ := perform_bad_inv hp
        have : run (.prim (.xfer []) :: rest) s = .bad .emptyTransfer := by simp [run, hp]
        rw [this]
        exact .bad [] rest rfl

/-- A run of sound actions is over, waits, or failed: it neither aborts nor meets an empty transfer. -/
theorem Sound.of_append_cons {pre post : List Action} {a : Action}
    (h : Sound (pre ++ a :: post)) : Sound (a :: post) :=
  ((Sound_append pre (a :: post)).mp h).2

theorem run_sound {actions : List Action} {s : State} (h : Sound actions) :
    run actions s = .done (s.afterOk actions) ∨ (∃ t, run actions s = .waiting t) ∨
      ∃ k t, run actions s = .err k t := by
  have he := run_endsAt actions s
  generalize run actions s = e at he
  cases he with
  | done => exact .inl rfl
  | waiting pre post _ _ => exact .inr (.inl ⟨_, rfl⟩)
  | err pre post p k t _ _ => exact .inr (.inr ⟨k, t, rfl⟩)
  | abort pre post hab => exact absurd (hab ▸ h).of_append_cons.1 (by simp)
  | bad pre post hab => exact absurd rfl (hab ▸ h).of_append_cons.1

/-! ## A failing answer -/

/-- A run only adds events. -/
theorem run_events {actions : List Action} {s t : State} (h : (run actions s).state? = some t) :
    ∃ more, t.events = s.events ++ more := by
  have he := run_endsAt actions s
  revert he h
  generalize run actions s = e
  intro h he
  cases he with
  | done => cases h; exact ⟨okEvents actions, by simp [State.events, State.afterOk]⟩
  | waiting pre post _ _ =>
    cases h
    exact ⟨okEvents pre ++ [.poll .busy, .dly s.cfg.pollMs],
      by simp [State.events, State.afterOk]⟩
  | err pre post p k t _ hp =>
    cases h
    obtain ⟨-, e, -, htr, -⟩ := perform_err_inv hp
    exact ⟨okEvents pre ++ [e], by simp [State.events, htr, State.afterOk]⟩
  | abort pre post _ => cases h; exact ⟨okEvents pre, by simp [State.events, State.afterOk]⟩
  | bad => cases h

/-- A primitive's own event and what its failure makes of it: how `perform` ends on each answer. -/
theorem perform_answered {p : Prim} {s : State} (ha : p.event.answered = true) (hx : p ≠ .xfer []) :
    (s.portFeed.head = .ok → perform p s = .ok (s.afterOk [.prim p])) ∧
    ∀ f, s.portFeed.head = .fail f → ∃ kind failed u, perform p s = .err kind u ∧
      failsAs p.event kind = some failed ∧ (∀ bytes, p.event = .xfer bytes → kind = f.xfer.kind) ∧
      u.events = s.events ++ [failed] ∧ u.responses = s.responses := by
  cases p with
  | setRst level =>
    refine ⟨fun h => ?_, fun f h => ⟨_, _, _, perform_setRst_fail h level, rfl, by simp [Prim.event],
      by simp [State.events, State.failed, State.answered], rfl⟩⟩
    rw [perform_setRst_ok h, perform_ok_inv (perform_setRst_ok h level)]
  | setDc level =>
    refine ⟨fun h => ?_, fun f h => ⟨_, _, _, perform_setDc_fail h level, rfl, by simp [Prim.event],
      by simp [State.events, State.failed, State.answered], rfl⟩⟩
    rw [perform_setDc_ok h, perform_ok_inv (perform_setDc_ok h level)]
  | xfer bytes =>
    have hne : bytes ≠ [] := fun h => hx (by rw [h])
    refine ⟨fun h => ?_, fun f h => ⟨_, .xferFail bytes f.xfer.kind, _, perform_xfer_fail h hne,
      by cases f.xfer <;> rfl, fun _ _ => rfl,
      by simp [State.events, State.failed, State.answered], rfl⟩⟩
    rw [perform_xfer_ok h hne, perform_ok_inv (perform_xfer_ok h hne)]
  | delay ms => cases ha
  | readBusy => cases ha

/-- The answers one action takes. -/
theorem answerCount_prim (p : Prim) :
    answerCount [.prim p] = if p.event.answered then 1 else 0 := by cases p <;> rfl

/-- Where a run meets a failing answer: if a fault-free run of the same actions sends `before` and then the
event `e` of a primitive the environment answers, and the answers to `before` are `ok` and the next fails,
the run ends there. -/
theorem run_fails_at {actions : List Action} {s q r : State} {before after : List Event} {e : Event}
    {f : PortFault} (hq : NoTransportFault q) (hbq : IdleFor (sampleCount actions) q)
    (hb : IdleFor (sampleCount actions) s) (hr : (run actions q).state? = some r)
    (hev : r.events = q.events ++ before ++ e :: after) (ha : e.answered = true)
    (hok : OkFor (before.countP Event.answered) s)
    (hf : FailsAfter (before.countP Event.answered) f s) :
    ∃ kind failed u, run actions s = .err kind u ∧ failsAs e kind = some failed ∧
      (∀ bytes, e = .xfer bytes → kind = f.xfer.kind) ∧
      u.events = s.events ++ before ++ [failed] ∧ u.responses = s.responses := by
  induction actions generalizing s q before with
  | nil =>
    cases hr
    have := congrArg List.length hev
    simp at this
  | cons a rest ih =>
    cases a with
    | fsm g => exact ih (s := { s with fsm := g }) (q := { q with fsm := g }) hq hbq hb hr hev hok hf
    | contract b =>
      cases b with
      | true => exact ih hq hbq hb hr hev hok hf
      | false =>
        cases hr
        have := congrArg List.length hev
        simp at this
    | prim p =>
      have hx : p ≠ .xfer [] := by rintro rfl; simp [run, perform, RunEnd.state?] at hr
      have split1 : ∀ {v : State}, IdleFor (sampleCount (.prim p :: rest)) v →
          IdleFor (sampleCount [.prim p] + sampleCount rest) v := by
        intro v h
        rw [← sampleCount_append]; exact h
      have hpq : perform p q = .ok (q.afterOk [.prim p]) := by
        cases hap : p.event.answered with
        | true => exact (perform_answered hap hx).1 hq.head
        | false =>
          cases p with
          | setRst l => cases hap
          | setDc l => cases hap
          | xfer b => cases hap
          | delay ms => exact congrArg PrimEnd.ok (perform_ok_inv (p := .delay ms) rfl)
          | readBusy =>
            have := perform_readBusy_idle ((split1 hbq).mono (m := 1) (by simp [sampleCount])).head
            rw [this, perform_ok_inv this]
      have hqe : (q.afterOk [.prim p]).events = q.events ++ [p.event] := by
        simp [State.events, State.afterOk, okEvents]
      rw [run_prim_ok hpq] at hr
      obtain ⟨more, hm⟩ := run_events hr
      have hh : [p.event] ++ more = before ++ e :: after := by
        refine List.append_cancel_left (as := q.events) ?_
        rw [← List.append_assoc, ← hqe, ← hm, hev]; simp
      cases before with
      | nil =>
        simp only [List.nil_append, List.cons_append, List.cons.injEq] at hh
        rw [← hh.1] at ha ⊢
        obtain ⟨kind, failed, u, h1, h2, h3, h4, h5⟩ := (perform_answered (s := s) ha hx).2 f hf
        exact ⟨kind, failed, u, run_prim_err h1 _, h2, h3, by simpa using h4, h5⟩
      | cons b bs =>
        simp only [List.nil_append, List.cons_append, List.cons.injEq] at hh
        obtain ⟨rfl, hh⟩ := hh
        have hps : perform p s = .ok (s.afterOk [.prim p]) := by
          cases hap : p.event.answered with
          | true =>
            refine (perform_answered hap hx).1 ?_
            have := hok 0 (by rw [List.countP_cons, hap]; simp)
            simpa [Feed.drop] using this
          | false =>
            cases p with
            | setRst l => cases hap
            | setDc l => cases hap
            | xfer b => cases hap
            | delay ms => exact congrArg PrimEnd.ok (perform_ok_inv (p := .delay ms) rfl)
            | readBusy =>
              have := perform_readBusy_idle ((split1 hb).mono (m := 1) (by simp [sampleCount])).head
              rw [this, perform_ok_inv this]
        have hpf : (s.afterOk [.prim p]).portFeed = s.portFeed.drop (answerCount [.prim p]) := rfl
        have hcount : (p.event :: bs).countP Event.answered =
            answerCount [.prim p] + bs.countP Event.answered := by
          rw [List.countP_cons, answerCount_prim, Nat.add_comm]
        rw [run_prim_ok hps]
        obtain ⟨kind, failed, u, h1, h2, h3, h4, h5⟩ := ih (s := s.afterOk [.prim p])
          (q := q.afterOk [.prim p]) (before := bs) (hq.of_drop _ rfl) ((split1 hbq).of_drop rfl)
          ((split1 hb).of_drop rfl) hr (by rw [hev, hqe]; simp)
          (fun k hk => by
            have := hok (answerCount [.prim p] + k) (by rw [hcount]; omega)
            rw [hpf]; simpa [Feed.drop] using this)
          (by
            have := hf
            unfold FailsAfter at this ⊢
            rw [hcount] at this
            rw [hpf]; simpa [Feed.drop] using this)
        refine ⟨kind, failed, u, h1, h2, h3, ?_, h5⟩
        rw [h4]
        simp [State.events, State.afterOk, okEvents]

end Sys2Proof.Machine
end

