-- ==== Sys2Proof/Laws/Procedures.lean ====
section
/-! SUPPORT. The pieces of a fault-free run of each transport procedure, wire command and driver
procedure: its events, the answers and samples it takes, the levels and `fsm` it leaves. -/

namespace Sys2Proof.Machine

/-! ## `sendCommand` -/

@[simp] theorem okEvents_sendCommand (b : Byte) :
    okEvents (sendCommand b) = cmd b := by
  simp [sendCommand, cmd, okEvents, Prim.event]
@[simp] theorem answerCount_sendCommand (b : Byte) :
    answerCount (sendCommand b) = 2 := by
  simp [sendCommand, answerCount]
@[simp] theorem sampleCount_sendCommand (b : Byte) :
    sampleCount (sendCommand b) = 0 := by
  simp [sendCommand, sampleCount]
@[simp] theorem lastFsm_sendCommand (b : Byte) (f : Fsm) :
    lastFsm (sendCommand b) f = f := by
  simp [sendCommand, lastFsm]
@[simp] theorem lastRst_sendCommand (b : Byte) (l : Level) :
    lastRst (sendCommand b) l = l := by
  simp [sendCommand, lastRst]
@[simp] theorem lastDc_sendCommand (b : Byte) (d : DcLevel) :
    lastDc (sendCommand b) d = DcLevel.cmd := by
  simp [sendCommand, lastDc]
@[simp] theorem Sound_sendCommand (b : Byte) : Sound (sendCommand b) := by
  simp [sendCommand, Sound]

/-! ## `sendData` -/

@[simp] theorem okEvents_sendData (bytes : List Byte) :
    okEvents (sendData bytes) = dat bytes := by
  simp [sendData, dat, okEvents, Prim.event]
@[simp] theorem answerCount_sendData (bytes : List Byte) :
    answerCount (sendData bytes) = 2 := by
  simp [sendData, answerCount]
@[simp] theorem sampleCount_sendData (bytes : List Byte) :
    sampleCount (sendData bytes) = 0 := by
  simp [sendData, sampleCount]
@[simp] theorem lastFsm_sendData (bytes : List Byte) (f : Fsm) :
    lastFsm (sendData bytes) f = f := by
  simp [sendData, lastFsm]
@[simp] theorem lastRst_sendData (bytes : List Byte) (l : Level) :
    lastRst (sendData bytes) l = l := by
  simp [sendData, lastRst]
@[simp] theorem lastDc_sendData (bytes : List Byte) (d : DcLevel) :
    lastDc (sendData bytes) d = DcLevel.data := by
  simp [sendData, lastDc]
@[simp] theorem Sound_sendData (bytes : List Byte) : Sound (sendData bytes) ↔ bytes ≠ [] := by
  simp [sendData, Sound]

/-! ## `sendCommandWithData` -/

@[simp] theorem okEvents_sendCommandWithData (b : Byte) (bytes : List Byte) :
    okEvents (sendCommandWithData b bytes) = cmd b ++ dat bytes := by
  simp [sendCommandWithData]
@[simp] theorem answerCount_sendCommandWithData (b : Byte) (bytes : List Byte) :
    answerCount (sendCommandWithData b bytes) = 4 := by
  simp [sendCommandWithData]
@[simp] theorem sampleCount_sendCommandWithData (b : Byte) (bytes : List Byte) :
    sampleCount (sendCommandWithData b bytes) = 0 := by
  simp [sendCommandWithData]
@[simp] theorem lastFsm_sendCommandWithData (b : Byte) (bytes : List Byte) (f : Fsm) :
    lastFsm (sendCommandWithData b bytes) f = f := by
  simp [sendCommandWithData]
@[simp] theorem lastRst_sendCommandWithData (b : Byte) (bytes : List Byte) (l : Level) :
    lastRst (sendCommandWithData b bytes) l = l := by
  simp [sendCommandWithData]
@[simp] theorem lastDc_sendCommandWithData (b : Byte) (bytes : List Byte) (d : DcLevel) :
    lastDc (sendCommandWithData b bytes) d = DcLevel.data := by
  simp [sendCommandWithData]
@[simp] theorem Sound_sendCommandWithData (b : Byte) (bytes : List Byte) : Sound (sendCommandWithData b bytes) ↔ bytes ≠ [] := by
  simp [sendCommandWithData]

/-! ## `repeatByte` -/

@[simp] theorem okEvents_repeatByte (v : Byte) (n : Nat) :
    okEvents (repeatByte v n) = .dc .data :: List.replicate n (.xfer [v]) := by
  simp [repeatByte, okEvents, Prim.event]
@[simp] theorem answerCount_repeatByte (v : Byte) (n : Nat) :
    answerCount (repeatByte v n) = n + 1 := by
  simp [repeatByte, answerCount]
@[simp] theorem sampleCount_repeatByte (v : Byte) (n : Nat) :
    sampleCount (repeatByte v n) = 0 := by
  simp [repeatByte, sampleCount]
@[simp] theorem lastFsm_repeatByte (v : Byte) (n : Nat) (f : Fsm) :
    lastFsm (repeatByte v n) f = f := by
  simp [repeatByte, lastFsm]
@[simp] theorem lastRst_repeatByte (v : Byte) (n : Nat) (l : Level) :
    lastRst (repeatByte v n) l = l := by
  simp [repeatByte, lastRst]
@[simp] theorem lastDc_repeatByte (v : Byte) (n : Nat) (d : DcLevel) :
    lastDc (repeatByte v n) d = DcLevel.data := by
  simp [repeatByte, lastDc]
@[simp] theorem Sound_repeatByte (v : Byte) (n : Nat) : Sound (repeatByte v n) := by
  simp [repeatByte, Sound]

/-! ## `resetPulse` -/

@[simp] theorem okEvents_resetPulse (c : Config) :
    okEvents (resetPulse c) = [.rst .low, .dly c.resetHoldMs, .rst .high, .dly c.resetHoldMs] := by
  simp [resetPulse, okEvents, Prim.event]
@[simp] theorem answerCount_resetPulse (c : Config) :
    answerCount (resetPulse c) = 2 := by
  simp [resetPulse, answerCount]
@[simp] theorem sampleCount_resetPulse (c : Config) :
    sampleCount (resetPulse c) = 0 := by
  simp [resetPulse, sampleCount]
@[simp] theorem lastFsm_resetPulse (c : Config) (f : Fsm) :
    lastFsm (resetPulse c) f = f := by
  simp [resetPulse, lastFsm]
@[simp] theorem lastRst_resetPulse (c : Config) (l : Level) :
    lastRst (resetPulse c) l = Level.high := by
  simp [resetPulse, lastRst]
@[simp] theorem lastDc_resetPulse (c : Config) (d : DcLevel) :
    lastDc (resetPulse c) d = d := by
  simp [resetPulse, lastDc]
@[simp] theorem Sound_resetPulse (c : Config) : Sound (resetPulse c) := by
  simp [resetPulse, Sound]

/-! ## `waitUntilIdle` -/

@[simp] theorem okEvents_waitUntilIdle :
    okEvents waitUntilIdle = [.poll .idle] := by
  simp [waitUntilIdle, okEvents, Prim.event]
@[simp] theorem answerCount_waitUntilIdle :
    answerCount waitUntilIdle = 0 := by
  simp [waitUntilIdle, answerCount]
@[simp] theorem sampleCount_waitUntilIdle :
    sampleCount waitUntilIdle = 1 := by
  simp [waitUntilIdle, sampleCount]
@[simp] theorem lastFsm_waitUntilIdle (f : Fsm) :
    lastFsm waitUntilIdle f = f := by
  simp [waitUntilIdle, lastFsm]
@[simp] theorem lastRst_waitUntilIdle (l : Level) :
    lastRst waitUntilIdle l = l := by
  simp [waitUntilIdle, lastRst]
@[simp] theorem lastDc_waitUntilIdle (d : DcLevel) :
    lastDc waitUntilIdle d = d := by
  simp [waitUntilIdle, lastDc]
@[simp] theorem Sound_waitUntilIdle : Sound waitUntilIdle := by
  simp [waitUntilIdle, Sound]

/-! ## `emitSwReset` -/

@[simp] theorem okEvents_emitSwReset (c : Config) :
    okEvents (emitSwReset c) = cmd c.opcodes.swReset := by
  simp [emitSwReset]
@[simp] theorem answerCount_emitSwReset (c : Config) :
    answerCount (emitSwReset c) = 2 := by
  simp [emitSwReset]
@[simp] theorem sampleCount_emitSwReset (c : Config) :
    sampleCount (emitSwReset c) = 0 := by
  simp [emitSwReset]
@[simp] theorem lastFsm_emitSwReset (c : Config) (f : Fsm) :
    lastFsm (emitSwReset c) f = f := by
  simp [emitSwReset]
@[simp] theorem lastRst_emitSwReset (c : Config) (l : Level) :
    lastRst (emitSwReset c) l = l := by
  simp [emitSwReset]
@[simp] theorem lastDc_emitSwReset (c : Config) (d : DcLevel) :
    lastDc (emitSwReset c) d = DcLevel.cmd := by
  simp [emitSwReset]
@[simp] theorem Sound_emitSwReset (c : Config) : Sound (emitSwReset c) := by
  simp [emitSwReset]

/-! ## `emitDriverControl` -/

@[simp] theorem okEvents_emitDriverControl (c : Config) :
    okEvents (emitDriverControl c) = cmd c.opcodes.driverControl ++ dat [BitVec.ofNat 8 (c.height - 1), 0x00, 0x00] := by
  simp [emitDriverControl]
@[simp] theorem answerCount_emitDriverControl (c : Config) :
    answerCount (emitDriverControl c) = 4 := by
  simp [emitDriverControl]
@[simp] theorem sampleCount_emitDriverControl (c : Config) :
    sampleCount (emitDriverControl c) = 0 := by
  simp [emitDriverControl]
@[simp] theorem lastFsm_emitDriverControl (c : Config) (f : Fsm) :
    lastFsm (emitDriverControl c) f = f := by
  simp [emitDriverControl]
@[simp] theorem lastRst_emitDriverControl (c : Config) (l : Level) :
    lastRst (emitDriverControl c) l = l := by
  simp [emitDriverControl]
@[simp] theorem lastDc_emitDriverControl (c : Config) (d : DcLevel) :
    lastDc (emitDriverControl c) d = DcLevel.data := by
  simp [emitDriverControl]
@[simp] theorem Sound_emitDriverControl (c : Config) : Sound (emitDriverControl c) := by
  simp [emitDriverControl]

/-! ## `emitDataMode` -/

@[simp] theorem okEvents_emitDataMode (c : Config) :
    okEvents (emitDataMode c) = cmd c.opcodes.dataMode ++ dat [c.flagEntryXincYinc] := by
  simp [emitDataMode]
@[simp] theorem answerCount_emitDataMode (c : Config) :
    answerCount (emitDataMode c) = 4 := by
  simp [emitDataMode]
@[simp] theorem sampleCount_emitDataMode (c : Config) :
    sampleCount (emitDataMode c) = 0 := by
  simp [emitDataMode]
@[simp] theorem lastFsm_emitDataMode (c : Config) (f : Fsm) :
    lastFsm (emitDataMode c) f = f := by
  simp [emitDataMode]
@[simp] theorem lastRst_emitDataMode (c : Config) (l : Level) :
    lastRst (emitDataMode c) l = l := by
  simp [emitDataMode]
@[simp] theorem lastDc_emitDataMode (c : Config) (d : DcLevel) :
    lastDc (emitDataMode c) d = DcLevel.data := by
  simp [emitDataMode]
@[simp] theorem Sound_emitDataMode (c : Config) : Sound (emitDataMode c) := by
  simp [emitDataMode]

/-! ## `emitSetRamXPos` -/

@[simp] theorem okEvents_emitSetRamXPos (c : Config) (x0 x1 : U16) :
    okEvents (emitSetRamXPos c x0 x1) = cmd c.opcodes.setRamXPos ++ dat [xByte x0, xByte x1] := by
  simp [emitSetRamXPos]
@[simp] theorem answerCount_emitSetRamXPos (c : Config) (x0 x1 : U16) :
    answerCount (emitSetRamXPos c x0 x1) = 4 := by
  simp [emitSetRamXPos]
@[simp] theorem sampleCount_emitSetRamXPos (c : Config) (x0 x1 : U16) :
    sampleCount (emitSetRamXPos c x0 x1) = 0 := by
  simp [emitSetRamXPos]
@[simp] theorem lastFsm_emitSetRamXPos (c : Config) (x0 x1 : U16) (f : Fsm) :
    lastFsm (emitSetRamXPos c x0 x1) f = f := by
  simp [emitSetRamXPos]
@[simp] theorem lastRst_emitSetRamXPos (c : Config) (x0 x1 : U16) (l : Level) :
    lastRst (emitSetRamXPos c x0 x1) l = l := by
  simp [emitSetRamXPos]
@[simp] theorem lastDc_emitSetRamXPos (c : Config) (x0 x1 : U16) (d : DcLevel) :
    lastDc (emitSetRamXPos c x0 x1) d = DcLevel.data := by
  simp [emitSetRamXPos]
@[simp] theorem Sound_emitSetRamXPos (c : Config) (x0 x1 : U16) : Sound (emitSetRamXPos c x0 x1) := by
  simp [emitSetRamXPos]

/-! ## `emitSetRamYPos` -/

@[simp] theorem okEvents_emitSetRamYPos (c : Config) (y0 y1 : U16) :
    okEvents (emitSetRamYPos c y0 y1) = cmd c.opcodes.setRamYPos ++ dat [lo y0, hi y0, lo y1, hi y1] := by
  simp [emitSetRamYPos]
@[simp] theorem answerCount_emitSetRamYPos (c : Config) (y0 y1 : U16) :
    answerCount (emitSetRamYPos c y0 y1) = 4 := by
  simp [emitSetRamYPos]
@[simp] theorem sampleCount_emitSetRamYPos (c : Config) (y0 y1 : U16) :
    sampleCount (emitSetRamYPos c y0 y1) = 0 := by
  simp [emitSetRamYPos]
@[simp] theorem lastFsm_emitSetRamYPos (c : Config) (y0 y1 : U16) (f : Fsm) :
    lastFsm (emitSetRamYPos c y0 y1) f = f := by
  simp [emitSetRamYPos]
@[simp] theorem lastRst_emitSetRamYPos (c : Config) (y0 y1 : U16) (l : Level) :
    lastRst (emitSetRamYPos c y0 y1) l = l := by
  simp [emitSetRamYPos]
@[simp] theorem lastDc_emitSetRamYPos (c : Config) (y0 y1 : U16) (d : DcLevel) :
    lastDc (emitSetRamYPos c y0 y1) d = DcLevel.data := by
  simp [emitSetRamYPos]
@[simp] theorem Sound_emitSetRamYPos (c : Config) (y0 y1 : U16) : Sound (emitSetRamYPos c y0 y1) := by
  simp [emitSetRamYPos]

/-! ## `emitSetRamXCount` -/

@[simp] theorem okEvents_emitSetRamXCount (c : Config) (x : U16) :
    okEvents (emitSetRamXCount c x) = cmd c.opcodes.setRamXCount ++ dat [xByte x] := by
  simp [emitSetRamXCount]
@[simp] theorem answerCount_emitSetRamXCount (c : Config) (x : U16) :
    answerCount (emitSetRamXCount c x) = 4 := by
  simp [emitSetRamXCount]
@[simp] theorem sampleCount_emitSetRamXCount (c : Config) (x : U16) :
    sampleCount (emitSetRamXCount c x) = 0 := by
  simp [emitSetRamXCount]
@[simp] theorem lastFsm_emitSetRamXCount (c : Config) (x : U16) (f : Fsm) :
    lastFsm (emitSetRamXCount c x) f = f := by
  simp [emitSetRamXCount]
@[simp] theorem lastRst_emitSetRamXCount (c : Config) (x : U16) (l : Level) :
    lastRst (emitSetRamXCount c x) l = l := by
  simp [emitSetRamXCount]
@[simp] theorem lastDc_emitSetRamXCount (c : Config) (x : U16) (d : DcLevel) :
    lastDc (emitSetRamXCount c x) d = DcLevel.data := by
  simp [emitSetRamXCount]
@[simp] theorem Sound_emitSetRamXCount (c : Config) (x : U16) : Sound (emitSetRamXCount c x) := by
  simp [emitSetRamXCount]

/-! ## `emitSetRamYCount` -/

@[simp] theorem okEvents_emitSetRamYCount (c : Config) (y : U16) :
    okEvents (emitSetRamYCount c y) = cmd c.opcodes.setRamYCount ++ dat [lo y, hi y] := by
  simp [emitSetRamYCount]
@[simp] theorem answerCount_emitSetRamYCount (c : Config) (y : U16) :
    answerCount (emitSetRamYCount c y) = 4 := by
  simp [emitSetRamYCount]
@[simp] theorem sampleCount_emitSetRamYCount (c : Config) (y : U16) :
    sampleCount (emitSetRamYCount c y) = 0 := by
  simp [emitSetRamYCount]
@[simp] theorem lastFsm_emitSetRamYCount (c : Config) (y : U16) (f : Fsm) :
    lastFsm (emitSetRamYCount c y) f = f := by
  simp [emitSetRamYCount]
@[simp] theorem lastRst_emitSetRamYCount (c : Config) (y : U16) (l : Level) :
    lastRst (emitSetRamYCount c y) l = l := by
  simp [emitSetRamYCount]
@[simp] theorem lastDc_emitSetRamYCount (c : Config) (y : U16) (d : DcLevel) :
    lastDc (emitSetRamYCount c y) d = DcLevel.data := by
  simp [emitSetRamYCount]
@[simp] theorem Sound_emitSetRamYCount (c : Config) (y : U16) : Sound (emitSetRamYCount c y) := by
  simp [emitSetRamYCount]

/-! ## `emitWriteBorder` -/

@[simp] theorem okEvents_emitWriteBorder (c : Config) :
    okEvents (emitWriteBorder c) = cmd c.opcodes.writeBorder ++ dat [c.flagBorder] := by
  simp [emitWriteBorder]
@[simp] theorem answerCount_emitWriteBorder (c : Config) :
    answerCount (emitWriteBorder c) = 4 := by
  simp [emitWriteBorder]
@[simp] theorem sampleCount_emitWriteBorder (c : Config) :
    sampleCount (emitWriteBorder c) = 0 := by
  simp [emitWriteBorder]
@[simp] theorem lastFsm_emitWriteBorder (c : Config) (f : Fsm) :
    lastFsm (emitWriteBorder c) f = f := by
  simp [emitWriteBorder]
@[simp] theorem lastRst_emitWriteBorder (c : Config) (l : Level) :
    lastRst (emitWriteBorder c) l = l := by
  simp [emitWriteBorder]
@[simp] theorem lastDc_emitWriteBorder (c : Config) (d : DcLevel) :
    lastDc (emitWriteBorder c) d = DcLevel.data := by
  simp [emitWriteBorder]
@[simp] theorem Sound_emitWriteBorder (c : Config) : Sound (emitWriteBorder c) := by
  simp [emitWriteBorder]

/-! ## `emitTempControl` -/

@[simp] theorem okEvents_emitTempControl (c : Config) :
    okEvents (emitTempControl c) = cmd c.opcodes.tempControl ++ dat [c.flagInternalTemp] := by
  simp [emitTempControl]
@[simp] theorem answerCount_emitTempControl (c : Config) :
    answerCount (emitTempControl c) = 4 := by
  simp [emitTempControl]
@[simp] theorem sampleCount_emitTempControl (c : Config) :
    sampleCount (emitTempControl c) = 0 := by
  simp [emitTempControl]
@[simp] theorem lastFsm_emitTempControl (c : Config) (f : Fsm) :
    lastFsm (emitTempControl c) f = f := by
  simp [emitTempControl]
@[simp] theorem lastRst_emitTempControl (c : Config) (l : Level) :
    lastRst (emitTempControl c) l = l := by
  simp [emitTempControl]
@[simp] theorem lastDc_emitTempControl (c : Config) (d : DcLevel) :
    lastDc (emitTempControl c) d = DcLevel.data := by
  simp [emitTempControl]
@[simp] theorem Sound_emitTempControl (c : Config) : Sound (emitTempControl c) := by
  simp [emitTempControl]

/-! ## `emitDispCtrl2` -/

@[simp] theorem okEvents_emitDispCtrl2 (c : Config) :
    okEvents (emitDispCtrl2 c) = cmd c.opcodes.dispCtrl2 ++ dat [c.flagDisplayMode1] := by
  simp [emitDispCtrl2]
@[simp] theorem answerCount_emitDispCtrl2 (c : Config) :
    answerCount (emitDispCtrl2 c) = 4 := by
  simp [emitDispCtrl2]
@[simp] theorem sampleCount_emitDispCtrl2 (c : Config) :
    sampleCount (emitDispCtrl2 c) = 0 := by
  simp [emitDispCtrl2]
@[simp] theorem lastFsm_emitDispCtrl2 (c : Config) (f : Fsm) :
    lastFsm (emitDispCtrl2 c) f = f := by
  simp [emitDispCtrl2]
@[simp] theorem lastRst_emitDispCtrl2 (c : Config) (l : Level) :
    lastRst (emitDispCtrl2 c) l = l := by
  simp [emitDispCtrl2]
@[simp] theorem lastDc_emitDispCtrl2 (c : Config) (d : DcLevel) :
    lastDc (emitDispCtrl2 c) d = DcLevel.data := by
  simp [emitDispCtrl2]
@[simp] theorem Sound_emitDispCtrl2 (c : Config) : Sound (emitDispCtrl2 c) := by
  simp [emitDispCtrl2]

/-! ## `emitMasterActivate` -/

@[simp] theorem okEvents_emitMasterActivate (c : Config) :
    okEvents (emitMasterActivate c) = cmd c.opcodes.masterActivate := by
  simp [emitMasterActivate]
@[simp] theorem answerCount_emitMasterActivate (c : Config) :
    answerCount (emitMasterActivate c) = 2 := by
  simp [emitMasterActivate]
@[simp] theorem sampleCount_emitMasterActivate (c : Config) :
    sampleCount (emitMasterActivate c) = 0 := by
  simp [emitMasterActivate]
@[simp] theorem lastFsm_emitMasterActivate (c : Config) (f : Fsm) :
    lastFsm (emitMasterActivate c) f = f := by
  simp [emitMasterActivate]
@[simp] theorem lastRst_emitMasterActivate (c : Config) (l : Level) :
    lastRst (emitMasterActivate c) l = l := by
  simp [emitMasterActivate]
@[simp] theorem lastDc_emitMasterActivate (c : Config) (d : DcLevel) :
    lastDc (emitMasterActivate c) d = DcLevel.cmd := by
  simp [emitMasterActivate]
@[simp] theorem Sound_emitMasterActivate (c : Config) : Sound (emitMasterActivate c) := by
  simp [emitMasterActivate]

end Sys2Proof.Machine
end

