-- ==== Sys2Proof/Laws/Driver.lean ====
section
/-! SUPPORT. The plane writes and the driver procedures: the pieces of their fault-free runs; what an
admitted operation's outcome is, and everything an operation's outcome can be. -/

namespace Sys2Proof.Machine

/-! ## Plane writes -/

/-- The events of a plane write's data: one transfer of a buffer, or one for each byte of a fill. -/
def planeEvents (c : Config) (clearByte : Byte) : PlaneData → List Event
  | .buffer bytes => dat bytes
  | .clear => .dc .data :: List.replicate c.planeBytes (.xfer [clearByte])

/-- How many answers of the environment a plane write's data takes. -/
def planeAnswers (c : Config) : PlaneData → Nat
  | .buffer _ => 2
  | .clear => c.planeBytes + 1

@[simp] theorem okEvents_emitPlane (c : Config) (v : Byte) (d : PlaneData) :
    okEvents (emitPlane c v d) = planeEvents c v d := by
  cases d <;> simp [emitPlane, planeEvents]
@[simp] theorem answerCount_emitPlane (c : Config) (v : Byte) (d : PlaneData) :
    answerCount (emitPlane c v d) = planeAnswers c d := by
  cases d <;> simp [emitPlane, planeAnswers]
@[simp] theorem sampleCount_emitPlane (c : Config) (v : Byte) (d : PlaneData) :
    sampleCount (emitPlane c v d) = 0 := by
  cases d <;> simp [emitPlane]
@[simp] theorem lastFsm_emitPlane (c : Config) (v : Byte) (d : PlaneData) (f : Fsm) :
    lastFsm (emitPlane c v d) f = f := by
  cases d <;> simp [emitPlane]
@[simp] theorem lastRst_emitPlane (c : Config) (v : Byte) (d : PlaneData) (l : Level) :
    lastRst (emitPlane c v d) l = l := by
  cases d <;> simp [emitPlane]
@[simp] theorem lastDc_emitPlane (c : Config) (v : Byte) (d : PlaneData) (l : DcLevel) :
    lastDc (emitPlane c v d) l = .data := by
  cases d <;> simp [emitPlane]
/-- A buffer of the plane's length has a byte. -/
theorem Sound_emitPlane {c : Config} (hc : 0 < c.planeBytes) (v : Byte) {d : PlaneData}
    (h : d.wellFormed c = true) : Sound (emitPlane c v d) := by
  cases d with
  | buffer bytes =>
    have hl : bytes.length = c.planeBytes := by simpa [PlaneData.wellFormed] using h
    have : bytes ≠ [] := by rintro rfl; simp at hl; omega
    simpa [emitPlane] using this
  | clear => simp [emitPlane]

@[simp] theorem okEvents_emitWriteBwRam (c : Config) (d : PlaneData) :
    okEvents (emitWriteBwRam c d) =
      cmd c.opcodes.writeBwRam ++ planeEvents c c.bwClearByte d := by
  simp [emitWriteBwRam]
@[simp] theorem answerCount_emitWriteBwRam (c : Config) (d : PlaneData) :
    answerCount (emitWriteBwRam c d) = 2 + planeAnswers c d := by
  simp [emitWriteBwRam]
@[simp] theorem sampleCount_emitWriteBwRam (c : Config) (d : PlaneData) :
    sampleCount (emitWriteBwRam c d) = 0 := by
  simp [emitWriteBwRam]
@[simp] theorem lastFsm_emitWriteBwRam (c : Config) (d : PlaneData) (f : Fsm) :
    lastFsm (emitWriteBwRam c d) f = f := by
  simp [emitWriteBwRam]
@[simp] theorem lastRst_emitWriteBwRam (c : Config) (d : PlaneData) (l : Level) :
    lastRst (emitWriteBwRam c d) l = l := by
  simp [emitWriteBwRam]
@[simp] theorem lastDc_emitWriteBwRam (c : Config) (d : PlaneData) (l : DcLevel) :
    lastDc (emitWriteBwRam c d) l = .data := by
  simp [emitWriteBwRam]
theorem Sound_emitWriteBwRam {c : Config} (hc : 0 < c.planeBytes) {d : PlaneData}
    (h : d.wellFormed c = true) : Sound (emitWriteBwRam c d) := by
  simpa [emitWriteBwRam] using Sound_emitPlane hc c.bwClearByte h

@[simp] theorem okEvents_emitWriteRedRam (c : Config) (d : PlaneData) :
    okEvents (emitWriteRedRam c d) =
      cmd c.opcodes.writeRedRam ++ planeEvents c c.redClearByte d := by
  simp [emitWriteRedRam]
@[simp] theorem answerCount_emitWriteRedRam (c : Config) (d : PlaneData) :
    answerCount (emitWriteRedRam c d) = 2 + planeAnswers c d := by
  simp [emitWriteRedRam]
@[simp] theorem sampleCount_emitWriteRedRam (c : Config) (d : PlaneData) :
    sampleCount (emitWriteRedRam c d) = 0 := by
  simp [emitWriteRedRam]
@[simp] theorem lastFsm_emitWriteRedRam (c : Config) (d : PlaneData) (f : Fsm) :
    lastFsm (emitWriteRedRam c d) f = f := by
  simp [emitWriteRedRam]
@[simp] theorem lastRst_emitWriteRedRam (c : Config) (d : PlaneData) (l : Level) :
    lastRst (emitWriteRedRam c d) l = l := by
  simp [emitWriteRedRam]
@[simp] theorem lastDc_emitWriteRedRam (c : Config) (d : PlaneData) (l : DcLevel) :
    lastDc (emitWriteRedRam c d) l = .data := by
  simp [emitWriteRedRam]
theorem Sound_emitWriteRedRam {c : Config} (hc : 0 < c.planeBytes) {d : PlaneData}
    (h : d.wellFormed c = true) : Sound (emitWriteRedRam c d) := by
  simpa [emitWriteRedRam] using Sound_emitPlane hc c.redClearByte h

/-! ## Driver procedures -/

@[simp] theorem okEvents_setRamWindow (c : Config) (x0 y0 x1 y1 : U16) :
    okEvents (setRamWindow c x0 y0 x1 y1) =
      cmd c.opcodes.setRamXPos ++ dat [xByte x0, xByte x1]
        ++ (cmd c.opcodes.setRamYPos ++ dat [lo y0, hi y0, lo y1, hi y1]) := by
  simp [setRamWindow, okEvents]
@[simp] theorem answerCount_setRamWindow (c : Config) (x0 y0 x1 y1 : U16) :
    answerCount (setRamWindow c x0 y0 x1 y1) = 8 := by
  simp [setRamWindow, answerCount]
@[simp] theorem sampleCount_setRamWindow (c : Config) (x0 y0 x1 y1 : U16) :
    sampleCount (setRamWindow c x0 y0 x1 y1) = 0 := by
  simp [setRamWindow, sampleCount]
@[simp] theorem lastFsm_setRamWindow (c : Config) (x0 y0 x1 y1 : U16) (f : Fsm) :
    lastFsm (setRamWindow c x0 y0 x1 y1) f = f := by
  simp [setRamWindow, lastFsm]
@[simp] theorem lastRst_setRamWindow (c : Config) (x0 y0 x1 y1 : U16) (l : Level) :
    lastRst (setRamWindow c x0 y0 x1 y1) l = l := by
  simp [setRamWindow, lastRst]
@[simp] theorem lastDc_setRamWindow (c : Config) (x0 y0 x1 y1 : U16) (l : DcLevel) :
    lastDc (setRamWindow c x0 y0 x1 y1) l = .data := by
  simp [setRamWindow, lastDc]
@[simp] theorem Sound_setRamWindow (c : Config) (x0 y0 x1 y1 : U16) :
    Sound (setRamWindow c x0 y0 x1 y1) ↔ x0.toNat < x1.toNat ∧ y0.toNat < y1.toNat := by
  simp [setRamWindow, Sound]

@[simp] theorem okEvents_setRamCursor (c : Config) (x y : U16) :
    okEvents (setRamCursor c x y) =
      cmd c.opcodes.setRamXCount ++ dat [xByte x]
        ++ (cmd c.opcodes.setRamYCount ++ dat [lo y, hi y]) := by
  simp [setRamCursor]
@[simp] theorem answerCount_setRamCursor (c : Config) (x y : U16) :
    answerCount (setRamCursor c x y) = 8 := by
  simp [setRamCursor]
@[simp] theorem sampleCount_setRamCursor (c : Config) (x y : U16) :
    sampleCount (setRamCursor c x y) = 0 := by
  simp [setRamCursor]
@[simp] theorem lastFsm_setRamCursor (c : Config) (x y : U16) (f : Fsm) :
    lastFsm (setRamCursor c x y) f = f := by
  simp [setRamCursor]
@[simp] theorem lastRst_setRamCursor (c : Config) (x y : U16) (l : Level) :
    lastRst (setRamCursor c x y) l = l := by
  simp [setRamCursor]
@[simp] theorem lastDc_setRamCursor (c : Config) (x y : U16) (l : DcLevel) :
    lastDc (setRamCursor c x y) l = .data := by
  simp [setRamCursor]
@[simp] theorem Sound_setRamCursor (c : Config) (x y : U16) : Sound (setRamCursor c x y) := by
  simp [setRamCursor]

/-- In a configuration that meets 00_scope.md R6 the full frame is sent as 42_driver_ops.md R164 shows. -/
theorem okEvents_selectFullFrame {c : Config} (hc : c.Valid) :
    okEvents (selectFullFrame c) = sff c := by
  have hw := hc.width_le
  have hh := hc.height_le
  have h0 : (c.height - 1) / 256 = 0 := by omega
  have hx : xByte 0#16 = 0#8 := by decide
  simp [selectFullFrame, sff, xByte_ofNat (show c.width - 1 < 65536 by omega), lo_ofNat, hi_ofNat,
    h0, hx]
@[simp] theorem answerCount_selectFullFrame (c : Config) :
    answerCount (selectFullFrame c) = 16 := by
  simp [selectFullFrame]
@[simp] theorem sampleCount_selectFullFrame (c : Config) :
    sampleCount (selectFullFrame c) = 0 := by
  simp [selectFullFrame]
@[simp] theorem lastFsm_selectFullFrame (c : Config) (f : Fsm) :
    lastFsm (selectFullFrame c) f = f := by
  simp [selectFullFrame]
@[simp] theorem lastRst_selectFullFrame (c : Config) (l : Level) :
    lastRst (selectFullFrame c) l = l := by
  simp [selectFullFrame]
@[simp] theorem lastDc_selectFullFrame (c : Config) (l : DcLevel) :
    lastDc (selectFullFrame c) l = .data := by
  simp [selectFullFrame]
/-- The contract check inside `selectFullFrame` cannot fail (42_driver_ops.md R164). -/
theorem Sound_selectFullFrame {c : Config} (hc : c.Valid) : Sound (selectFullFrame c) := by
  have := hc.width_ge
  have := hc.width_le
  have := hc.height_ge
  have := hc.height_le
  simp [selectFullFrame]
  omega

/-- A configuration that meets 00_scope.md R6 has planes with a byte. -/
theorem planeBytes_pos {c : Config} (hc : c.Valid) : 0 < c.planeBytes := by
  have hw := hc.width_ge
  have hh := hc.height_ge
  exact Nat.mul_pos (Nat.div_pos hw (by omega)) (by omega)

/-! ## Outcomes -/

/-- An operation whose procedure meets no failure and an idle panel is over in one step. -/
theorem runOp_ok {i : Instr} {actions : List Action} {s : State} (hs : Sound actions)
    (hp : NoTransportFault s) (hb : IdleFor (sampleCount actions) s) :
    runOp i actions s = .next (respond [] (s.afterOk actions)) := by
  rw [runOp, run_ok (s := s.started i) hs (hp.of_drop 0 rfl) (hb.of_eq rfl)]
  rfl

theorem admitAny_eq_none {s : State} : admitAny s = none ↔ Accepting s := by
  unfold admitAny Accepting
  cases s.halted <;> cases s.curOp <;> simp

/-- An operation is turned away with a reason when it is not admitted. -/
theorem admitAny_of_not {s : State} (h : ¬ Accepting s) : ∃ r, admitAny s = some r := by
  cases hr : admitAny s with
  | none => exact absurd (admitAny_eq_none.mp hr) h
  | some r => exact ⟨r, rfl⟩

theorem admitDriver_eq_none {isInit : Bool} {s : State} :
    admitDriver isInit s = none ↔
      Accepting s ∧ (s.fsm = .ready ∨ (isInit = true ∧ s.fsm = .uninitialized)) := by
  unfold admitDriver
  cases hr : admitAny s with
  | some r =>
    have : ¬ Accepting s := fun h => by simp [admitAny_eq_none.mpr h] at hr
    simp [this]
  | none =>
    have := admitAny_eq_none.mp hr
    cases hf : s.fsm <;> cases isInit <;> simp [admitFsm, this]

/-- An admitted driver operation runs its procedure. -/
theorem runDriver_of_admitted {i : Instr} {isInit : Bool} {actions : List Action} {s : State}
    (h : admitDriver isInit s = none) :
    runDriver i isInit none actions s = runOp i actions s := by
  simp [runDriver, h]

/-- An admitted framebuffer operation has its effect. -/
theorem runFramebuffer_of_accepting {effect : State → Host.Outcome State Fault Refusal} {s : State}
    (h : Accepting s) : runFramebuffer effect s = effect s := by
  simp [runFramebuffer, admitAny_eq_none.mpr h]

/-- A driver operation that gives a next state was admitted and ran its procedure. -/
theorem runDriver_cases {i : Instr} {isInit : Bool} {operands : Option Refusal}
    {actions : List Action} {s t : State} (h : runDriver i isInit operands actions s = .next t) :
    admitDriver isInit s = none ∧ operands = none ∧ runOp i actions s = .next t := by
  unfold runDriver at h
  split at h
  · cases h
  · split at h
    · cases h
    · exact ⟨‹_›, rfl, h⟩

/-- A wire command that gives a next state is the next part of the operation in progress, and was emitted. -/
theorem runWire_cases {operands : Option Refusal} {command : List Action} {s t : State}
    (h : runWire operands command s = .next t) :
    s.halted = false ∧ operands = none ∧
      ∃ actions, nextEmission command s = some actions ∧ finish id (run actions s) = .next t := by
  unfold runWire at h
  split at h
  · cases h
  · rename_i hh
    split at h
    · cases h
    · split at h
      · cases h
      · exact ⟨by simpa using hh, rfl, _, ‹_›, h⟩

/-- A framebuffer operation that gives a next state was admitted and had its effect. -/
theorem runFramebuffer_cases {effect : State → Host.Outcome State Fault Refusal} {s t : State}
    (h : runFramebuffer effect s = .next t) : Accepting s ∧ effect s = .next t := by
  unfold runFramebuffer at h
  split at h
  · cases h
  · exact ⟨admitAny_eq_none.mp ‹_›, h⟩

/-- The four ways a run gives a next state: its end, a wait, an error, an abort. -/
inductive Ends (atEnd : State → State) (actions : List Action) (s t : State) : Prop where
  | done (h : run actions s = .done (s.afterOk actions)) (ht : t = atEnd (s.afterOk actions))
  | waiting (h : run actions s = .waiting t)
  | err (k : ErrorKind) (u : State) (h : run actions s = .err k u) (ht : t = takeErr k u)
  | abort (u : State) (h : run actions s = .abort u) (ht : t = takeAbort u)

/-- Everything the end of a run can be, when it gives a next state. -/
theorem finish_cases {atEnd : State → State} {actions : List Action} {s t : State}
    (h : finish atEnd (run actions s) = .next t) : Ends atEnd actions s t := by
  have he := run_endsAt actions s
  cases hr : run actions s with
  | done u =>
    rw [hr] at he h
    have hu : u = s.afterOk actions := by cases he; rfl
    subst hu
    cases h
    exact .done hr rfl
  | waiting u => rw [hr] at h; cases h; exact .waiting hr
  | err k u => rw [hr] at h; cases h; exact .err k u hr rfl
  | abort u => rw [hr] at h; cases h; exact .abort u hr rfl
  | bad f => rw [hr] at h; cases h

/-- `t` differs from `s` at most in what an operation that sends may write: the sequencer, the pins, the
observation, and the answers of the environment taken. -/
structure Kept (s t : State) : Prop where
  cfg : t.cfg = s.cfg
  rot : t.rot = s.rot
  inv : t.inv = s.inv
  black : t.black = s.black
  red : t.red = s.red
  requests : t.requests = s.requests
  wireSlot : t.wireSlot = s.wireSlot
  resets : t.resets = s.resets

theorem Kept.trans {s t u : State} (h : Kept s t) (k : Kept t u) : Kept s u where
  cfg := k.cfg.trans h.cfg
  rot := k.rot.trans h.rot
  inv := k.inv.trans h.inv
  black := k.black.trans h.black
  red := k.red.trans h.red
  requests := k.requests.trans h.requests
  wireSlot := k.wireSlot.trans h.wireSlot
  resets := k.resets.trans h.resets

theorem PortOnly.kept {s t : State} (h : PortOnly s t) : Kept s t :=
  ⟨h.cfg, h.rot, h.inv, h.black, h.red, h.requests, h.wireSlot, h.resets⟩

theorem kept_id (s : State) : Kept s (id s) := by constructor <;> rfl
theorem kept_respond (r : List Byte) (s : State) : Kept s (respond r s) := by constructor <;> rfl
theorem kept_takeErr (k : ErrorKind) (s : State) : Kept s (takeErr k s) := by constructor <;> rfl
theorem kept_takeAbort (s : State) : Kept s (takeAbort s) := by constructor <;> rfl

/-- What the end of a run of actions leaves alone, however it ended. -/
theorem Ends.kept {atEnd : State → State} {actions : List Action} {s t : State}
    (h : Ends atEnd actions s t) (hk : ∀ u, Kept u (atEnd u)) : Kept s t := by
  cases h with
  | done h ht => subst ht; exact (run_portOnly (by rw [h]; rfl)).kept.trans (hk _)
  | waiting h => exact (run_portOnly (by rw [h]; rfl)).kept
  | err k u h ht => subst ht; exact (run_portOnly (by rw [h]; rfl)).kept.trans (kept_takeErr k u)
  | abort u h ht => subst ht; exact (run_portOnly (by rw [h]; rfl)).kept.trans (kept_takeAbort u)

end Sys2Proof.Machine
end

