-- ==== Sys2Proof/Laws/Exec.lean ====
section
/-! SUPPORT. Every driver operation and every wire command is one shared run over its actions: `exec` said
once for all of them, and everything it can answer. -/

namespace Sys2Proof.Machine

/-- The operand check of a driver operation or a wire command. -/
def operandCheck (c : Config) : Instr → Option Refusal
  | .setRamWindow x0 _ x1 _ => checkX [x0, x1]
  | .setRamCursor x _ => checkX [x]
  | .updateBwFrame buffer => checkPlane c (.buffer buffer)
  | .updateRedFrame buffer => checkPlane c (.buffer buffer)
  | .setRamXPos x0 x1 => checkX [x0, x1]
  | .setRamXCount x => checkX [x]
  | .writeBwRam data => checkPlane c data
  | .writeRedRam data => checkPlane c data
  | .init | .selectFullFrame | .clearBwFrame | .clearRedFrame | .displayFrame | .swReset
  | .driverControl | .dataMode | .setRamYPos _ _ | .setRamYCount _ | .writeBorder | .tempControl
  | .dispCtrl2 | .masterActivate => none
  | .fbClear _ | .fbSetPixel _ _ _ | .fbSetRotation _ | .fbRotation | .fbSize | .fbBlackData
  | .fbRedData => none

/-- The emission of each wire command (41_wire_commands.md R140 to R152). -/
def emission (c : Config) : Instr → List Action
  | .swReset => emitSwReset c
  | .driverControl => emitDriverControl c
  | .dataMode => emitDataMode c
  | .setRamXPos x0 x1 => emitSetRamXPos c x0 x1
  | .setRamYPos y0 y1 => emitSetRamYPos c y0 y1
  | .setRamXCount x => emitSetRamXCount c x
  | .setRamYCount y => emitSetRamYCount c y
  | .writeBorder => emitWriteBorder c
  | .tempControl => emitTempControl c
  | .writeBwRam data => emitWriteBwRam c data
  | .writeRedRam data => emitWriteRedRam c data
  | .dispCtrl2 => emitDispCtrl2 c
  | .masterActivate => emitMasterActivate c
  | .init | .setRamWindow _ _ _ _ | .setRamCursor _ _ | .selectFullFrame | .updateBwFrame _
  | .updateRedFrame _ | .clearBwFrame | .clearRedFrame | .displayFrame => []
  | .fbClear _ | .fbSetPixel _ _ _ | .fbSetRotation _ | .fbRotation | .fbSize | .fbBlackData
  | .fbRedData => []

/-- A driver operation is admission, its operand check and its procedure. -/
theorem exec_eq_runDriver {i : Instr} (h : i.isDriver = true) (s : State) :
    exec i s =
      runDriver i (decide (i = .init)) (operandCheck s.cfg i) (driverProcedure s.cfg i) s := by
  cases i <;> first | rfl | exact nomatch h

/-- A wire command is its operand check and its emission, as a part of the operation in progress. -/
theorem exec_eq_runWire {i : Instr} (h : i.isWire = true) (s : State) :
    exec i s = runWire (operandCheck s.cfg i) (emission s.cfg i) s := by
  cases i <;> first | rfl | exact nomatch h

/-- An instruction is a driver operation, a wire command or a framebuffer operation. -/
theorem instr_kinds (i : Instr) :
    i.isDriver = true ∧ i.isWire = false ∨ i.isWire = true ∧ i.isDriver = false ∨
      i.isFramebuffer = true ∧ i.isDriver = false ∧ i.isWire = false := by
  cases i <;> simp [Instr.isDriver, Instr.isWire, Instr.isFramebuffer, Instr.op,
    HostOp.isFramebuffer]

/-- What a driver operation that gives a next state has done: it was admitted, its operands passed, and its
run ended as one of the four ways says. -/
theorem exec_driver_cases {i : Instr} {s t : State} (hi : i.isDriver = true)
    (h : exec i s = .next t) :
    Accepting s ∧ operandCheck s.cfg i = none ∧
      Ends (respond []) (driverProcedure s.cfg i) (s.started i) t ∧
      (s.fsm = .ready ∨ (i = .init ∧ s.fsm = .uninitialized)) := by
  rw [exec_eq_runDriver hi] at h
  obtain ⟨ha, ho, hr⟩ := runDriver_cases h
  obtain ⟨ha, hf⟩ := admitDriver_eq_none.mp ha
  exact ⟨ha, ho, finish_cases hr, by simpa using hf⟩

/-- What a wire command that gives a next state has done: its operands passed, the operation in progress
went on with it, and its run ended as one of the four ways says. -/
theorem exec_wire_cases {i : Instr} {s t : State} (hi : i.isWire = true) (h : exec i s = .next t) :
    s.halted = false ∧ operandCheck s.cfg i = none ∧
      ∃ actions, nextEmission (emission s.cfg i) s = some actions ∧ Ends id actions s t := by
  rw [exec_eq_runWire hi] at h
  obtain ⟨hh, ho, as, ha, hr⟩ := runWire_cases h
  exact ⟨hh, ho, as, ha, finish_cases hr⟩

/-- The contract check holds. Only `SET_RAM_WINDOW` has one that can fail. -/
def inOrder : Instr → Prop
  | .setRamWindow x0 y0 x1 y1 => x0.toNat < x1.toNat ∧ y0.toNat < y1.toNat
  | .init | .setRamCursor _ _ | .selectFullFrame | .updateBwFrame _ | .updateRedFrame _
  | .clearBwFrame | .clearRedFrame | .displayFrame => True
  | .fbClear _ | .fbSetPixel _ _ _ | .fbSetRotation _ | .fbRotation | .fbSize | .fbBlackData
  | .fbRedData => True
  | .swReset | .driverControl | .dataMode | .setRamXPos _ _ | .setRamYPos _ _ | .setRamXCount _
  | .setRamYCount _ | .writeBorder | .tempControl | .writeBwRam _ | .writeRedRam _ | .dispCtrl2
  | .masterActivate => True

theorem wellFormed_of_checkPlane {c : Config} {d : PlaneData} (h : checkPlane c d = none) :
    d.wellFormed c = true := by
  unfold checkPlane at h
  split at h
  · assumption
  · cases h

theorem Sound_initProcedure {c : Config} (hc : c.Valid) : Sound (initProcedure c) := by
  simp [initProcedure, Sound, Sound_selectFullFrame hc]

theorem Sound_displayProcedure (c : Config) : Sound (displayProcedure c) := by
  simp [displayProcedure]

/-- In a configuration that meets 00_scope.md R6, an operation whose operands pass neither aborts nor meets
an empty transfer. -/
theorem Sound_driverProcedure {c : Config} (hc : c.Valid) {i : Instr} (ho : operandCheck c i = none)
    (hw : inOrder i) : Sound (driverProcedure c i) := by
  have hp := planeBytes_pos hc
  have hs := Sound_selectFullFrame hc
  cases i with
  | init => exact Sound_initProcedure hc
  | setRamWindow x0 y0 x1 y1 => exact (Sound_setRamWindow c x0 y0 x1 y1).mpr hw
  | setRamCursor x y => exact Sound_setRamCursor c x y
  | selectFullFrame => exact hs
  | updateBwFrame buffer =>
    exact (Sound_append _ _).mpr ⟨hs, Sound_emitWriteBwRam hp (wellFormed_of_checkPlane ho)⟩
  | updateRedFrame buffer =>
    exact (Sound_append _ _).mpr ⟨hs, Sound_emitWriteRedRam hp (wellFormed_of_checkPlane ho)⟩
  | clearBwFrame => exact (Sound_append _ _).mpr ⟨hs, Sound_emitWriteBwRam hp rfl⟩
  | clearRedFrame => exact (Sound_append _ _).mpr ⟨hs, Sound_emitWriteRedRam hp rfl⟩
  | displayFrame => exact Sound_displayProcedure c
  | _ => trivial

/-- An emission whose operands pass has no empty transfer. -/
theorem Sound_emission {c : Config} (hc : c.Valid) {i : Instr} (ho : operandCheck c i = none) :
    Sound (emission c i) := by
  have hp := planeBytes_pos hc
  cases i with
  | writeBwRam data => exact Sound_emitWriteBwRam hp (wellFormed_of_checkPlane ho)
  | writeRedRam data => exact Sound_emitWriteRedRam hp (wellFormed_of_checkPlane ho)
  | _ => simp [emission, Sound]

/-- A misordered window: the run ends before its first primitive. -/
theorem run_misordered {c : Config} {x0 y0 x1 y1 : U16} (s : State)
    (h : ¬ (x0.toNat < x1.toNat ∧ y0.toNat < y1.toNat)) :
    run (setRamWindow c x0 y0 x1 y1) s = .abort s := by
  have : (decide (x0.toNat < x1.toNat) && decide (y0.toNat < y1.toNat)) = false := by
    rw [← Bool.decide_and]; exact decide_eq_false h
  simp only [setRamWindow, this, List.cons_append, List.nil_append, run]
  simp

/-- The one result of an admitted operation that meets no failure and an idle panel. -/
theorem exec_driver_ok {i : Instr} {s : State} (hi : i.isDriver = true)
    (ha : admitDriver (decide (i = .init)) s = none) (ho : operandCheck s.cfg i = none)
    (hs : Sound (driverProcedure s.cfg i)) (hp : NoTransportFault s)
    (hb : IdleFor (sampleCount (driverProcedure s.cfg i)) s) :
    exec i s = .next (respond [] (s.afterOk (driverProcedure s.cfg i))) := by
  rw [exec_eq_runDriver hi, ho, runDriver_of_admitted ha, runOp_ok hs hp hb]

/-- Operand values an operation runs with pass its check, and a window among them is in order. -/
theorem operandCheck_of_operandsOk {c : Config} {i : Instr} (hi : i.isDriver = true)
    (h : operandsOk c i) : operandCheck c i = none ∧ inOrder i := by
  cases i with
  | setRamWindow x0 y0 x1 y1 =>
    obtain ⟨h0, h1, h2, h3⟩ := h
    exact ⟨by simp [operandCheck, checkX, tooWide]; omega, h2, h3⟩
  | setRamCursor x y =>
    have h : x.toNat < 2048 := h
    exact ⟨by simp [operandCheck, checkX, tooWide]; omega, trivial⟩
  | updateBwFrame buffer =>
    exact ⟨by simp [operandCheck, checkPlane, PlaneData.wellFormed]; exact h, trivial⟩
  | updateRedFrame buffer =>
    exact ⟨by simp [operandCheck, checkPlane, PlaneData.wellFormed]; exact h, trivial⟩
  | init => exact ⟨rfl, trivial⟩
  | selectFullFrame => exact ⟨rfl, trivial⟩
  | clearBwFrame => exact ⟨rfl, trivial⟩
  | clearRedFrame => exact ⟨rfl, trivial⟩
  | displayFrame => exact ⟨rfl, trivial⟩
  | _ => cases hi

end Sys2Proof.Machine
end

