-- ==== Sys2Proof/Laws/Memory.lean ====
section
/-! SUPPORT. Plane bytes: read after write, and that every operation keeps the canonical form. -/

namespace Sys2Proof.Machine

@[simp] theorem Memory.get_nil (i : Nat) : Memory.get [] i = Memory.background := rfl

/-- An index below every listed one reads as the background. -/
theorem Memory.get_of_lt {m : Memory} {i : Nat} (h : ∀ cell ∈ m, i < cell.1) :
    m.get i = Memory.background := by
  induction m with
  | nil => rfl
  | cons cell rest ih =>
    obtain ⟨j, v⟩ := cell
    have hj : i < j := h (j, v) (by simp)
    simp only [Memory.get, if_neg (by omega : ¬ j = i)]
    exact ih fun c hc => h c (by simp [hc])

/-- A write is read back. -/
theorem Memory.get_set_self {m : Memory} (h : m.wf) (i : Nat) (v : Byte) :
    (m.set i v).get i = v := by
  induction m with
  | nil => by_cases hv : v = Memory.background <;> simp [Memory.set, Memory.get, hv]
  | cons cell rest ih =>
    obtain ⟨j, w⟩ := cell
    obtain ⟨hp, hb⟩ := h
    obtain ⟨hlt, hp⟩ := List.pairwise_cons.mp hp
    have hrest : Memory.wf rest := ⟨hp, fun c hc => hb c (by simp [hc])⟩
    have habove : ∀ c ∈ rest, j < c.1 := fun c hc => hlt c hc
    simp only [Memory.set]
    split
    · rename_i hij
      split
      · rename_i hv
        subst hv
        refine Memory.get_of_lt fun c hc => ?_
        rcases List.mem_cons.mp hc with rfl | hc
        · exact hij
        · exact lt_trans hij (habove c hc)
      · simp [Memory.get]
    · split
      · rename_i hij
        subst hij
        split
        · rename_i hv
          subst hv
          exact Memory.get_of_lt habove
        · simp [Memory.get]
      · rename_i hne
        simp only [Memory.get, if_neg (Ne.symm hne)]
        exact ih hrest

/-- A write leaves every other byte alone. -/
theorem Memory.get_set_of_ne {m : Memory} {i j : Nat} (hne : j ≠ i) (v : Byte) :
    (m.set i v).get j = m.get j := by
  induction m with
  | nil =>
    by_cases hv : v = Memory.background <;> simp [Memory.set, Memory.get, hv, Ne.symm hne]
  | cons cell rest ih =>
    obtain ⟨k, w⟩ := cell
    simp only [Memory.set]
    split
    · split
      · rfl
      · simp [Memory.get, Ne.symm hne]
    · split
      · rename_i hik
        subst hik
        split <;> simp [Memory.get, Ne.symm hne]
      · simp only [Memory.get, ih]

/-- What a write lists: what was listed, and the written cell. -/
theorem Memory.mem_set {m : Memory} {i : Nat} {v : Byte} {cell : Host.Cell}
    (h : cell ∈ m.set i v) : cell ∈ m ∨ (cell = (i, v) ∧ v ≠ Memory.background) := by
  induction m with
  | nil =>
    by_cases hv : v = Memory.background
    · simp [Memory.set, hv] at h
    · exact .inr ⟨by simpa [Memory.set, hv] using h, hv⟩
  | cons head rest ih =>
    obtain ⟨k, w⟩ := head
    simp only [Memory.set] at h
    split at h
    · split at h
      · exact .inl h
      · rcases List.mem_cons.mp h with rfl | h
        · exact .inr ⟨rfl, ‹_›⟩
        · exact .inl h
    · split at h
      · split at h
        · exact .inl (by simp [h])
        · rcases List.mem_cons.mp h with rfl | h
          · exact .inr ⟨rfl, ‹_›⟩
          · exact .inl (by simp [h])
      · rcases List.mem_cons.mp h with rfl | h
        · exact .inl (by simp)
        · rcases ih h with h | h
          · exact .inl (by simp [h])
          · exact .inr h

/-- A write keeps the canonical form. -/
theorem Memory.wf_set {m : Memory} (h : m.wf) (i : Nat) (v : Byte) : (m.set i v).wf := by
  refine ⟨?_, fun cell hc => ?_⟩
  · induction m with
    | nil => by_cases hv : v = Memory.background <;> simp [Memory.set, hv]
    | cons head rest ih =>
      obtain ⟨k, w⟩ := head
      obtain ⟨hp, hb⟩ := h
      obtain ⟨hlt, hr⟩ := List.pairwise_cons.mp hp
      have hrest : Memory.wf rest := ⟨hr, fun c hc => hb c (by simp [hc])⟩
      simp only [Memory.set]
      split
      · rename_i hik
        split
        · exact hp
        · refine List.pairwise_cons.mpr ⟨fun c hc => ?_, hp⟩
          rcases List.mem_cons.mp hc with rfl | hc
          · exact hik
          · exact lt_trans hik (hlt c hc)
      · split
        · rename_i hik
          subst hik
          split
          · exact hr
          · exact List.pairwise_cons.mpr ⟨hlt, hr⟩
        · rename_i hge hne
          refine List.pairwise_cons.mpr ⟨fun c hc => ?_, ih hrest⟩
          rcases Memory.mem_set hc with hc | ⟨rfl, -⟩
          · exact hlt c hc
          · exact lt_of_le_of_ne (not_lt.mp hge) (Ne.symm hne)
  · rcases Memory.mem_set hc with hc | ⟨rfl, hv⟩
    · exact h.2 cell hc
    · exact hv

/-- A write below `n` keeps every listed index below `n`. -/
theorem Memory.within_set {m : Memory} {n i : Nat} (h : m.within n) (hi : i < n) (v : Byte) :
    (m.set i v).within n := by
  intro cell hc
  rcases Memory.mem_set hc with hc | ⟨rfl, -⟩
  · exact h cell hc
  · exact hi

/-- The bytes of a filled plane. -/
theorem Memory.get_fill (n : Nat) (v : Byte) (i : Nat) :
    (Memory.fill n v).get i = if i < n then v else Memory.background := by
  have key : ∀ k base, Memory.get ((List.range' base k).map fun j => (j, v)) i =
      if base ≤ i ∧ i < base + k then v else Memory.background := by
    intro k
    induction k with
    | zero => intro base; simp [List.range']
    | succ k ih =>
      intro base
      simp only [List.range'_succ, List.map_cons, Memory.get, ih]
      by_cases h : base = i
      · subst h; simp
      · simp only [if_neg h]
        congr 1
        apply propext
        omega
  unfold Memory.fill
  split
  · rename_i h; simp [h]
  · rw [List.range_eq_range', key]
    simp

/-- A filled plane is in canonical form. -/
theorem Memory.wf_fill (n : Nat) (v : Byte) : (Memory.fill n v).wf := by
  unfold Memory.fill
  split
  · exact ⟨List.Pairwise.nil, by simp⟩
  · rename_i hv
    refine ⟨?_, ?_⟩
    · rw [List.pairwise_map]
      exact List.pairwise_lt_range
    · intro cell hc
      obtain ⟨j, -, rfl⟩ := List.mem_map.mp hc
      exact hv

/-- A filled plane lists indices below its size. -/
theorem Memory.within_fill (n : Nat) (v : Byte) : (Memory.fill n v).within n := by
  unfold Memory.fill
  split
  · simp
  · intro cell hc
    obtain ⟨j, hj, rfl⟩ := List.mem_map.mp hc
    exact List.mem_range.mp hj

/-- Two canonical planes with the same bytes are the same list. -/
theorem Memory.ext_get {m n : Memory} (hm : m.wf) (hn : n.wf) (h : ∀ i, m.get i = n.get i) :
    m = n := by
  induction m generalizing n with
  | nil =>
    cases n with
    | nil => rfl
    | cons cell rest =>
      obtain ⟨j, v⟩ := cell
      have := h j
      simp only [Memory.get, if_pos] at this
      exact absurd this.symm (hn.2 (j, v) (by simp))
  | cons cell rest ih =>
    obtain ⟨j, v⟩ := cell
    obtain ⟨hlt, hp⟩ := List.pairwise_cons.mp hm.1
    have hrest : Memory.wf rest := ⟨hp, fun c hc => hm.2 c (by simp [hc])⟩
    cases n with
    | nil =>
      have := h j
      simp only [Memory.get, if_pos] at this
      exact absurd this (hm.2 (j, v) (by simp))
    | cons cell' rest' =>
      obtain ⟨k, w⟩ := cell'
      obtain ⟨hlt', hp'⟩ := List.pairwise_cons.mp hn.1
      have hrest' : Memory.wf rest' := ⟨hp', fun c hc => hn.2 c (by simp [hc])⟩
      have hjk : j = k := by
        rcases lt_trichotomy j k with hjk | hjk | hjk
        · have e := h j
          rw [Memory.get_of_lt (m := (k, w) :: rest')] at e
          · simp only [Memory.get, if_pos] at e
            exact absurd e (hm.2 (j, v) (by simp))
          · intro c hc
            rcases List.mem_cons.mp hc with rfl | hc
            · exact hjk
            · exact lt_trans hjk (hlt' c hc)
        · exact hjk
        · have e := h k
          rw [Memory.get_of_lt (m := (j, v) :: rest)] at e
          · simp only [Memory.get, if_pos] at e
            exact absurd e.symm (hn.2 (k, w) (by simp))
          · intro c hc
            rcases List.mem_cons.mp hc with rfl | hc
            · exact hjk
            · exact lt_trans hjk (hlt c hc)
      subst hjk
      have hvw : v = w := by simpa [Memory.get] using h j
      subst hvw
      congr 1
      refine ih hrest hrest' fun i => ?_
      by_cases hi : j = i
      · subst hi
        rw [Memory.get_of_lt fun c hc => hlt c hc, Memory.get_of_lt fun c hc => hlt' c hc]
      · simpa [Memory.get, hi] using h i

/-! ## The named reads and writes -/

theorem readByte_of_lt {c : Config} {i : Nat} (h : i < c.planeBytes) (m : Memory) :
    readByte c m i = some (m.get i) := if_pos h

/-- `writeBit` inside the plane writes the byte with the bits of the mask set or cleared. -/
theorem writeBit_of_lt {c : Config} {i : Nat} (h : i < c.planeBytes) (m : Memory) (mask : Byte)
    (bit : Bool) : writeBit c m i mask bit = some (m.set i (putBits (m.get i) mask bit)) := by
  simp [writeBit, readByte, writeByte, h]

/-- Everything `writeBit` can do. -/
theorem writeBit_cases {c : Config} {m m' : Memory} {i : Nat} {mask : Byte} {bit : Bool}
    (h : writeBit c m i mask bit = some m') :
    i < c.planeBytes ∧ m' = m.set i (putBits (m.get i) mask bit) := by
  by_cases hi : i < c.planeBytes
  · rw [writeBit_of_lt hi] at h
    exact ⟨hi, (Option.some.inj h).symm⟩
  · simp [writeBit, readByte, hi] at h

@[simp] theorem readPlane_length (c : Config) (m : Memory) :
    (readPlane c m).length = c.planeBytes := by
  simp [readPlane]

end Sys2Proof.Machine
end

