-- ==== Sys2Proof/Laws/Framebuffer.lean ====
section
/-! SUPPORT. Everything a framebuffer operation can do, once for each; and which instructions touch the
planes. -/

namespace Sys2Proof.Machine

/-- In a configuration that meets 00_scope.md R6 the mapper stays inside the plane (20_memory.md R60). -/
theorem mapPixel_lt {c : Config} (hc : c.Valid) {r : Rotation} {x y : Nat} (h : InRange c r x y) :
    (mapPixel c r x y).1 < c.planeBytes := by
  have hw := hc.width_mod
  obtain ⟨k, hk⟩ : ∃ k, c.width = 8 * k := ⟨c.width / 8, by omega⟩
  have hrb : c.rowBytes = k := by simp [Config.rowBytes, hk]
  have hpb : c.planeBytes = k * c.height := by simp [Config.planeBytes, hrb]
  have key : ∀ px py, px < c.width → py < c.height → px / 8 + k * py < k * c.height := by
    intro px py hx hy
    have h1 : px / 8 < k := by omega
    calc px / 8 + k * py < k + k * py := by omega
      _ = k * (py + 1) := by ring
      _ ≤ k * c.height := Nat.mul_le_mul_left k (by omega)
  cases r <;> simp only [mapPixel, InRange, logicalSize] at h ⊢ <;> rw [hrb, hpb]
  · exact key _ _ h.1 h.2
  · exact key _ _ (by omega) h.1
  · have := key _ _ h.1 h.2; omega
  · rw [Nat.mul_comm _ k]; exact key _ _ h.2 (by omega)

/-- The planes after `FB_SET_PIXEL`. -/
def State.drawn (s : State) (x y : U16) (color : Color) : State :=
  { s with
    black := s.black.set (mapPixel s.cfg s.rot x.toNat y.toNat).1
      (putBits (s.black.get (mapPixel s.cfg s.rot x.toNat y.toNat).1)
        (mapPixel s.cfg s.rot x.toNat y.toNat).2 (planeBits color).1)
    red := s.red.set (mapPixel s.cfg s.rot x.toNat y.toNat).1
      (putBits (s.red.get (mapPixel s.cfg s.rot x.toNat y.toNat).1)
        (mapPixel s.cfg s.rot x.toNat y.toNat).2 (planeBits color).2) }

/-- The planes after `FB_CLEAR`. -/
def State.filled (s : State) (color : Color) : State :=
  { s with
    black := Memory.fill s.cfg.planeBytes (fillByte (planeBits color).1)
    red := Memory.fill s.cfg.planeBytes (fillByte (planeBits color).2) }

theorem exec_fbClear {s : State} {color : Color} (ha : Accepting s) :
    exec (.fbClear color) s = .next (respond [] (s.filled color)) := by
  simp only [exec, execFbClear]
  rw [runFramebuffer_of_accepting ha, State.filled]

theorem exec_fbSetPixel {s : State} {x y : U16} {color : Color} (ha : Accepting s)
    (hc : s.cfg.Valid) (hr : InRange s.cfg s.rot x.toNat y.toNat) :
    exec (.fbSetPixel x y color) s = .next (respond [] (s.drawn x y color)) := by
  simp only [exec, execFbSetPixel]
  rw [runFramebuffer_of_accepting ha, if_pos hr, writeBit_of_lt (mapPixel_lt hc hr),
    writeBit_of_lt (mapPixel_lt hc hr), State.drawn]

theorem exec_fbSetRotation {s : State} {r : Rotation} (ha : Accepting s) :
    exec (.fbSetRotation r) s = .next (respond [] { s with rot := r }) := by
  simp only [exec, execFbSetRotation]
  rw [runFramebuffer_of_accepting ha]

theorem exec_fbRotation {s : State} (ha : Accepting s) :
    exec .fbRotation s = .next (respond [s.rot.code] s) := by
  simp only [exec, execFbRotation]
  rw [runFramebuffer_of_accepting ha]

theorem exec_fbSize {s : State} (ha : Accepting s) :
    exec .fbSize s = .next (respond
      (u16Bytes (BitVec.ofNat 16 (logicalSize s.cfg s.rot).1)
        ++ u16Bytes (BitVec.ofNat 16 (logicalSize s.cfg s.rot).2)) s) := by
  simp only [exec, execFbSize]
  rw [runFramebuffer_of_accepting ha]

theorem exec_fbBlackData {s : State} (ha : Accepting s) :
    exec .fbBlackData s = .next (respond (readPlane s.cfg s.black) s) := by
  simp only [exec, execFbBlackData]
  rw [runFramebuffer_of_accepting ha]

theorem exec_fbRedData {s : State} (ha : Accepting s) :
    exec .fbRedData s = .next (respond (readPlane s.cfg s.red) s) := by
  simp only [exec, execFbRedData]
  rw [runFramebuffer_of_accepting ha]

/-- A framebuffer operation that gives a next state was admitted. -/
theorem accepting_of_framebuffer {i : Instr} {s t : State} (hi : i.isFramebuffer = true)
    (h : exec i s = .next t) : Accepting s := by
  cases i with
  | fbClear color => simp only [exec, execFbClear] at h; exact (runFramebuffer_cases h).1
  | fbSetPixel x y color => simp only [exec, execFbSetPixel] at h; exact (runFramebuffer_cases h).1
  | fbSetRotation r => simp only [exec, execFbSetRotation] at h; exact (runFramebuffer_cases h).1
  | fbRotation => simp only [exec, execFbRotation] at h; exact (runFramebuffer_cases h).1
  | fbSize => simp only [exec, execFbSize] at h; exact (runFramebuffer_cases h).1
  | fbBlackData => simp only [exec, execFbBlackData] at h; exact (runFramebuffer_cases h).1
  | fbRedData => simp only [exec, execFbRedData] at h; exact (runFramebuffer_cases h).1
  | _ => cases hi

/-- Everything `FB_SET_PIXEL` can do when it gives a next state. -/
theorem fbSetPixel_cases {s t : State} {x y : U16} {color : Color}
    (h : exec (.fbSetPixel x y color) s = .next t) :
    Accepting s ∧ InRange s.cfg s.rot x.toNat y.toNat ∧ t = respond [] (s.drawn x y color) ∧
      (mapPixel s.cfg s.rot x.toNat y.toNat).1 < s.cfg.planeBytes := by
  simp only [exec, execFbSetPixel] at h
  obtain ⟨ha, h⟩ := runFramebuffer_cases h
  split at h
  · rename_i hr
    split at h
    · rename_i b r hb hr'
      obtain ⟨h1, rfl⟩ := writeBit_cases hb
      obtain ⟨h2, rfl⟩ := writeBit_cases hr'
      cases h
      exact ⟨ha, hr, rfl, h1⟩
    · cases h
  · cases h

/-- Everything a framebuffer operation can leave: one response, and each field it may write. -/
inductive Drawn (s t : State) : Instr → Prop where
  | clear (color : Color) (ht : t = respond [] (s.filled color)) : Drawn s t (.fbClear color)
  | setPixel (x y : U16) (color : Color) (hr : InRange s.cfg s.rot x.toNat y.toNat)
      (hi : (mapPixel s.cfg s.rot x.toNat y.toNat).1 < s.cfg.planeBytes)
      (ht : t = respond [] (s.drawn x y color)) : Drawn s t (.fbSetPixel x y color)
  | setRotation (r : Rotation) (ht : t = respond [] { s with rot := r }) :
      Drawn s t (.fbSetRotation r)
  | rotation (ht : t = respond [s.rot.code] s) : Drawn s t .fbRotation
  | size (ht : t = respond (u16Bytes (BitVec.ofNat 16 (logicalSize s.cfg s.rot).1)
        ++ u16Bytes (BitVec.ofNat 16 (logicalSize s.cfg s.rot).2)) s) : Drawn s t .fbSize
  | blackData (ht : t = respond (readPlane s.cfg s.black) s) : Drawn s t .fbBlackData
  | redData (ht : t = respond (readPlane s.cfg s.red) s) : Drawn s t .fbRedData

theorem exec_framebuffer_cases {i : Instr} {s t : State} (hi : i.isFramebuffer = true)
    (h : exec i s = .next t) : Accepting s ∧ Drawn s t i := by
  have ha := accepting_of_framebuffer hi h
  refine ⟨ha, ?_⟩
  cases i with
  | fbClear color => rw [exec_fbClear ha] at h; cases h; exact .clear _ rfl
  | fbSetPixel x y color =>
    obtain ⟨-, hr, rfl, hi⟩ := fbSetPixel_cases h
    exact .setPixel _ _ _ hr hi rfl
  | fbSetRotation r => rw [exec_fbSetRotation ha] at h; cases h; exact .setRotation _ rfl
  | fbRotation => rw [exec_fbRotation ha] at h; cases h; exact .rotation rfl
  | fbSize => rw [exec_fbSize ha] at h; cases h; exact .size rfl
  | fbBlackData => rw [exec_fbBlackData ha] at h; cases h; exact .blackData rfl
  | fbRedData => rw [exec_fbRedData ha] at h; cases h; exact .redData rfl
  | _ => cases hi

/-- What none of them touches. -/
theorem Drawn.frame {s t : State} {i : Instr} (h : Drawn s t i) : t = { s with
    rot := t.rot, black := t.black, red := t.red, curOp := none, useq := 0,
    responses := t.responses } := by
  cases h with
  | clear color ht => subst ht; rfl
  | setPixel x y color hr hi ht => subst ht; rfl
  | setRotation r ht => subst ht; rfl
  | rotation ht => subst ht; rfl
  | size ht => subst ht; rfl
  | blackData ht => subst ht; rfl
  | redData ht => subst ht; rfl

/-- A plane write that keeps both planes in canonical form. -/
theorem PlanesOk.filled {s : State} (h : PlanesOk s) (color : Color) :
    PlanesOk (respond [] (s.filled color)) :=
  ⟨⟨Memory.wf_fill _ _, Memory.within_fill _ _⟩, ⟨Memory.wf_fill _ _, Memory.within_fill _ _⟩,
    h.coming⟩

theorem PlanesOk.drawn {s : State} (h : PlanesOk s) {x y : U16} {color : Color}
    (hi : (mapPixel s.cfg s.rot x.toNat y.toNat).1 < s.cfg.planeBytes) :
    PlanesOk (respond [] (s.drawn x y color)) :=
  ⟨⟨Memory.wf_set h.black.1 _ _, Memory.within_set h.black.2 hi _⟩,
    ⟨Memory.wf_set h.red.1 _ _, Memory.within_set h.red.2 hi _⟩, h.coming⟩

/-- The reset state's planes are in canonical form. -/
theorem reset_memory_wf : State.reset.black.wf ∧ State.reset.red.wf := by decide

end Sys2Proof.Machine
end

