-- ==== Sys2Proof/Laws/PerInstr.lean ====
section
/-! SUPPORT. Laws of every instruction, one lemma for each constructor: an encoding is as long as the
decoder takes it to be (30_encoding.md R82, R92). -/

namespace Sys2Proof.Laws.EncodeLength

/-- A well-formed instruction's encoding has the length of its kind: the length a request says of itself,
or one command byte and a payload of the length the table gives. -/
def Statement (i : Instr) : Prop :=
  ∀ c : Config, i.wellFormed c = true →
    (i.encode c).length =
      match i.op with
      | .host op => requestLength op (i.encode c)
      | .wire op => 1 + (zeroPayload c op).length

theorem init : Statement .init := fun _ _ => rfl
theorem setRamWindow (x0 y0 x1 y1 : U16) : Statement (.setRamWindow x0 y0 x1 y1) := fun _ _ => rfl
theorem setRamCursor (x y : U16) : Statement (.setRamCursor x y) := fun _ _ => rfl
theorem selectFullFrame : Statement .selectFullFrame := fun _ _ => rfl

theorem updateBwFrame (buffer : List Byte) : Statement (.updateBwFrame buffer) := by
  intro c h
  simp [Instr.wellFormed, fitsLength] at h
  simp [Instr.op, requestLength, Instr.encode, Instr.operandBytes, u16Bytes]
  omega

theorem updateRedFrame (buffer : List Byte) : Statement (.updateRedFrame buffer) := by
  intro c h
  simp [Instr.wellFormed, fitsLength] at h
  simp [Instr.op, requestLength, Instr.encode, Instr.operandBytes, u16Bytes]
  omega

theorem clearBwFrame : Statement .clearBwFrame := fun _ _ => rfl
theorem clearRedFrame : Statement .clearRedFrame := fun _ _ => rfl
theorem displayFrame : Statement .displayFrame := fun _ _ => rfl
theorem fbClear (color : Color) : Statement (.fbClear color) := fun _ _ => rfl
theorem fbSetPixel (x y : U16) (color : Color) : Statement (.fbSetPixel x y color) := fun _ _ => rfl
theorem fbSetRotation (r : Rotation) : Statement (.fbSetRotation r) := fun _ _ => rfl
theorem fbRotation : Statement .fbRotation := fun _ _ => rfl
theorem fbSize : Statement .fbSize := fun _ _ => rfl
theorem fbBlackData : Statement .fbBlackData := fun _ _ => rfl
theorem fbRedData : Statement .fbRedData := fun _ _ => rfl
theorem swReset : Statement .swReset := fun _ _ => rfl
theorem driverControl : Statement .driverControl := fun _ _ => rfl
theorem dataMode : Statement .dataMode := fun _ _ => rfl
theorem setRamXPos (x0 x1 : U16) : Statement (.setRamXPos x0 x1) := fun _ _ => rfl
theorem setRamYPos (y0 y1 : U16) : Statement (.setRamYPos y0 y1) := fun _ _ => rfl
theorem setRamXCount (x : U16) : Statement (.setRamXCount x) := fun _ _ => rfl
theorem setRamYCount (y : U16) : Statement (.setRamYCount y) := fun _ _ => rfl
theorem writeBorder : Statement .writeBorder := fun _ _ => rfl
theorem tempControl : Statement .tempControl := fun _ _ => rfl

/-- A plane payload is `PLANE_BYTES` long. -/
theorem plane_length {c : Config} {v : Byte} {data : PlaneData} (h : data.wellFormed c = true) :
    (data.bytes c v).length = c.planeBytes := by
  cases data with
  | buffer bytes => simpa [PlaneData.bytes, PlaneData.wellFormed] using h
  | clear => simp [PlaneData.bytes]

theorem writeBwRam (data : PlaneData) : Statement (.writeBwRam data) := by
  intro c h
  have := plane_length (v := c.bwClearByte) h
  simp [Instr.op, Instr.encode, Instr.operandBytes, zeroPayload, this]
  omega

theorem writeRedRam (data : PlaneData) : Statement (.writeRedRam data) := by
  intro c h
  have := plane_length (v := c.redClearByte) h
  simp [Instr.op, Instr.encode, Instr.operandBytes, zeroPayload, this]
  omega

theorem dispCtrl2 : Statement .dispCtrl2 := fun _ _ => rfl
theorem masterActivate : Statement .masterActivate := fun _ _ => rfl

end Sys2Proof.Laws.EncodeLength
end

