-- ==== Sys2Proof/Laws/Steps.lean ====
section
/-! SUPPORT. Everything a step can do, said once: a block reset, the next frame, or going on with the
operation in progress; where `INIT` and `DISPLAY_FRAME` wait and what they do after. -/

namespace Sys2Proof.Machine

/-! ## Frames -/

/-- Taking a frame changes the wire slot, while an operation is in progress, or the list of requests, between
operations, and nothing else. -/
theorem nextFrame_cases {s s' : State} {f : Frame} (h : nextFrame s = some (f, s')) :
    (∃ op b, s.curOp = some op ∧ s.wireSlot = some b ∧ f = .wire b ∧
      s' = { s with wireSlot := none }) ∨
    (∃ b rest, s.curOp = none ∧ s.requests = b :: rest ∧ f = .host b ∧
      s' = { s with requests := rest }) := by
  unfold nextFrame at h
  split at h
  · rename_i op hc
    cases hw : s.wireSlot with
    | none => rw [hw] at h; cases h
    | some b => rw [hw] at h; cases h; exact .inl ⟨op, b, hc, rfl, rfl, rfl⟩
  · rename_i hc
    split at h
    · cases h
    · rename_i b rest hr; cases h; exact .inr ⟨b, rest, hc, hr, rfl, rfl⟩

/-- The next frame depends on three fields. -/
theorem nextFrame_congr {s u : State} (hc : u.curOp = s.curOp) (hw : u.wireSlot = s.wireSlot)
    (hr : u.requests = s.requests) : (nextFrame u).map Prod.fst = (nextFrame s).map Prod.fst := by
  unfold nextFrame
  rw [hc, hw, hr]
  cases s.curOp <;> cases s.wireSlot <;> cases s.requests <;> rfl

/-- Where no wire command is to be emitted alone, frames are taken between operations. -/
theorem nextFrame_of_inProgress {s : State} {op : Instr} (hc : s.curOp = some op)
    (hw : s.wireSlot = none) : nextFrame s = none := by
  simp [nextFrame, hc, hw]

/-- The step's first action when no block reset is due: the countdown of the next to come. -/
def State.ticked (s : State) : State :=
  match s.resets with
  | ⟨n + 1, values⟩ :: rest => { s with resets := ⟨n, values⟩ :: rest }
  | ⟨0, _⟩ :: _ => s
  | [] => s

/-- The countdown touches nothing else. -/
theorem State.ticked_eq (s : State) : s.ticked = { s with resets := s.ticked.resets } := by
  unfold State.ticked
  split <;> rfl

/-- A step is the block reset that is due, or the sequencer's. -/
theorem step_of_noReset {s : State} (h : NoResetDue s) : step s = advance s.ticked := by
  unfold step State.ticked
  split
  · rename_i v rest hv; exact absurd hv (h v rest)
  · rename_i hv; simp only [hv]
  · rename_i hv; simp only [hv]

theorem step_of_reset {s : State} {u : PowerUp} {rest : List ResetInput}
    (h : s.resets = ⟨0, u⟩ :: rest) : step s = .next (blockReset u { s with resets := rest }) := by
  simp [step, h]

theorem noResetDue_or (s : State) : NoResetDue s ∨ ∃ u rest, s.resets = ⟨0, u⟩ :: rest := by
  by_cases h : NoResetDue s
  · exact .inl h
  · simp only [NoResetDue, not_forall, not_not, ne_eq] at h; exact .inr h

theorem noResetDue_of_nil {s : State} (h : s.resets = []) : NoResetDue s := by
  intro u rest hu; rw [h] at hu; cases hu

theorem State.ticked_of_nil {s : State} (h : s.resets = []) : s.ticked = s := by
  unfold State.ticked; split <;> simp_all

/-- An instruction that arrives and gives a next state has run. -/
theorem acceptFrame_cases {f : Frame} {s t : State} (h : acceptFrame f s = .next t) :
    s.halted = false ∧ ∃ i, decodeFrame s.cfg f = some i ∧ exec i s = .next t := by
  unfold acceptFrame at h
  split at h
  · cases h
  · rename_i hh
    split at h
    · cases h
    · exact ⟨by simpa using hh, _, ‹_›, h⟩

/-- Everything the sequencer can do when it gives a next state. -/
theorem advance_cases {s t : State} (h : advance s = .next t) :
    (∃ op, s.curOp = some op ∧ nextFrame s = none ∧ resume op s = .next t) ∨
    (∃ f s' i, nextFrame s = some (f, s') ∧ s.halted = false ∧ decodeFrame s.cfg f = some i ∧
      exec i s' = .next t) ∨
    (s.curOp = none ∧ nextFrame s = none ∧ t = s) := by
  unfold advance at h
  split at h
  · rename_i f s' hf
    obtain ⟨hh, i, hi, he⟩ := acceptFrame_cases h
    have hk : s'.cfg = s.cfg ∧ s'.halted = s.halted := by
      rcases nextFrame_cases hf with ⟨_, _, _, _, _, rfl⟩ | ⟨_, _, _, _, _, rfl⟩ <;> exact ⟨rfl, rfl⟩
    exact .inr (.inl ⟨f, s', i, hf, hk.2 ▸ hh, by rw [← hk.1]; exact hi, he⟩)
  · rename_i hf
    split at h
    · rename_i op hc; exact .inl ⟨op, hc, hf, h⟩
    · rename_i hc; cases h; exact .inr (.inr ⟨hc, hf, rfl⟩)

/-- The operands of a host operation make a host operation. -/
theorem isWire_of_decodeOperands {op : HostOp} {bytes rest : List Byte} {i : Instr}
    (h : decodeOperands op bytes = some (i, rest)) : i.isWire = false := by
  cases op with
  | setRamWindow => simp only [decodeOperands] at h; split at h <;> cases h; rfl
  | setRamCursor => simp only [decodeOperands] at h; split at h <;> cases h; rfl
  | updateBwFrame =>
    simp only [decodeOperands] at h
    split at h
    · split at h <;> cases h; rfl
    · cases h
  | updateRedFrame =>
    simp only [decodeOperands] at h
    split at h
    · split at h <;> cases h; rfl
    · cases h
  | fbClear =>
    simp only [decodeOperands] at h
    split at h
    · obtain ⟨_, _, h⟩ := Option.map_eq_some_iff.mp h; cases h; rfl
    · cases h
  | fbSetPixel =>
    simp only [decodeOperands] at h
    split at h
    · obtain ⟨_, _, h⟩ := Option.map_eq_some_iff.mp h; cases h; rfl
    · cases h
  | fbSetRotation =>
    simp only [decodeOperands] at h
    split at h
    · obtain ⟨_, _, h⟩ := Option.map_eq_some_iff.mp h; cases h; rfl
    · cases h
  | _ => cases h; rfl

/-- A host request is no wire command (41_wire_commands.md R153). -/
theorem isWire_of_decodeRequest {bytes : List Byte} {i : Instr} (h : decodeRequest bytes = some i) :
    i.isWire = false := by
  unfold decodeRequest decodeFront at h
  split at h
  · rename_i hf
    cases h
    split at hf
    · cases hf
    · split at hf
      · cases hf
      · exact isWire_of_decodeOperands hf
  · cases h

/-- A wire frame holds a wire command. -/
theorem isWire_of_decodeWire {c : Config} {bytes : List Byte} {i : Instr}
    (h : decodeWire c bytes = some i) : i.isWire = true := by
  unfold decodeWire at h
  split at h
  · cases h
  · split at h
    · cases h
    · rename_i op _
      cases op <;> simp only [decodePayload] at h <;> split at h <;> cases h <;> rfl

/-- The next frame holds a wire command while an operation is in progress, and a host operation between
operations. -/
theorem isWire_of_nextFrame {s s' : State} {f : Frame} {i : Instr}
    (h : nextFrame s = some (f, s')) (hd : decodeFrame s.cfg f = some i) :
    i.isWire = s.curOp.isSome := by
  rcases nextFrame_cases h with ⟨op, b, hc, _, rfl, _⟩ | ⟨b, _, hc, _, rfl, _⟩
  · rw [hc]; exact isWire_of_decodeWire hd
  · rw [hc]; exact isWire_of_decodeRequest hd

/-! ## The waits -/

/-- A procedure without a sample does not wait. -/
theorem run_ne_waiting {as : List Action} {s t : State} (h : sampleCount as = 0) :
    run as s ≠ .waiting t := by
  intro hr
  have he := run_endsAt as s
  rw [hr] at he
  cases he with
  | waiting pre post h' _ => rw [h'] at h; simp [sampleCount] at h

/-- `INIT` up to its first wait. -/
def initHead (c : Config) : List Action :=
  [.fsm .resetting] ++ resetPulse c ++ [.fsm .softwareReset] ++ emitSwReset c

/-- `INIT` between its two waits. -/
def initMiddle (c : Config) : List Action :=
  [.fsm .configuring] ++ emitDriverControl c ++ emitDataMode c ++ selectFullFrame c
    ++ emitWriteBorder c ++ emitTempControl c

/-- `DISPLAY_FRAME` up to its wait. -/
def displayHead (c : Config) : List Action := emitDispCtrl2 c ++ emitMasterActivate c

theorem initProcedure_eq (c : Config) : initProcedure c =
    initHead c ++ (waitUntilIdle ++ (initMiddle c ++ (waitUntilIdle ++ [.fsm .ready]))) := by
  simp [initProcedure, initHead, initMiddle]

theorem displayProcedure_eq (c : Config) : displayProcedure c = displayHead c ++ waitUntilIdle := by
  simp [displayProcedure, displayHead]

theorem skipPrims_init_first (c : Config) : skipPrims 6 (initProcedure c) =
    waitUntilIdle ++ (initMiddle c ++ (waitUntilIdle ++ [.fsm .ready])) := rfl

theorem skipPrims_init_last (c : Config) : skipPrims 39 (initProcedure c) =
    waitUntilIdle ++ [.fsm .ready] := rfl

theorem skipPrims_display (c : Config) : skipPrims 6 (displayProcedure c) = waitUntilIdle := rfl

@[simp] theorem sampleCount_initHead (c : Config) : sampleCount (initHead c) = 0 := by
  simp [initHead, sampleCount]

@[simp] theorem sampleCount_initMiddle (c : Config) : sampleCount (initMiddle c) = 0 := by
  simp [initMiddle, sampleCount]

@[simp] theorem sampleCount_displayHead (c : Config) : sampleCount (displayHead c) = 0 := by
  simp [displayHead]

/-- What is left of the operation in progress at each of the three waits (10_state.md R29). -/
theorem SequencerPlace.rest {s : State} {op : Instr} (h : SequencerPlace s) (hc : s.curOp = some op) :
    (op = .init ∧ s.useq = 6 ∧ s.fsm = .softwareReset ∧ s.halted = false ∧
      s.rest op = waitUntilIdle ++ (initMiddle s.cfg ++ (waitUntilIdle ++ [.fsm .ready]))) ∨
    (op = .init ∧ s.useq = 39 ∧ s.fsm = .configuring ∧ s.halted = false ∧
      s.rest op = waitUntilIdle ++ [.fsm .ready]) ∨
    (op = .displayFrame ∧ s.useq = 6 ∧ s.fsm = .ready ∧ s.halted = false ∧
      s.rest op = waitUntilIdle) := by
  unfold State.rest
  cases h with
  | between op pos fsm => rw [op] at hc; cases hc
  | initReset op pos fsm live =>
    rw [op] at hc; cases hc
    exact .inl ⟨rfl, pos, fsm, live, by rw [pos]; rfl⟩
  | initEnd op pos fsm live =>
    rw [op] at hc; cases hc
    exact .inr (.inl ⟨rfl, pos, fsm, live, by rw [pos]; rfl⟩)
  | display op pos fsm live =>
    rw [op] at hc; cases hc
    exact .inr (.inr ⟨rfl, pos, fsm, live, by rw [pos]; rfl⟩)

/-- A wait at a busy panel: one sample, one delay, and the operation stays where it is. -/
theorem run_wait_busy {s : State} (h : s.busyFeed.head = .busy) (rest : List Action) :
    run (waitUntilIdle ++ rest) s = .waiting { s.sampled with
      trace := .dly s.cfg.pollMs :: .poll .busy :: s.trace } :=
  run_prim_busy (perform_readBusy_busy h) rest

/-- A wait at an idle panel is over. -/
theorem run_wait_idle {s : State} (h : s.busyFeed.head = .idle) (rest : List Action) :
    run (waitUntilIdle ++ rest) s = run rest (s.sampled.did (.poll .idle)) :=
  run_prim_ok (perform_readBusy_idle h) rest

/-- A sample says busy or idle. -/
theorem BusySample.cases (b : BusySample) : b = .busy ∨ b = .idle := by cases b <;> simp

/-- Where a run of `INIT` waits. -/
theorem run_init_waiting {c : Config} {s t : State} (h : run (initProcedure c) s = .waiting t)
    (hu : s.useq = 0) :
    (t.useq = 6 ∧ t.fsm = .softwareReset) ∨ (t.useq = 39 ∧ t.fsm = .configuring) := by
  rw [initProcedure_eq, run_append] at h
  have he := run_endsAt (initHead c) s
  cases hr : run (initHead c) s with
  | done u =>
    rw [hr] at h he
    have hu' : u = s.afterOk (initHead c) := by cases he; rfl
    subst hu'
    simp only [RunEnd.andThen] at h
    rcases BusySample.cases (s.afterOk (initHead c)).busyFeed.head with hb | hb
    · rw [run_wait_busy hb] at h
      cases h
      exact .inl ⟨by simp [State.afterOk, State.sampled, hu, initHead, okEvents],
        by simp [State.afterOk, State.sampled, initHead, lastFsm]⟩
    · rw [run_wait_idle hb, run_append] at h
      generalize hv : (s.afterOk (initHead c)).sampled.did (.poll .idle) = v at h
      have hvu : v.useq = 7 := by
        subst hv; simp [State.afterOk, State.sampled, State.did, hu, initHead, okEvents]
      have he := run_endsAt (initMiddle c) v
      cases hr : run (initMiddle c) v with
      | done u =>
        rw [hr] at h he
        have hu' : u = v.afterOk (initMiddle c) := by cases he; rfl
        subst hu'
        simp only [RunEnd.andThen] at h
        rcases BusySample.cases (v.afterOk (initMiddle c)).busyFeed.head with hb | hb
        · rw [run_wait_busy hb] at h
          cases h
          refine .inr ⟨?_, ?_⟩
          · simp [State.afterOk, State.sampled, hvu, initMiddle, okEvents, selectFullFrame]
          · simp [State.afterOk, State.sampled, initMiddle, lastFsm]
        · rw [run_wait_idle hb] at h
          simp [run] at h
      | waiting u => exact absurd hr (run_ne_waiting (by simp))
      | err k u => rw [hr] at h; cases h
      | abort u => rw [hr] at h; cases h
      | bad f => rw [hr] at h; cases h
  | waiting u => exact absurd hr (run_ne_waiting (by simp))
  | err k u => rw [hr] at h; cases h
  | abort u => rw [hr] at h; cases h
  | bad f => rw [hr] at h; cases h

/-- Where a run of `DISPLAY_FRAME` waits. -/
theorem run_display_waiting {c : Config} {s t : State}
    (h : run (displayProcedure c) s = .waiting t) (hu : s.useq = 0) :
    t.useq = 6 ∧ t.fsm = s.fsm := by
  rw [displayProcedure_eq, run_append] at h
  have he := run_endsAt (displayHead c) s
  cases hr : run (displayHead c) s with
  | done u =>
    rw [hr] at h he
    have hu' : u = s.afterOk (displayHead c) := by cases he; rfl
    subst hu'
    simp only [RunEnd.andThen] at h
    rcases BusySample.cases (s.afterOk (displayHead c)).busyFeed.head with hb | hb
    · rw [← List.append_nil waitUntilIdle, run_wait_busy hb] at h
      cases h
      exact ⟨by simp [State.afterOk, State.sampled, hu, displayHead],
        by simp [State.afterOk, State.sampled, displayHead]⟩
    · rw [← List.append_nil waitUntilIdle, run_wait_idle hb] at h
      simp [run] at h
  | waiting u => exact absurd hr (run_ne_waiting (by simp))
  | err k u => rw [hr] at h; cases h
  | abort u => rw [hr] at h; cases h
  | bad f => rw [hr] at h; cases h

/-- Only the two operations that wait for the panel sample BUSY. -/
theorem sampleCount_driverProcedure {c : Config} {i : Instr} (h1 : i ≠ .init)
    (h2 : i ≠ .displayFrame) : sampleCount (driverProcedure c i) = 0 := by
  cases i <;> first | exact absurd rfl h1 | exact absurd rfl h2 | simp [driverProcedure, sampleCount]

/-- Only `INIT` changes `fsm` by its procedure. -/
theorem lastFsm_driverProcedure {c : Config} {i : Instr} (h : i ≠ .init) (f : Fsm) :
    lastFsm (driverProcedure c i) f = f := by
  cases i <;> first
    | exact absurd rfl h | simp [driverProcedure, lastFsm, displayProcedure]

/-- `INIT` ends in `Ready`. -/
theorem lastFsm_init (c : Config) (f : Fsm) : lastFsm (initProcedure c) f = .ready := by
  simp [initProcedure, lastFsm]

/-- Only `SET_RAM_WINDOW` has bounds to be out of order. -/
theorem not_inOrder_cases {i : Instr} (h : ¬ inOrder i) :
    ∃ x0 y0 x1 y1, i = .setRamWindow x0 y0 x1 y1 ∧
      (x1.toNat ≤ x0.toNat ∨ y1.toNat ≤ y0.toNat) := by
  cases i with
  | setRamWindow x0 y0 x1 y1 =>
    refine ⟨x0, y0, x1, y1, rfl, ?_⟩
    have : ¬ (x0.toNat < x1.toNat ∧ y0.toNat < y1.toNat) := h
    omega
  | _ => exact absurd trivial h

/-- Everything a driver operation can leave, in a configuration that meets 00_scope.md R6: it is over; it
waits, at one of three places; it failed; it aborted before its first primitive. -/
inductive DriverEnd (i : Instr) (s t : State) : Prop where
  | done
      (h : run (driverProcedure s.cfg i) (s.started i) =
        .done ((s.started i).afterOk (driverProcedure s.cfg i)))
      (ht : t = respond [] ((s.started i).afterOk (driverProcedure s.cfg i)))
  | waitInit (hi : i = .init) (h : run (initProcedure s.cfg) (s.started i) = .waiting t)
      (pos : (t.useq = 6 ∧ t.fsm = .softwareReset) ∨ (t.useq = 39 ∧ t.fsm = .configuring))
  | waitDisplay (hi : i = .displayFrame)
      (h : run (displayProcedure s.cfg) (s.started i) = .waiting t)
      (pos : t.useq = 6 ∧ t.fsm = s.fsm)
  | err (k : ErrorKind) (u : State) (h : run (driverProcedure s.cfg i) (s.started i) = .err k u)
      (ht : t = takeErr k u)
  | abort (x0 y0 x1 y1 : U16) (hi : i = .setRamWindow x0 y0 x1 y1)
      (hx : x1.toNat ≤ x0.toNat ∨ y1.toNat ≤ y0.toNat) (ht : t = takeAbort (s.started i))

theorem exec_driver_end {i : Instr} {s t : State} (hc : s.cfg.Valid) (hi : i.isDriver = true)
    (h : exec i s = .next t) : DriverEnd i s t := by
  obtain ⟨ha, ho, he, hf⟩ := exec_driver_cases hi h
  by_cases hw : inOrder i
  · have hs := Sound_driverProcedure hc ho hw
    cases he with
    | done h ht => exact .done h ht
    | waiting h =>
      by_cases h1 : i = .init
      · subst h1; exact .waitInit rfl h (run_init_waiting (c := s.cfg) (s := s.started _) h rfl)
      · by_cases h2 : i = .displayFrame
        · subst h2; exact .waitDisplay rfl h (run_display_waiting (c := s.cfg) (s := s.started _) h rfl)
        · exact absurd h (run_ne_waiting (sampleCount_driverProcedure h1 h2))
    | err k u h ht => exact .err k u h ht
    | abort u h ht =>
      rcases run_sound (s := s.started i) hs with h' | ⟨u, h'⟩ | ⟨k, u, h'⟩ <;> rw [h'] at h <;> cases h
  · obtain ⟨x0, y0, x1, y1, rfl, hx⟩ := not_inOrder_cases hw
    have hr := run_misordered (c := s.cfg) (s.started (.setRamWindow x0 y0 x1 y1))
      (show ¬ (x0.toNat < x1.toNat ∧ y0.toNat < y1.toNat) by omega)
    rw [show driverProcedure s.cfg (.setRamWindow x0 y0 x1 y1) = setRamWindow s.cfg x0 y0 x1 y1
      from rfl] at he
    cases he with
    | abort u h ht =>
      rw [hr] at h
      cases h
      exact .abort _ _ _ _ rfl hx ht
    | done h ht => exact absurd (hr.symm.trans h) (by simp)
    | waiting h => exact absurd (hr.symm.trans h) (by simp)
    | err k u h ht => exact absurd (hr.symm.trans h) (by simp)

end Sys2Proof.Machine
end

