-- ==== Sys2Proof/Laws/Waits.lean ====
section
/-! SUPPORT. Many steps, and a run that meets no failure: what a wait takes of the samples to come. -/

namespace Sys2Proof.Machine

/-! ## Many steps -/

/-- A run takes its first step first. -/
theorem coreRun_of_step {s t : State} (h : step s = .next t) (n : Nat) :
    Host.Core.run Sys2Proof.core (n + 1) s = Host.Core.run Sys2Proof.core n t := by
  have key : ∀ (M : Host.Core) (n : Nat) (s : M.State), M.run (n + 1) s =
      match M.step s with
      | .next s' => M.run n s'
      | .fault r => .fault r
      | .refused r => .refused r := fun _ _ _ => rfl
  have hk := key Sys2Proof.core n s
  rw [show Sys2Proof.core.step s = .next t from h] at hk
  exact hk

/-- A run takes its last step last. -/
theorem coreRun_snoc {n : Nat} {s t u : State} (h : Host.Core.run Sys2Proof.core n s = .next t)
    (hu : step t = .next u) : Host.Core.run Sys2Proof.core (n + 1) s = .next u := by
  have key : ∀ (M : Host.Core) (n : Nat) (s : M.State), M.run (n + 1) s =
      match M.step s with
      | .next s' => M.run n s'
      | .fault r => .fault r
      | .refused r => .refused r := fun _ _ _ => rfl
  induction n generalizing s with
  | zero => cases h; exact coreRun_of_step hu 0
  | succ n ih =>
    have hk := key Sys2Proof.core n s
    cases hs : step s with
    | next v => rw [coreRun_of_step hs] at h ⊢; exact ih h
    | fault r => rw [show Sys2Proof.core.step s = .fault r from hs] at hk; rw [hk] at h; cases h
    | refused r => rw [show Sys2Proof.core.step s = .refused r from hs] at hk; rw [hk] at h; cases h

/-- The step that takes a request, when no block reset is to come. -/
theorem step_of_request {s s' : State} {bytes : List Byte} {i : Instr} (hr : s.resets = [])
    (ha : Accepting s) (hf : nextFrame s = some (.host bytes, s'))
    (hd : decodeRequest bytes = some i) :
    step s = exec i s' ∧ s' = { s with requests := s'.requests } := by
  rcases nextFrame_cases hf with ⟨_, _, hc, _⟩ | ⟨_, _, _, _, h, rfl⟩
  · rw [ha.2] at hc; cases hc
  · refine ⟨?_, rfl⟩
    rw [step_of_noReset (noResetDue_of_nil hr), State.ticked_of_nil hr]
    simp [advance, hf, acceptFrame, ha.1, decodeFrame, hd]

/-- A step that goes on with the operation in progress, when no block reset is to come. -/
theorem step_of_inProgress {s : State} {op : Instr} (hr : s.resets = []) (hw : s.wireSlot = none)
    (hc : s.curOp = some op) : step s = resume op s := by
  rw [step_of_noReset (noResetDue_of_nil hr), State.ticked_of_nil hr]
  simp [advance, nextFrame_of_inProgress hc hw, hc]

/-! ## The countdown and the sequencer -/

/-- The countdown to the next block reset goes down by one. -/
theorem State.ticked_resets_cases (s : State) : s.ticked.resets = s.resets ∨
    ∃ n u rest, s.resets = ⟨n + 1, u⟩ :: rest ∧ s.ticked.resets = ⟨n, u⟩ :: rest := by
  unfold State.ticked
  split
  · rename_i n u rest h; exact .inr ⟨n, u, rest, h, rfl⟩
  · exact .inl rfl
  · exact .inl rfl

/-- Where the sequencer stands depends on four fields. -/
theorem SequencerPlace.of_eq {s t : State} (h : SequencerPlace s) (h1 : t.curOp = s.curOp)
    (h2 : t.useq = s.useq) (h3 : t.fsm = s.fsm) (h4 : t.halted = s.halted) : SequencerPlace t := by
  cases h with
  | between a b c => exact .between (h1.trans a) (h2.trans b) (h3 ▸ c)
  | initReset a b c d => exact .initReset (h1.trans a) (h2.trans b) (h3.trans c) (h4.trans d)
  | initEnd a b c d => exact .initEnd (h1.trans a) (h2.trans b) (h3.trans c) (h4.trans d)
  | display a b c d => exact .display (h1.trans a) (h2.trans b) (h3.trans c) (h4.trans d)

/-- Between operations `fsm` is persistent. -/
theorem SequencerPlace.persistent {s : State} (h : SequencerPlace s) (hc : s.curOp = none) :
    s.fsm.persistent = true := by
  cases h with
  | between _ _ c => exact c
  | initReset a _ _ _ => rw [hc] at a; cases a
  | initEnd a _ _ _ => rw [hc] at a; cases a
  | display a _ _ _ => rw [hc] at a; cases a

/-- What is left of sound actions is sound. -/
theorem Sound.skipPrims {as : List Action} (h : Sound as) (n : Nat) : Sound (skipPrims n as) := by
  induction as generalizing n with
  | nil => cases n <;> exact trivial
  | cons a rest ih =>
    cases n with
    | zero => exact h
    | succ n =>
      cases a with
      | fsm f => exact ih h _
      | contract b => exact ih h.2 _
      | prim p =>
        refine ih ?_ _
        cases p <;> first | exact h | exact h.2

/-- An operation stops with a fault only at an empty transfer. -/
theorem finish_fault {atEnd : State → State} {e : RunEnd} {f : Fault}
    (h : finish atEnd e = .fault f) : e = .bad f := by
  cases e <;> simp [finish] at h
  rw [h]

/-! ## Runs that meet no failure -/

/-- A run that meets no failure is over or waits. -/
theorem run_of_noTransportFault {as : List Action} {s : State} (h : NoTransportFault s)
    (hs : Sound as) : (∃ t, run as s = .waiting t) ∨ run as s = .done (s.afterOk as) := by
  rcases run_sound (s := s) hs with h' | ⟨t, h'⟩ | ⟨k, t, h'⟩
  · exact .inr h'
  · exact .inl ⟨t, h'⟩
  · exfalso
    have he := run_endsAt as s
    rw [h'] at he
    cases he with
    | err pre post p k t hh hp =>
      obtain ⟨_, _, _, _, _, _, _, hne⟩ := perform_err_inv hp
      exact hne (NoTransportFault.head (h.of_drop (t := s.afterOk pre) (answerCount pre) rfl))

/-- A busy sample is one of the queue's, so there are fewer left after it. -/
theorem queue_lt_of_busy {s : State} (hp : PanelEventuallyIdle s) {k : Nat}
    (hb : (s.busyFeed.drop k).head = .busy) :
    ((s.busyFeed.drop k).drop 1).queue.length < s.busyFeed.queue.length := by
  unfold Feed.head at hb
  cases hq : (s.busyFeed.drop k).queue with
  | nil => rw [hq, show (s.busyFeed.drop k).rest = _ from hp] at hb; cases hb
  | cons a l =>
    have : (s.busyFeed.queue.drop k).length = l.length + 1 := by
      rw [show s.busyFeed.queue.drop k = a :: l from hq]; rfl
    rw [List.length_drop] at this
    simp [Feed.drop]
    omega

/-- RST stays where it is in a run that never drives it. -/
theorem lastRst_of_no_setRst {as : List Action} (h : ∀ l, .prim (.setRst l) ∉ as) (l : Level) :
    lastRst as l = l := by
  induction as generalizing l with
  | nil => rfl
  | cons a rest ih =>
    have hr : ∀ l, .prim (.setRst l) ∉ rest := fun l hm => h l (List.mem_cons_of_mem _ hm)
    cases a with
    | fsm f => exact ih hr l
    | contract b => exact ih hr l
    | prim p =>
      cases p with
      | setRst level => exact absurd (List.mem_cons_self ..) (h level)
      | setDc level => exact ih hr l
      | xfer bytes => exact ih hr l
      | delay ms => exact ih hr l
      | readBusy => exact ih hr l

/-- An operation that meets no failure is over in this step, or waits with fewer samples to come. -/
theorem finish_of_noTransportFault {atEnd : State → State} {as : List Action} {s : State}
    (hs : Sound as) (hp : NoTransportFault s) (hq : PanelEventuallyIdle s) :
    finish atEnd (run as s) = .next (atEnd (s.afterOk as)) ∨
    ∃ t, finish atEnd (run as s) = .next t ∧ run as s = .waiting t ∧ NoTransportFault t ∧
      PanelEventuallyIdle t ∧ t.busyFeed.queue.length < s.busyFeed.queue.length ∧ PortOnly s t ∧
      ∃ pre post, as = pre ++ .prim .readBusy :: post ∧ t.pinRst = lastRst pre s.pinRst := by
  rcases run_of_noTransportFault hp hs with ⟨t, h⟩ | h
  · right
    refine ⟨t, by rw [h]; rfl, h, ?_⟩
    have he := run_endsAt as s
    have po := run_portOnly (s := s) (t := t) (by rw [h]; rfl)
    rw [h] at he
    cases he with
    | waiting pre post hh hb =>
      exact ⟨hp.of_drop (answerCount pre) rfl, hq, queue_lt_of_busy hq (k := sampleCount pre) hb, po,
        pre, post, hh, rfl⟩
  · left; rw [h]; rfl

/-! ## Rounds of a wait -/

/-- Steps after steps. -/
theorem coreRun_add {m n : Nat} {s t u : State} (h : Host.Core.run Sys2Proof.core m s = .next t)
    (hu : Host.Core.run Sys2Proof.core n t = .next u) :
    Host.Core.run Sys2Proof.core (m + n) s = .next u := by
  have key : ∀ (M : Host.Core) (n : Nat) (s : M.State), M.run (n + 1) s =
      match M.step s with
      | .next s' => M.run n s'
      | .fault r => .fault r
      | .refused r => .refused r := fun _ _ _ => rfl
  induction m generalizing s with
  | zero => cases h; rwa [Nat.zero_add]
  | succ m ih =>
    rw [Nat.add_right_comm]
    have hk := key Sys2Proof.core m s
    cases hs : step s with
    | next u => rw [coreRun_of_step hs] at h ⊢; exact ih h
    | fault r => rw [show Sys2Proof.core.step s = .fault r from hs] at hk; rw [hk] at h; cases h
    | refused r => rw [show Sys2Proof.core.step s = .refused r from hs] at hk; rw [hk] at h; cases h

/-- `s` after `n` rounds at a busy panel. -/
def State.waited (s : State) (n : Nat) : State :=
  { s with
    busyFeed := s.busyFeed.drop n
    trace := (busyRounds s.cfg n).reverse ++ s.trace }

@[simp] theorem State.waited_zero (s : State) : s.waited 0 = s := by
  simp [State.waited, busyRounds]

theorem busyRounds_succ (c : Config) (n : Nat) :
    busyRounds c (n + 1) = busyRounds c n ++ [.poll .busy, .dly c.pollMs] := by
  simp [busyRounds, List.replicate_succ']

theorem State.waited_succ (s : State) (n : Nat) : s.waited (n + 1) =
    { s.waited n with
      busyFeed := (s.waited n).busyFeed.drop 1
      trace := .dly (s.waited n).cfg.pollMs :: .poll .busy :: (s.waited n).trace } := by
  simp [State.waited, busyRounds_succ]

/-- A round leaves the operation where it waits. -/
theorem SequencerPlace.waited {s : State} (h : SequencerPlace s) (n : Nat) :
    SequencerPlace (s.waited n) := h.of_eq rfl rfl rfl rfl

/-- One round: going on with the operation in progress at a busy panel. -/
theorem resume_busy {s : State} {op : Instr} (h : SequencerPlace s) (hc : s.curOp = some op)
    (hb : s.busyFeed.head = .busy) : resume op s = .next (s.waited 1) := by
  have hw : s.waited 1 = { s with
      busyFeed := s.busyFeed.drop 1
      trace := .dly s.cfg.pollMs :: .poll .busy :: s.trace } := by
    rw [State.waited_succ, State.waited_zero]
  rw [hw, resume]
  rcases h.rest hc with ⟨rfl, _, _, _, hr⟩ | ⟨rfl, _, _, _, hr⟩ | ⟨rfl, _, _, _, hr⟩
  · rw [hr, run_wait_busy hb]; rfl
  · rw [hr, run_wait_busy hb]; rfl
  · rw [hr, ← List.append_nil waitUntilIdle, run_wait_busy hb]; rfl

/-- A step that goes on at a wait, with `n` busy samples to come: `n` steps later the next step goes on from
behind those rounds. -/
theorem coreRun_waited {x w : State} {op : Instr} (hx : step x = resume op w)
    (h : SequencerPlace w) (hc : w.curOp = some op) (hr : w.resets = []) (hw : w.wireSlot = none)
    (n : Nat) (hb : ∀ j < n, (w.busyFeed.drop j).head = .busy) :
    ∃ y : State, Host.Core.run Sys2Proof.core n x = .next y ∧ step y = resume op (w.waited n) := by
  induction n with
  | zero => exact ⟨x, rfl, by rw [State.waited_zero]; exact hx⟩
  | succ n ih =>
    obtain ⟨y, hy, hs⟩ := ih fun j hj => hb j (by omega)
    have hn : step y = .next (w.waited (n + 1)) := by
      rw [hs, resume_busy (h.waited n) hc (hb n (by omega)), State.waited_succ, State.waited_succ,
        State.waited_zero]
    refine ⟨w.waited (n + 1), coreRun_snoc hy hn, ?_⟩
    exact step_of_inProgress hr hw hc

/-- As many busy samples as there are rounds, the last of them a step that has been made. -/
theorem coreRun_waited_next {x w : State} {op : Instr} (hx : step x = resume op w)
    (h : SequencerPlace w) (hc : w.curOp = some op) (hr : w.resets = []) (hw : w.wireSlot = none)
    (n : Nat) (hb : ∀ j < n + 1, (w.busyFeed.drop j).head = .busy) :
    Host.Core.run Sys2Proof.core (n + 1) x = .next (w.waited (n + 1)) := by
  obtain ⟨y, hy, hs⟩ := coreRun_waited hx h hc hr hw n fun j hj => hb j (by omega)
  refine coreRun_snoc hy ?_
  rw [hs, resume_busy (h.waited n) hc (hb n (by omega)), State.waited_succ, State.waited_succ,
    State.waited_zero]

/-- A panel that is idle in the end has a first idle sample, after samples of the queue alone. -/
theorem exists_firstIdle {f : Feed BusySample} (h : f.rest = .idle) :
    ∃ k, FirstIdle f k ∧ k ≤ f.queue.length := by
  obtain ⟨queue, rest⟩ := f
  induction queue with
  | nil => exact ⟨0, ⟨by simp, h⟩, Nat.le_refl _⟩
  | cons b queue ih =>
    rcases BusySample.cases b with rfl | rfl
    · obtain ⟨k, ⟨h1, h2⟩, h3⟩ := ih h
      refine ⟨k + 1, ⟨fun j hj => ?_, h2⟩, by simpa using h3⟩
      cases j with
      | zero => rfl
      | succ j => exact h1 j (by omega)
    · exact ⟨0, ⟨by simp, rfl⟩, by simp⟩

/-! ## The procedures that wait, up to each wait -/

/-- A run that meets no failure up to a point goes on from there. -/
theorem run_append_ok {as bs : List Action} {s : State} (h : NoTransportFault s) (hs : Sound as)
    (hn : sampleCount as = 0) : run (as ++ bs) s = run bs (s.afterOk as) := by
  rw [run_append, run_ok hs h (by intro k hk; omega)]
  rfl

/-- `INIT` and the position at its first wait. -/
theorem exec_init_eq {s : State} (h : InitReady s) (hp : NoTransportFault s) :
    exec .init s = resume .init ((s.started .init).afterOk (initHead s.cfg)) := by
  have ha : admitDriver (decide (Instr.init = .init)) s = none :=
    admitDriver_eq_none.mpr ⟨h.accepting, h.admitted.elim (fun h => .inr ⟨rfl, h⟩) .inl⟩
  rw [exec_eq_runDriver rfl, show operandCheck s.cfg .init = none from rfl,
    runDriver_of_admitted ha, runOp,
    show driverProcedure s.cfg .init = initProcedure s.cfg from rfl, initProcedure_eq,
    run_append_ok (s := s.started .init) hp (by simp [initHead, Sound]) (by simp), resume]
  congr 1

/-- `INIT` from its first wait on, when the panel is idle, and the position at its second wait. -/
theorem resume_init_idle {s : State} (hc : s.cfg.Valid) (hp : NoTransportFault s)
    (hu : s.useq = 6) (hb : s.busyFeed.head = .idle) :
    resume .init s =
      resume .init ((s.sampled.did (.poll .idle)).afterOk (initMiddle s.cfg)) := by
  have hr : s.rest .init = waitUntilIdle ++ (initMiddle s.cfg ++ (waitUntilIdle ++ [.fsm .ready])) := by
    unfold State.rest; rw [hu]; rfl
  have hr' : ((s.sampled.did (.poll .idle)).afterOk (initMiddle s.cfg)).rest .init =
      waitUntilIdle ++ [.fsm .ready] := by
    have : ((s.sampled.did (.poll .idle)).afterOk (initMiddle s.cfg)).useq = 39 := by
      simp [State.afterOk, hu, initMiddle, okEvents, selectFullFrame]
    unfold State.rest; rw [this]; rfl
  rw [resume, hr, run_wait_idle hb,
    run_append_ok (s := s.sampled.did (.poll .idle)) hp
      (by simp [initMiddle, Sound, Sound_selectFullFrame hc]) (by simp), resume, hr']

/-- `DISPLAY_FRAME` and the position at its wait. -/
theorem exec_display_eq {s : State} (h : DriverReady s) (hp : NoTransportFault s) :
    exec .displayFrame s =
      resume .displayFrame ((s.started .displayFrame).afterOk (displayHead s.cfg)) := by
  have ha : admitDriver (decide (Instr.displayFrame = .init)) s = none :=
    admitDriver_eq_none.mpr ⟨h.accepting, .inl h.ready⟩
  rw [exec_eq_runDriver rfl, show operandCheck s.cfg .displayFrame = none from rfl,
    runDriver_of_admitted ha, runOp,
    show driverProcedure s.cfg .displayFrame = displayProcedure s.cfg from rfl, displayProcedure_eq,
    run_append_ok (s := s.started .displayFrame) hp (by simp [displayHead]) (by simp), resume]
  congr 1

/-! ## The level of RST -/

/-- Only `INIT` drives RST. -/
theorem no_setRst_driverProcedure {c : Config} {i : Instr} (h : i ≠ .init) (l : Level) :
    (.prim (.setRst l)) ∉ driverProcedure c i := by
  have hp : ∀ k d, (.prim (.setRst l)) ∉ emitPlane c k d := by
    intro k d
    cases d <;> simp [emitPlane, sendData, repeatByte]
  have hb : ∀ d, (.prim (.setRst l)) ∉ emitWriteBwRam c d := by
    intro d; simp [emitWriteBwRam, sendCommand, hp]
  have hd : ∀ d, (.prim (.setRst l)) ∉ emitWriteRedRam c d := by
    intro d; simp [emitWriteRedRam, sendCommand, hp]
  cases i <;> first
    | exact absurd rfl h
    | simp [driverProcedure, hb, hd, selectFullFrame, setRamWindow, setRamCursor, emitSetRamXPos,
        emitSetRamYPos, emitSetRamXCount, emitSetRamYCount, sendCommandWithData, sendCommand, sendData,
        displayProcedure, emitDispCtrl2, emitMasterActivate, waitUntilIdle]

/-- A run that never drives RST leaves its level, however it ends. -/
theorem run_pinRst {as : List Action} {s t : State} (hp : ∀ l, .prim (.setRst l) ∉ as)
    (h : (run as s).state? = some t) : t.pinRst = s.pinRst := by
  have one : ∀ {p : Prim} {s t : State}, (∀ l, p ≠ .setRst l) → (perform p s).state? = some t →
      t.pinRst = s.pinRst := by
    intro p s t hp h
    cases p with
    | setRst l => exact absurd rfl (hp l)
    | setDc l => simp only [perform] at h; split at h <;> cases h <;> rfl
    | xfer b =>
      simp only [perform] at h
      split at h
      · cases h
      · split at h <;> cases h <;> rfl
    | delay m => cases h; rfl
    | readBusy => simp only [perform] at h; split at h <;> cases h <;> rfl
  induction as generalizing s with
  | nil => cases h; rfl
  | cons a rest ih =>
    have hr : ∀ l, .prim (.setRst l) ∉ rest := fun l hm => hp l (List.mem_cons_of_mem _ hm)
    cases a with
    | fsm f => exact ih (s := { s with fsm := f }) hr h
    | contract b =>
      cases b with
      | true => exact ih hr h
      | false => cases h; rfl
    | prim p =>
      have hpp : ∀ l, p ≠ .setRst l := fun l e => hp l (by simp [e])
      cases hq : perform p s with
      | ok u => rw [run_prim_ok hq] at h; exact (ih hr h).trans (one hpp (by rw [hq]; rfl))
      | busy u => rw [run_prim_busy hq] at h; cases h; exact one hpp (by rw [hq]; rfl)
      | err k u => rw [run_prim_err hq] at h; cases h; exact one hpp (by rw [hq]; rfl)
      | bad f => simp only [run, hq] at h; cases h

/-! ## Going on after a wait -/

/-- Everything going on after a wait can leave: the operation waits, there or at `INIT`'s second wait; it is
over, with `fsm` at `Ready`; it failed, between `INIT`'s two waits. -/
inductive ResumeEnd (op : Instr) (s t : State) : Prop where
  | waiting (place : SequencerPlace t) (kept : PortOnly s t)
      (fsm : t.fsm = s.fsm ∨ (s.fsm = .softwareReset ∧ t.fsm = .configuring))
      (display : op = .displayFrame → t.fsm = s.fsm ∧ t.pinDc = s.pinDc ∧ t.portFeed = s.portFeed)
  | done (h : run (s.rest op) s = .done (s.afterOk (s.rest op)))
      (ht : t = respond [] (s.afterOk (s.rest op))) (fsm : t.fsm = .ready)
      (display : op = .displayFrame → t.fsm = s.fsm ∧ t.pinDc = s.pinDc ∧ t.portFeed = s.portFeed)
  | err (k : ErrorKind) (u : State) (h : run (s.rest op) s = .err k u) (ht : t = takeErr k u)
      (hi : op = .init) (fsm : s.fsm = .softwareReset)

theorem Sound_rest {s : State} {op : Instr} (hc : s.cfg.Valid) (hs : SequencerPlace s)
    (hi : s.curOp = some op) : Sound (s.rest op) := by
  rcases hs.rest hi with ⟨-, -, -, -, hr⟩ | ⟨-, -, -, -, hr⟩ | ⟨-, -, -, -, hr⟩ <;> rw [hr] <;>
    simp [initMiddle, waitUntilIdle, Sound, Sound_selectFullFrame hc]

theorem resume_end {op : Instr} {s t : State} (hc : s.cfg.Valid) (hs : SequencerPlace s)
    (hi : s.curOp = some op) (h : resume op s = .next t) : ResumeEnd op s t := by
  rcases finish_cases h with ⟨h1, h2⟩ | ⟨h1⟩ | ⟨k, u, h1, h2⟩ | ⟨u, h1, h2⟩
  · subst h2
    rcases hs.rest hi with ⟨rfl, _, _, _, hr⟩ | ⟨rfl, _, _, _, hr⟩ | ⟨rfl, _, hf, _, hr⟩
    · refine .done h1 rfl ?_ (by rintro ⟨⟩)
      show lastFsm (s.rest .init) s.fsm = .ready
      rw [hr]; simp [initMiddle, lastFsm]
    · refine .done h1 rfl ?_ (by rintro ⟨⟩)
      show lastFsm (s.rest .init) s.fsm = .ready
      rw [hr]; simp [lastFsm]
    · exact .done h1 rfl (by rw [hr]; exact hf) fun _ => by rw [hr]; exact ⟨rfl, rfl, rfl⟩
  · have po := run_portOnly (t := t) (by rw [h1]; rfl)
    have hcu := po.curOp.trans hi
    rcases hs.rest hi with ⟨rfl, hu, hf, hh, hr⟩ | ⟨rfl, hu, hf, hh, hr⟩ | ⟨rfl, hu, hf, hh, hr⟩
    · rw [hr] at h1
      rcases BusySample.cases s.busyFeed.head with hb | hb
      · rw [run_wait_busy hb] at h1; cases h1
        exact .waiting (.initReset hcu hu hf hh) po (.inl rfl) (by rintro ⟨⟩)
      · rw [run_wait_idle hb, run_append] at h1
        generalize hv : s.sampled.did (.poll .idle) = v at h1
        have hvu : v.useq = 7 := by subst hv; simp [State.sampled, State.did, hu]
        have he := run_endsAt (initMiddle s.cfg) v
        cases hrr : run (initMiddle s.cfg) v with
        | done u =>
          rw [hrr] at h1 he
          have hu' : u = v.afterOk (initMiddle s.cfg) := by cases he; rfl
          subst hu'
          simp only [RunEnd.andThen] at h1
          have hff : (v.afterOk (initMiddle s.cfg)).fsm = .configuring := by
            simp [State.afterOk, initMiddle, lastFsm]
          rcases BusySample.cases (v.afterOk (initMiddle s.cfg)).busyFeed.head with hb | hb
          · rw [run_wait_busy hb] at h1
            cases h1
            refine .waiting (.initEnd hcu ?_ hff (po.halted.trans hh)) po (.inr ⟨hf, hff⟩)
              (by rintro ⟨⟩)
            simp [State.afterOk, State.sampled, hvu, initMiddle, okEvents, selectFullFrame]
          · rw [run_wait_idle hb] at h1
            cases h1
        | waiting u => exact absurd hrr (run_ne_waiting (by simp))
        | err k u => rw [hrr] at h1; cases h1
        | abort u => rw [hrr] at h1; cases h1
        | bad f => rw [hrr] at h1; cases h1
    · rw [hr] at h1
      rcases BusySample.cases s.busyFeed.head with hb | hb
      · rw [run_wait_busy hb] at h1; cases h1
        exact .waiting (.initEnd hcu hu hf hh) po (.inl rfl) (by rintro ⟨⟩)
      · rw [run_wait_idle hb] at h1; cases h1
    · rw [hr, ← List.append_nil waitUntilIdle] at h1
      rcases BusySample.cases s.busyFeed.head with hb | hb
      · rw [run_wait_busy hb] at h1; cases h1
        exact .waiting (.display hcu hu hf hh) po (.inl rfl) fun _ => ⟨rfl, rfl, rfl⟩
      · rw [run_wait_idle hb] at h1; cases h1
  · rcases hs.rest hi with ⟨rfl, _, hf, _, hr⟩ | ⟨rfl, _, _, _, hr⟩ | ⟨rfl, _, _, _, hr⟩
    · exact .err k u h1 h2 rfl hf
    · rw [hr] at h1
      rcases BusySample.cases s.busyFeed.head with hb | hb
      · rw [run_wait_busy hb] at h1; cases h1
      · rw [run_wait_idle hb] at h1; cases h1
    · rw [hr, ← List.append_nil waitUntilIdle] at h1
      rcases BusySample.cases s.busyFeed.head with hb | hb
      · rw [run_wait_busy hb] at h1; cases h1
      · rw [run_wait_idle hb] at h1; cases h1
  · exfalso
    rcases run_sound (s := s) (Sound_rest hc hs hi) with h' | ⟨u, h'⟩ | ⟨k, u, h'⟩ <;>
      rw [h'] at h1 <;> cases h1

theorem ResumeEnd.place {op : Instr} {s t : State} (h : ResumeEnd op s t) : SequencerPlace t := by
  cases h with
  | waiting place _ _ _ => exact place
  | done _ ht fsm _ => subst ht; exact .between rfl rfl (by rw [fsm]; rfl)
  | err k u _ ht _ _ => subst ht; exact .between rfl rfl rfl

/-- A step with an operation in progress goes on with it, beside the countdown. -/
theorem step_of_sequencerOk {s : State} {op : Instr} (hs : SequencerOk s) (hc : s.curOp = some op)
    (hn : NoResetDue s) : step s = resume op s.ticked := by
  have h1 : s.ticked.curOp = some op := by rw [State.ticked_eq]; exact hc
  have h2 : s.ticked.wireSlot = none := by rw [State.ticked_eq]; exact hs.slot
  rw [step_of_noReset hn]
  simp [advance, nextFrame_of_inProgress h1 h2, h1]

theorem SequencerPlace.ticked {s : State} (h : SequencerPlace s) : SequencerPlace s.ticked := by
  rw [State.ticked_eq]; exact h.of_eq rfl rfl rfl rfl

end Sys2Proof.Machine
end

