-- ==== Sys2Proof/Laws/Trace.lean ====
section
/-! SUPPORT. Reading a trace back: what the events of a wire command are when its bytes are cut out, and
what the joining of transfers does to repeated ones. -/

namespace Sys2Proof.Machine

/-! ## Bytes sent -/

/-- Cutting the bytes out of a trace goes on where the first part left DC. -/
theorem sentBytes_append (d : DcLevel) (a b : List Event) :
    ∃ d', sentBytes d (a ++ b) = sentBytes d a ++ sentBytes d' b := by
  induction a generalizing d with
  | nil => exact ⟨d, rfl⟩
  | cons e a ih =>
    cases e with
    | dc l => exact ih l
    | xfer bytes => obtain ⟨d', h⟩ := ih d; exact ⟨d', by simp [sentBytes, h]⟩
    | rst l => exact ih d
    | rstFail l => exact ih d
    | dcFail l => exact ih d
    | xferFail bytes k => exact ih d
    | dly ms => exact ih d
    | poll b => exact ih d

theorem sentBytes_replicate (d : DcLevel) (n : Nat) (v : Byte) :
    sentBytes d (List.replicate n (.xfer [v])) = (List.replicate n v).map fun b => (d, b) := by
  induction n with
  | zero => rfl
  | succ n ih => simp [List.replicate_succ, sentBytes, ih]

/-- The bytes of a wire command: its command byte, then its payload at the data level. -/
theorem sentBytes_wire {c : Config} {i : Instr} (hi : i.isWire = true) (d : DcLevel) :
    ∃ b payload, i.encode c = b :: payload ∧ sentBytes d (okEvents (emission c i)) =
      (.cmd, b) :: payload.map fun b => (DcLevel.data, b) := by
  have hpl : ∀ o k p, sentBytes d (okEvents (sendCommand o ++ emitPlane c k p)) =
      (.cmd, o) :: (p.bytes c k).map fun b => (DcLevel.data, b) := by
    intro o k p
    cases p with
    | buffer b => simp [emitPlane, PlaneData.bytes, cmd, dat, sentBytes]
    | clear => simp [emitPlane, PlaneData.bytes, cmd, sentBytes, sentBytes_replicate]
  cases i <;> try (cases hi; done)
  all_goals refine ⟨_, _, rfl, ?_⟩
  case writeBwRam p => exact hpl _ _ _
  case writeRedRam p => exact hpl _ _ _
  all_goals
    simp [emission, cmd, dat, sentBytes, Instr.operandBytes, u16Bytes, driverControlPayload]
  all_goals rfl

/-! ## Commands -/

/-- Payload bytes go to the command before them. -/
theorem groupCommands_data (payload : List Byte) (tail : List (DcLevel × Byte)) :
    groupCommands (payload.map (fun b => (DcLevel.data, b)) ++ tail) =
      (payload ++ (groupCommands tail).1, (groupCommands tail).2) := by
  induction payload with
  | nil => rfl
  | cons a p ih => simp [groupCommands, ih]

/-- The events of wire commands in a row are cut into their frames again. -/
theorem groupCommands_wires {c : Config} {ws : List Instr} (hw : ∀ w ∈ ws, w.isWire = true)
    (d : DcLevel) :
    groupCommands (sentBytes d (ws.flatMap fun w => okEvents (emission c w))) =
      ([], ws.map (Instr.encode c)) := by
  induction ws generalizing d with
  | nil => rfl
  | cons w ws ih =>
    obtain ⟨b, p, h1, h2⟩ := sentBytes_wire (c := c) (hw w (by simp)) d
    obtain ⟨d', h3⟩ := sentBytes_append d (okEvents (emission c w))
      (ws.flatMap fun w => okEvents (emission c w))
    have := ih (fun w hm => hw w (by simp [hm])) d'
    simp [h3, h2, groupCommands, groupCommands_data, this, h1]

/-! ## Joined transfers -/

/-- A level between two parts of a trace keeps their transfers apart. -/
theorem flatten_dc_congr (a : List Event) {b b' : List Event} (l : DcLevel)
    (h : flatten b = flatten b') : flatten (a ++ .dc l :: b) = flatten (a ++ .dc l :: b') := by
  induction a with
  | nil => simp [flatten, h]
  | cons e a ih => cases e <;> simp [flatten, ih]

/-- Transfers of one byte, joined, are one transfer. -/
theorem flatten_replicate (v : Byte) {n : Nat} (hn : 1 ≤ n) :
    flatten (List.replicate n (.xfer [v])) = [.xfer (List.replicate n v)] := by
  induction n with
  | zero => omega
  | succ n ih =>
    rcases Nat.eq_zero_or_pos n with rfl | h
    · rfl
    · rw [List.replicate_succ, flatten, ih h]; simp [List.replicate_succ]

/-! ## What an end adds to the trace and the responses -/

/-- The end of a run of actions only adds to the trace, and gives no response, `Ok`, or the code of an
error that a primitive of the actions raises. -/
theorem Ends.adds {atEnd : State → State} {as : List Action} {s t : State} (h : Ends atEnd as s t)
    (ha : ∀ u, (atEnd u).trace = u.trace ∧
      ((atEnd u).responses = u.responses ∨ (atEnd u).responses = u.responses ++ [[0x00]])) :
    (∃ new, t.trace = new ++ s.trace) ∧
    (t.responses = s.responses ∨ t.responses = s.responses ++ [[0x00]] ∨
      ∃ (p : Prim) (k : ErrorKind), .prim p ∈ as ∧ p.raises k ∧
        t.responses = s.responses ++ [[k.code]] ∧ t.fsm = .faulted) := by
  have tr : ∀ as u, ∃ new, (State.afterOk u as).trace = new ++ u.trace := fun as u => ⟨_, rfl⟩
  cases h with
  | done h ht =>
    subst ht
    obtain ⟨h1, h2⟩ := ha (s.afterOk as)
    refine ⟨by rw [h1]; exact tr as s, ?_⟩
    rcases h2 with h2 | h2
    · exact .inl h2
    · exact .inr (.inl h2)
  | waiting h =>
    have he := run_endsAt as s
    have po := run_portOnly (actions := as) (s := s) (t := t) (by rw [h]; rfl)
    rw [h] at he
    cases he with
    | waiting pre post hh hb =>
      exact ⟨⟨[.dly s.cfg.pollMs, .poll .busy] ++ (okEvents pre).reverse, by simp [State.afterOk]⟩,
        .inl po.responses⟩
  | err k u h ht =>
    have he := run_endsAt as s
    have po := run_portOnly (actions := as) (s := s) (t := u) (by rw [h]; rfl)
    rw [h] at he
    subst ht
    cases he with
    | err pre post p k t hh hp =>
      obtain ⟨hr, e, -, htr, -⟩ := perform_err_inv hp
      refine ⟨⟨e :: (okEvents pre).reverse, ?_⟩, .inr (.inr ⟨p, k, by rw [hh]; simp, hr, ?_, rfl⟩)⟩
      · show u.trace = _; rw [htr]; simp [State.afterOk]
      · show u.responses ++ _ = _; rw [po.responses]
  | abort u h ht =>
    have he := run_endsAt as s
    have po := run_portOnly (actions := as) (s := s) (t := u) (by rw [h]; rfl)
    rw [h] at he
    subst ht
    cases he with
    | abort pre post hh => exact ⟨tr pre s, .inl po.responses⟩

end Sys2Proof.Machine
end

