-- ==== Sys2Proof/Laws/Wire.lean ====
section
/-! SUPPORT. A wire command as the next part of the operation in progress: where the operation goes on with
it, what it leaves, and that running it alone changes nothing of how the operation ends. -/

namespace Sys2Proof.Machine

/-! ## Positions in a procedure -/

theorem skipPrims_add (m n : Nat) (as : List Action) :
    skipPrims (m + n) as = skipPrims n (skipPrims m as) := by
  induction as generalizing m with
  | nil => cases m <;> cases n <;> rfl
  | cons a rest ih =>
    cases m with
    | zero => rw [Nat.zero_add]; rfl
    | succ m =>
      rw [Nat.add_right_comm]
      cases a with
      | prim p => exact ih m
      | fsm f => rw [skipPrims, skipPrims, Nat.add_right_comm]; exact ih (m + 1)
      | contract b => rw [skipPrims, skipPrims, Nat.add_right_comm]; exact ih (m + 1)

theorem fsmBefore_add (m n : Nat) (as : List Action) (f : Fsm) :
    fsmBefore (m + n) as f = fsmBefore n (skipPrims m as) (fsmBefore m as f) := by
  induction as generalizing m f with
  | nil => cases m <;> cases n <;> rfl
  | cons a rest ih =>
    cases m with
    | zero => rw [Nat.zero_add]; rfl
    | succ m =>
      rw [Nat.add_right_comm]
      cases a with
      | prim p => exact ih m f
      | fsm g =>
        rw [skipPrims, fsmBefore, fsmBefore, Nat.add_right_comm]; exact ih (m + 1) g
      | contract b =>
        rw [skipPrims, fsmBefore, fsmBefore, Nat.add_right_comm]; exact ih (m + 1) f

/-- Changes of `fsm` and checks are no primitives. -/
def NoPrims (as : List Action) : Prop := ∀ p, .prim p ∉ as

theorem NoPrims.tail {a : Action} {as : List Action} (h : NoPrims (a :: as)) : NoPrims as :=
  fun p hp => h p (List.mem_cons_of_mem _ hp)

theorem skipPrims_checks {checks : List Action} (h : NoPrims checks) (n : Nat) (as : List Action) :
    skipPrims (n + 1) (checks ++ as) = skipPrims (n + 1) as := by
  induction checks with
  | nil => rfl
  | cons a rest ih =>
    cases a with
    | prim p => exact absurd (List.mem_cons_self ..) (h p)
    | fsm f => exact ih h.tail
    | contract b => exact ih h.tail

theorem fsmBefore_checks {checks : List Action} (h : NoPrims checks) (n : Nat) (as : List Action)
    (f : Fsm) : fsmBefore (n + 1) (checks ++ as) f = fsmBefore (n + 1) as (lastFsm checks f) := by
  induction checks generalizing f with
  | nil => rfl
  | cons a rest ih =>
    cases a with
    | prim p => exact absurd (List.mem_cons_self ..) (h p)
    | fsm g => exact ih h.tail g
    | contract b => exact ih h.tail f

theorem skipPrims_prims (ps : List Prim) (rest : List Action) :
    skipPrims ps.length (ps.map .prim ++ rest) = rest := by
  induction ps with
  | nil => cases rest <;> rfl
  | cons p ps ih => exact ih

theorem fsmBefore_prims (ps : List Prim) (rest : List Action) (f : Fsm) :
    fsmBefore ps.length (ps.map .prim ++ rest) f = f := by
  induction ps with
  | nil => cases rest <;> rfl
  | cons p ps ih => exact ih

/-! ## Emissions -/

/-- The primitives an emission is made of. -/
def Prim.sends : Prim → Prop
  | .setDc _ => True
  | .xfer _ => True
  | .setRst _ => False
  | .delay _ => False
  | .readBusy => False

theorem sends_emitPlane (c : Config) (v : Byte) (d : PlaneData) :
    ∃ ps : List Prim, emitPlane c v d = ps.map .prim ∧ ∀ p ∈ ps, p.sends := by
  cases d with
  | buffer bytes => exact ⟨[.setDc .data, .xfer bytes], rfl, by simp [Prim.sends]⟩
  | clear =>
    exact ⟨.setDc .data :: List.replicate c.planeBytes (.xfer [v]), by simp [emitPlane, repeatByte],
      by simp [Prim.sends]⟩

/-- An emission is the command byte's two primitives and then pin writes of DC and transfers. -/
theorem emission_eq {i : Instr} (hi : i.isWire = true) (c : Config) :
    ∃ b ps, emission c i = (.setDc .cmd :: .xfer [b] :: ps : List Prim).map .prim ∧
      ∀ p ∈ ps, p.sends := by
  cases i with
  | swReset => exact ⟨_, [], rfl, by simp⟩
  | driverControl => exact ⟨_, [.setDc .data, .xfer _], rfl, by simp [Prim.sends]⟩
  | dataMode => exact ⟨_, [.setDc .data, .xfer _], rfl, by simp [Prim.sends]⟩
  | setRamXPos x0 x1 => exact ⟨_, [.setDc .data, .xfer _], rfl, by simp [Prim.sends]⟩
  | setRamYPos y0 y1 => exact ⟨_, [.setDc .data, .xfer _], rfl, by simp [Prim.sends]⟩
  | setRamXCount x => exact ⟨_, [.setDc .data, .xfer _], rfl, by simp [Prim.sends]⟩
  | setRamYCount y => exact ⟨_, [.setDc .data, .xfer _], rfl, by simp [Prim.sends]⟩
  | writeBorder => exact ⟨_, [.setDc .data, .xfer _], rfl, by simp [Prim.sends]⟩
  | tempControl => exact ⟨_, [.setDc .data, .xfer _], rfl, by simp [Prim.sends]⟩
  | writeBwRam d =>
    obtain ⟨ps, h, hs⟩ := sends_emitPlane c c.bwClearByte d
    exact ⟨c.opcodes.writeBwRam, ps, by simp [emission, emitWriteBwRam, sendCommand, h], hs⟩
  | writeRedRam d =>
    obtain ⟨ps, h, hs⟩ := sends_emitPlane c c.redClearByte d
    exact ⟨c.opcodes.writeRedRam, ps, by simp [emission, emitWriteRedRam, sendCommand, h], hs⟩
  | dispCtrl2 => exact ⟨_, [.setDc .data, .xfer _], rfl, by simp [Prim.sends]⟩
  | masterActivate => exact ⟨_, [], rfl, by simp⟩
  | _ => cases hi

/-- A run of such primitives takes an answer for each event, no sample, and leaves RST and `fsm`. -/
theorem sends_pieces {ps : List Prim} (h : ∀ p ∈ ps, p.sends) :
    (okEvents (ps.map .prim)).length = ps.length ∧ answerCount (ps.map .prim) = ps.length ∧
      sampleCount (ps.map .prim) = 0 ∧ (∀ l, lastRst (ps.map .prim) l = l) ∧
      ∀ f, lastFsm (ps.map .prim) f = f := by
  induction ps with
  | nil => simp [okEvents, answerCount, sampleCount, lastRst, lastFsm]
  | cons p ps ih =>
    obtain ⟨h1, h2, h3, h4, h5⟩ := ih fun q hq => h q (List.mem_cons_of_mem _ hq)
    have hp := h p (List.mem_cons_self ..)
    cases p with
    | setDc l => simp [okEvents, answerCount, sampleCount, lastRst, lastFsm, h1, h2, h3, h4, h5]
    | xfer b => simp [okEvents, answerCount, sampleCount, lastRst, lastFsm, h1, h2, h3, h4, h5]
    | setRst l => exact hp.elim
    | delay n => exact hp.elim
    | readBusy => exact hp.elim

/-- Changes of `fsm` and checks send nothing. -/
theorem checks_pieces {checks : List Action} (h : NoPrims checks) :
    okEvents checks = [] ∧ answerCount checks = 0 ∧ sampleCount checks = 0 ∧
      (∀ l, lastRst checks l = l) ∧ ∀ l, lastDc checks l = l := by
  induction checks with
  | nil => simp [okEvents, answerCount, sampleCount, lastRst, lastDc]
  | cons a rest ih =>
    obtain ⟨h1, h2, h3, h4, h5⟩ := ih h.tail
    cases a with
    | prim p => exact absurd (List.mem_cons_self ..) (h p)
    | fsm f => simp [okEvents, answerCount, sampleCount, lastRst, lastDc, h1, h2, h3, h4, h5]
    | contract b => simp [okEvents, answerCount, sampleCount, lastRst, lastDc, h1, h2, h3, h4, h5]

/-! ## Going on with a command -/

/-- Where a list of actions goes on with a command. -/
theorem upTo_cases {command as bs : List Action} (h : upTo command as = some bs) :
    ∃ checks rest, as = checks ++ command ++ rest ∧ bs = checks ++ command ∧ NoPrims checks := by
  induction as generalizing bs with
  | nil => cases h
  | cons a as ih =>
    cases a with
    | fsm f =>
      obtain ⟨cs, h', rfl⟩ := Option.map_eq_some_iff.mp h
      obtain ⟨checks, rest, rfl, rfl, hn⟩ := ih h'
      exact ⟨.fsm f :: checks, rest, rfl, rfl, by simpa [NoPrims] using hn⟩
    | contract b =>
      obtain ⟨cs, h', rfl⟩ := Option.map_eq_some_iff.mp h
      obtain ⟨checks, rest, rfl, rfl, hn⟩ := ih h'
      exact ⟨.contract b :: checks, rest, rfl, rfl, by simpa [NoPrims] using hn⟩
    | prim p =>
      simp only [upTo] at h
      split at h
      · rename_i hp
        cases h
        obtain ⟨rest, hr⟩ := List.isPrefixOf_iff_prefix.mp hp
        exact ⟨[], rest, hr.symm, rfl, by simp [NoPrims]⟩
      · cases h

theorem upTo_eq {checks : List Action} (h : NoPrims checks) (p : Prim) (ps rest : List Action) :
    upTo (.prim p :: ps) (checks ++ (.prim p :: ps) ++ rest) = some (checks ++ (.prim p :: ps)) := by
  induction checks with
  | nil => simp [upTo]
  | cons a cs ih =>
    have := ih h.tail
    cases a with
    | prim q => exact absurd (List.mem_cons_self ..) (h q)
    | fsm f => simpa [upTo] using this
    | contract b => simpa [upTo] using this

/-- What it says of a state that the operation in progress goes on with a command. -/
theorem nextEmission_cases {command actions : List Action} {s : State}
    (h : nextEmission command s = some actions) :
    ∃ op checks rest, s.curOp = some op ∧ s.fsm = fsmBefore s.useq (driverProcedure s.cfg op) .ready ∧
      s.rest op = checks ++ command ++ rest ∧ actions = checks ++ command ∧ NoPrims checks := by
  unfold nextEmission at h
  split at h
  · cases h
  · rename_i op hc
    split at h
    · rename_i hf
      obtain ⟨checks, rest, h1, h2, h3⟩ := upTo_cases h
      exact ⟨op, checks, rest, hc, hf, h1, h2, h3⟩
    · cases h

/-- Everything a wire command that gives a next state has done: the operation in progress goes on with it,
and the run of the checks before it and of it ended as one of the four ways says. -/
theorem exec_wire_end {i : Instr} {s t : State} (hi : i.isWire = true) (h : exec i s = .next t) :
    s.halted = false ∧ operandCheck s.cfg i = none ∧ ∃ op checks rest, s.curOp = some op ∧
      s.fsm = fsmBefore s.useq (driverProcedure s.cfg op) .ready ∧
      s.rest op = checks ++ emission s.cfg i ++ rest ∧ NoPrims checks ∧
      Ends id (checks ++ emission s.cfg i) s t := by
  obtain ⟨h1, h2, as, ha, he⟩ := exec_wire_cases hi h
  obtain ⟨op, checks, rest, h3, h4, h5, rfl, h6⟩ := nextEmission_cases ha
  exact ⟨h1, h2, op, checks, rest, h3, h4, h5, h6, he⟩

/-- An operation with a procedure is a driver operation. -/
theorem isDriver_of_rest {s : State} {op : Instr} (h : s.rest op ≠ []) : op.isDriver = true := by
  cases op <;> first
    | rfl
    | exact absurd (by unfold State.rest driverProcedure; cases s.useq <;> rfl) h

/-- What is left of a procedure behind the checks before a command and the command. -/
theorem rest_behind {s t : State} {op : Instr} {checks rest : List Action} {ps : List Prim}
    (h : s.rest op = checks ++ ps.map .prim ++ rest) (hn : NoPrims checks) (hp : ps ≠ [])
    (hc : t.cfg = s.cfg) (hu : t.useq = s.useq + ps.length) : t.rest op = rest := by
  obtain ⟨p, ps, rfl⟩ := List.exists_cons_of_ne_nil hp
  rw [State.rest, hu, hc, skipPrims_add]
  rw [State.rest] at h
  rw [h, List.append_assoc, List.length_cons, skipPrims_checks hn]
  exact skipPrims_prims (p :: ps) rest

/-- Running the next command alone is running the operation up to its end: it goes on from there as it would
have gone on, or has ended as it would have ended. -/
theorem resume_of_wire {i : Instr} {s t : State} (hi : i.isWire = true) (h : exec i s = .next t) :
    ∃ op, s.curOp = some op ∧ op.isDriver = true ∧
      ((t.curOp = some op ∧ resume op t = resume op s) ∨ (t.curOp = none ∧ resume op s = .next t)) := by
  obtain ⟨-, -, actions, ha, he⟩ := exec_wire_cases hi h
  obtain ⟨op, checks, rest, hc, -, hr, rfl, hn⟩ := nextEmission_cases ha
  obtain ⟨b, ps, hps, hsend⟩ := emission_eq hi s.cfg
  refine ⟨op, hc, isDriver_of_rest (s := s) (by rw [hr, hps]; simp), ?_⟩
  have hrun : run (s.rest op) s = (run (checks ++ emission s.cfg i) s).andThen rest := by
    rw [hr, run_append]
  cases he with
  | done h ht =>
    have ht : t = s.afterOk (checks ++ emission s.cfg i) := ht
    refine .inl ⟨by rw [ht]; exact hc, ?_⟩
    have hu : t.useq = s.useq + (.setDc .cmd :: .xfer [b] :: ps : List Prim).length := by
      have := (sends_pieces (ps := .setDc .cmd :: .xfer [b] :: ps)
        (by simpa [Prim.sends] using hsend)).1
      rw [ht, ← this, ← hps]
      simp [State.afterOk, (checks_pieces hn).1]
    have hb : t.rest op = rest :=
      rest_behind (by rw [hr, hps]) hn (by simp) (by rw [ht]; rfl) hu
    rw [resume, resume, hrun, h, hb, ← ht]
    rfl
  | waiting h =>
    exact absurd h (run_ne_waiting (by
      rw [sampleCount_append, (checks_pieces hn).2.2.1, hps,
        (sends_pieces (ps := .setDc .cmd :: .xfer [b] :: ps)
          (by simpa [Prim.sends] using hsend)).2.2.1]))
  | err k u h ht =>
    exact .inr ⟨by rw [ht]; rfl, by rw [resume, hrun, h, ht]; rfl⟩
  | abort u h ht =>
    exact .inr ⟨by rw [ht]; rfl, by rw [resume, hrun, h, ht]; rfl⟩

/-- The one result of a wire command the operation in progress goes on with, when nothing fails. -/
theorem exec_wire_ok {i op : Instr} {s : State} (hi : i.isWire = true)
    (ho : operandCheck s.cfg i = none) (hg : GoesOnWith s op (emission s.cfg i))
    (hp : NoTransportFault s) :
    exec i s = .next (s.emitted op (okEvents (emission s.cfg i))
      (lastDc (emission s.cfg i) s.pinDc)) := by
  obtain ⟨b, ps, hps, hsend⟩ := emission_eq hi s.cfg
  obtain ⟨checks, rest, hr, hn⟩ := hg.next
  have hn : NoPrims checks := hn
  obtain ⟨hl, hac, hsc, hrs, hfs⟩ := sends_pieces (ps := .setDc .cmd :: .xfer [b] :: ps)
    (by simpa [Prim.sends] using hsend)
  obtain ⟨c1, c2, c3, c4, c5⟩ := checks_pieces hn
  have hne : nextEmission (emission s.cfg i) s = some (checks ++ emission s.cfg i) := by
    rw [nextEmission, hg.inProgress]
    simp only [hg.fsm.symm, if_true]
    rw [hr, hps]
    exact upTo_eq hn _ _ rest
  have hd := isDriver_of_rest (s := s) (op := op) (by rw [hr, hps]; simp)
  obtain ⟨hk, hw⟩ := operandCheck_of_operandsOk hd hg.operands
  have hs : Sound (checks ++ emission s.cfg i) := by
    have := (Sound_driverProcedure hg.valid hk hw).skipPrims s.useq
    rw [show skipPrims s.useq _ = s.rest op from rfl, hr] at this
    exact ((Sound_append _ _).mp this).1
  rw [exec_eq_runWire hi, ho, runWire]
  simp only [hg.live, hne]
  rw [run_ok hs hp (by intro k hk; rw [sampleCount_append, c3, hps, hsc] at hk; simp at hk)]
  have hf : lastFsm checks s.fsm =
      fsmBefore (s.useq + (ps.length + 2)) (driverProcedure s.cfg op) .ready := by
    rw [fsmBefore_add, ← hg.fsm, show skipPrims s.useq _ = s.rest op from rfl, hr, hps,
      List.append_assoc, fsmBefore_checks hn]
    exact (fsmBefore_prims (.setDc .cmd :: .xfer [b] :: ps) rest _).symm
  rw [← hps] at hl hac hsc hrs hfs
  have hlen : (okEvents (emission s.cfg i)).length = ps.length + 2 := by rw [hl]; rfl
  simp [finish, State.afterOk, State.emitted, c1, c2, c3, c4, c5, hl, hac, hsc, hrs, hfs, hf]

end Sys2Proof.Machine
end

