-- ==== Sys2Proof/Machine/Assembler.lean ====
section
/-! DEFINITION. The assembler text of an instruction (30_encoding.md R98). No rule of the machine reads
it. -/

namespace Sys2Proof.Machine

/-- The mnemonics of 30_encoding.md R91. -/
def hostMnemonic : HostOp → String
  | .init => "INIT"
  | .setRamWindow => "SET_RAM_WINDOW"
  | .setRamCursor => "SET_RAM_CURSOR"
  | .selectFullFrame => "SELECT_FULL_FRAME"
  | .updateBwFrame => "UPDATE_BW_FRAME"
  | .updateRedFrame => "UPDATE_RED_FRAME"
  | .clearBwFrame => "CLEAR_BW_FRAME"
  | .clearRedFrame => "CLEAR_RED_FRAME"
  | .displayFrame => "DISPLAY_FRAME"
  | .fbClear => "FB_CLEAR"
  | .fbSetPixel => "FB_SET_PIXEL"
  | .fbSetRotation => "FB_SET_ROTATION"
  | .fbRotation => "FB_ROTATION"
  | .fbSize => "FB_SIZE"
  | .fbBlackData => "FB_BLACK_DATA"
  | .fbRedData => "FB_RED_DATA"

/-- The mnemonics of 30_encoding.md R82. -/
def wireMnemonic : WireOp → String
  | .swReset => "SW_RESET"
  | .driverControl => "DRIVER_CONTROL"
  | .dataMode => "DATA_MODE"
  | .setRamXPos => "SET_RAMXPOS"
  | .setRamYPos => "SET_RAMYPOS"
  | .setRamXCount => "SET_RAMXCOUNT"
  | .setRamYCount => "SET_RAMYCOUNT"
  | .writeBorder => "WRITE_BORDER"
  | .tempControl => "TEMP_CONTROL"
  | .writeBwRam => "WRITE_BWRAM"
  | .writeRedRam => "WRITE_REDRAM"
  | .dispCtrl2 => "DISP_CTRL2"
  | .masterActivate => "MASTER_ACTIVATE"

/-- An instruction's mnemonic. -/
def mnemonic (i : Instr) : String :=
  match i.op with
  | .host op => hostMnemonic op
  | .wire op => wireMnemonic op

/-- A colour operand. -/
def colorText : Color → String
  | .black => "Black"
  | .white => "White"
  | .red => "Red"

/-- A rotation operand. -/
def rotationText : Rotation → String
  | .r0 => "R0"
  | .r90 => "R90"
  | .r180 => "R180"
  | .r270 => "R270"

/-- A buffer operand written as a literal. -/
def bufferText (bytes : List Byte) : String :=
  "[" ++ ", ".intercalate (bytes.map fun b => toString b.toNat) ++ "]"

/-- A plane write's operand. -/
def planeText : PlaneData → String
  | .buffer bytes => bufferText bytes
  | .clear => "clear"

/-- The operands of an instruction as text. -/
def operandTexts : Instr → List String
  | .setRamWindow x0 y0 x1 y1 => [x0, y0, x1, y1].map fun v => toString v.toNat
  | .setRamCursor x y => [x, y].map fun v => toString v.toNat
  | .updateBwFrame buffer => [bufferText buffer]
  | .updateRedFrame buffer => [bufferText buffer]
  | .fbClear color => [colorText color]
  | .fbSetPixel x y color => [toString x.toNat, toString y.toNat, colorText color]
  | .fbSetRotation r => [rotationText r]
  | .setRamXPos x0 x1 => [x0, x1].map fun v => toString v.toNat
  | .setRamYPos y0 y1 => [y0, y1].map fun v => toString v.toNat
  | .setRamXCount x => [toString x.toNat]
  | .setRamYCount y => [toString y.toNat]
  | .writeBwRam data => [planeText data]
  | .writeRedRam data => [planeText data]
  | .init => []
  | .selectFullFrame => []
  | .clearBwFrame => []
  | .clearRedFrame => []
  | .displayFrame => []
  | .fbRotation => []
  | .fbSize => []
  | .fbBlackData => []
  | .fbRedData => []
  | .swReset => []
  | .driverControl => []
  | .dataMode => []
  | .writeBorder => []
  | .tempControl => []
  | .dispCtrl2 => []
  | .masterActivate => []

/-- One line of assembler text: the mnemonic, then the operands separated by commas. -/
def assemblerText (i : Instr) : String :=
  match operandTexts i with
  | [] => mnemonic i
  | operands => mnemonic i ++ " " ++ ", ".intercalate operands

end Sys2Proof.Machine
end

