-- ==== Sys2Proof/Tests/Slice0.lean ====
section
/-! SUPPORT. The model's own tests: ill-formed terms refused, words written out from 30_encoding.md, the
vectors of 95_test_vectors.md (each test names its source), and for every statement a state and operands
that meet its hypotheses. -/

namespace Sys2Proof.Tests

open Sys2Proof.Machine

/-! ## Helpers -/

/-- The next state of an outcome. -/
def next? : Host.Outcome State Fault Refusal → Option State
  | .next s => some s
  | .fault _ => none
  | .refused _ => none

/-- The reason of a refusal. -/
def refusal? : Host.Outcome State Fault Refusal → Option Refusal
  | .refused r => some r
  | .next _ => none
  | .fault _ => none

/-- After `INIT`: as reset leaves the block, but ready. -/
def ready : State := { State.reset with fsm := .ready }

/-- After a failure. -/
def faulted : State := { State.reset with fsm := .faulted }

/-- The asymmetric double of 95_test_vectors.md V5.2: 16 by 4 pixels, eight bytes a plane. -/
def smallConfig : Config := { Config.std with width := 16, height := 4 }

/-- A ready block with the small panel. -/
def small : State := { ready with cfg := smallConfig }

/-- A state with one request to come. -/
def asked (s : State) (request : List Byte) : State := { s with requests := [request] }

/-- A state whose environment answers `ok` `n` times and then fails. -/
def failing (n : Nat) (f : PortFault) (s : State) : State :=
  { s with portFeed := ⟨List.replicate n .ok ++ [.fail f], .ok⟩ }

/-- A bus failure that leaves the pins at the levels that differ from reset's. -/
def busFault : PortFault := ⟨.bus, .high, .data⟩

/-- A chip-select failure. -/
def csFault : PortFault := ⟨.chipSelect, .low, .cmd⟩

/-- A state whose panel never reports idle. -/
def stuck (s : State) : State := { s with busyFeed := ⟨[], .busy⟩ }

/-- A state in which a driver operation in progress goes on with this wire command. -/
def emitting (i : Instr) (s : State) : State :=
  match emittedBy i with
  | some (op, n) => s.inside op n
  | none => s

/-- What is looked at after a step. -/
structure Seen where
  fsm : Fsm
  halted : Bool
  events : List Event
  responses : List (List Byte)
deriving DecidableEq, Repr

/-- What a step shows. -/
def after (o : Host.Outcome State Fault Refusal) : Option Seen :=
  (next? o).map fun t => ⟨t.fsm, t.halted, t.events, t.responses⟩

/-- A command and its payload in short form (00_scope.md R12). -/
def sends (b : Byte) (payload : List Byte) : List Event := cmd b ++ dat payload

/-! ## Well-formed terms (30_encoding.md R82, R85, R92) -/

theorem test_wf_upload_too_long :
    (Instr.updateBwFrame (List.replicate 65536 0)).wellFormed Config.std = false ∧
    (Instr.updateRedFrame (List.replicate 65536 0)).wellFormed Config.std = false := by
  constructor <;> (simp only [Instr.wellFormed, fitsLength, List.length_replicate]; decide)

theorem test_wf_x_byte :
    (Instr.setRamXPos 2048 0).wellFormed Config.std = false ∧
    (Instr.setRamXPos 0 2048).wellFormed Config.std = false ∧
    (Instr.setRamXCount 2048).wellFormed Config.std = false ∧
    (Instr.setRamXPos 0 2047).wellFormed Config.std = true := by decide

theorem test_wf_plane :
    (Instr.writeBwRam (.buffer [0xFF])).wellFormed smallConfig = false ∧
    (Instr.writeRedRam (.buffer (List.replicate 9 0))).wellFormed smallConfig = false ∧
    (Instr.writeRedRam (.buffer (List.replicate 8 0))).wellFormed smallConfig = true := by decide

/-! ## Decoding: every constructor from a word written out from the tables

Selectors: 30_encoding.md R91. Operands: R92. Colours and rotations: R93, R94. -/

theorem test_decode_selectors :
    decodeTableWord 8 0b00000000 = some .init ∧
    decodeTableWord 8 0b00000011 = some .selectFullFrame ∧
    decodeTableWord 8 0b00000110 = some .clearBwFrame ∧
    decodeTableWord 8 0b00000111 = some .clearRedFrame ∧
    decodeTableWord 8 0b00001000 = some .displayFrame ∧
    decodeTableWord 8 0b00001100 = some .fbRotation ∧
    decodeTableWord 8 0b00001101 = some .fbSize ∧
    decodeTableWord 8 0b00001110 = some .fbBlackData ∧
    decodeTableWord 8 0b00001111 = some .fbRedData := by decide

theorem test_decode_set_ram_window :
    decodeRequest [0x01, 0x08, 0x00, 0x10, 0x00, 0x3F, 0x00, 0x2F, 0x00]
      = some (.setRamWindow 8 16 63 47) ∧
    decodeTableWord 8 0x01 = some (.setRamWindow 0 0 0 0) := by decide

theorem test_decode_set_ram_cursor :
    decodeRequest [0x02, 0x10, 0x00, 0x2C, 0x01] = some (.setRamCursor 16 300) ∧
    decodeTableWord 40 0x012C001002 = some (.setRamCursor 16 300) := by decide

theorem test_decode_uploads :
    decodeRequest [0x04, 0x03, 0x00, 0xAA, 0x55, 0x01] = some (.updateBwFrame [0xAA, 0x55, 0x01]) ∧
    decodeRequest [0x05, 0x01, 0x00, 0x7E] = some (.updateRedFrame [0x7E]) ∧
    decodeRequest [0x05, 0x01, 0x00] = none ∧
    decodeTableWord 24 0x000004 = some (.updateBwFrame []) := by decide

theorem test_decode_framebuffer :
    decodeRequest [0x09, 0x02] = some (.fbClear .red) ∧
    decodeTableWord 16 0b0000000100001001 = some (.fbClear .white) ∧
    decodeRequest [0x0A, 0x64, 0x00, 0x32, 0x00, 0x00] = some (.fbSetPixel 100 50 .black) ∧
    decodeRequest [0x0B, 0x01] = some (.fbSetRotation .r90) ∧
    decodeTableWord 16 0x030B = some (.fbSetRotation .r270) := by decide

/-- Wire commands without an operand, as the table's one-byte words; opcodes 30_encoding.md R83. Byte
0x01 is `DRIVER_CONTROL` on the wire and `SET_RAM_WINDOW` on the host port (log entry 7). -/
theorem test_decode_wire_constants :
    decodeTableWord 8 0b00010010 = some .swReset ∧
    decodeWire Config.std [0x01, 0xC7, 0x00, 0x00] = some .driverControl ∧
    decodeTableWord 8 0x11 = some .dataMode ∧
    decodeTableWord 8 0x3C = some .writeBorder ∧
    decodeTableWord 8 0x18 = some .tempControl ∧
    decodeTableWord 8 0x22 = some .dispCtrl2 ∧
    decodeTableWord 8 0b00100000 = some .masterActivate := by decide

theorem test_decode_wire_operands :
    decodeWire Config.std [0x44, 0x01, 0x07] = some (.setRamXPos 8 56) ∧
    decodeTableWord 24 0b000001110000000101000100 = some (.setRamXPos 8 56) ∧
    decodeWire Config.std [0x45, 0x10, 0x00, 0x2F, 0x00] = some (.setRamYPos 16 47) ∧
    decodeWire Config.std [0x4E, 0x02] = some (.setRamXCount 16) ∧
    decodeWire Config.std [0x4F, 0x2C, 0x01] = some (.setRamYCount 300) := by decide

theorem test_decode_wire_planes :
    decodeWire smallConfig [0x24, 0, 1, 2, 3, 4, 5, 6, 7]
      = some (.writeBwRam (.buffer [0, 1, 2, 3, 4, 5, 6, 7])) ∧
    decodeWire smallConfig [0x26, 0, 1, 2, 3, 4, 5, 6, 7]
      = some (.writeRedRam (.buffer [0, 1, 2, 3, 4, 5, 6, 7])) ∧
    decodeWire smallConfig [0x26, 0, 1, 2] = none := by decide

/-- Reserved encodings (30_encoding.md R97; 95_test_vectors.md V6.4, V6.9, V6.15, V6.16). -/
theorem test_decode_reserved :
    decodeRequest [0x09, 0x03] = none ∧ decodeRequest [0x0B, 0x04] = none ∧
    decodeRequest [0x10] = none ∧ decodeRequest [0x09] = none ∧ decodeRequest [0x00, 0x00] = none ∧
    decodeRequest [] = none ∧ decodeWire Config.std [0x13] = none := by decide

/-- The encoder against the vectors of 95_test_vectors.md V3.5, V2.5, V2.8, V6.7. -/
theorem test_encode :
    (Instr.setRamWindow 0 0 2047 65535).encode Config.std
      = [0x01, 0x00, 0x00, 0x00, 0x00, 0xFF, 0x07, 0xFF, 0xFF] ∧
    (Instr.setRamXPos 0 199).encode Config.std = [0x44, 0x00, 0x18] ∧
    (Instr.setRamXPos 0 2047).encode Config.std = [0x44, 0x00, 0xFF] ∧
    (Instr.fbSetPixel 100 50 .black).encode Config.std = [0x0A, 0x64, 0x00, 0x32, 0x00, 0x00] := by
  decide

/-- A table word is what the very next step runs: a request between operations, a wire command inside a driver
procedure. -/
theorem test_fetch_table_word :
    (nextFrame (State.reset.withFetchWord 16 0x030B)).map Prod.fst = some (.host [0x0B, 0x03]) ∧
    (nextFrame (State.reset.withFetchWord 8 0x11)).map Prod.fst = some (.wire [0x11, 0x03]) ∧
    ∀ w ∈ [0x11, 0x12, 0x18, 0x20, 0x22, 0x3C, 0x44, 0x45, 0x4E, 0x4F],
      (next? (step (State.reset.withFetchWord 8 w))).isSome = true := by
  decide +kernel

theorem test_assembler_text :
    assemblerText (.setRamWindow 8 16 63 47) = "SET_RAM_WINDOW 8, 16, 63, 47" ∧
    assemblerText .init = "INIT" ∧ assemblerText (.fbClear .red) = "FB_CLEAR Red" := by decide +kernel

/-! ## Transport (95_test_vectors.md V1) -/

/-- V1.4. -/
theorem test_repeat_byte : (run (repeatByte 0xFF 3) State.reset).state?.map State.events
    = some [.dc .data, .xfer [0xFF], .xfer [0xFF], .xfer [0xFF]] := by decide

/-- V1.5 and V1.13. -/
theorem test_reset_pulse :
    (run (resetPulse Config.std) State.reset).state?.map State.events
      = some [.rst .low, .dly 10, .rst .high, .dly 10] ∧
    (run (resetPulse Config.std) (failing 1 busFault State.reset)).state?.map State.events
      = some [.rst .low, .dly 10, .rstFail .high] := by decide

/-- V1.12. -/
theorem test_command_with_data_fails :
    run (sendCommandWithData 0x01 [0xC7, 0x00, 0x00]) (failing 3 busFault State.reset)
      = .err .busWriteError { State.reset with
          pinDc := .data, useq := 3, portFeed := ⟨[], .ok⟩,
          trace := [.xferFail [0xC7, 0x00, 0x00] .busWriteError, .dc .data, .xfer [0x01], .dc .cmd] } := by
  decide

/-! ## Driver operations (95_test_vectors.md V3) -/

/-- The full frame of the 200 by 200 panel, `SFF` of 95_test_vectors.md. -/
def fullFrame : List Event :=
  [cmd 0x44, dat [0x00, 0x18], cmd 0x45, dat [0x00, 0x00, 0xC7, 0x00], cmd 0x4E, dat [0x00], cmd 0x4F,
    dat [0x00, 0x00]].flatten

/-- The full frame of the 16 by 4 panel, by 42_driver_ops.md R164: X bytes 0 and 15/8 = 1, Y 0 and 3. -/
def smallFrame : List Event :=
  [cmd 0x44, dat [0x00, 0x01], cmd 0x45, dat [0x00, 0x00, 0x03, 0x00], cmd 0x4E, dat [0x00], cmd 0x4F,
    dat [0x00, 0x00]].flatten

/-- The trace of V3.1. -/
def initTrace : List Event :=
  [[.rst .low, .dly 10, .rst .high, .dly 10], cmd 0x12, [.poll .idle], cmd 0x01, dat [0xC7, 0x00, 0x00],
    cmd 0x11, dat [0x03], fullFrame, cmd 0x3C, dat [0x05], cmd 0x18, dat [0x80], [.poll .idle]].flatten

/-- V3.1: `INIT` from reset. -/
theorem test_init : after (step (asked State.reset [0x00])) = some
      ⟨.ready, false, initTrace, [[0x00]]⟩ := by
  decide +kernel

/-- V3.4, the row of primitive 11: seven answers are `ok`, the next is not. -/
theorem test_init_fails :
    after (step (asked (failing 7 busFault State.reset) [0x00])) = some
      ⟨.faulted, false,
      [[.rst .low, .dly 10, .rst .high, .dly 10], cmd 0x12, [.poll .idle], cmd 0x01,
        [.dc .data, .xferFail [0xC7, 0x00, 0x00] .busWriteError]].flatten, [[0x02]]⟩ := by decide +kernel

/-- V3.5. -/
theorem test_set_ram_window :
    after (step (asked ready [0x01, 0x08, 0x00, 0x10, 0x00, 0x3F, 0x00, 0x2F, 0x00])) = some
      ⟨.ready, false, sends 0x44 [0x01, 0x07] ++ sends 0x45 [0x10, 0x00, 0x2F, 0x00],
        [[0x00]]⟩ := by decide

/-- V3.6: a misordered window aborts; one too wide is refused though it is misordered too. -/
theorem test_set_ram_window_checks :
    after (step (asked ready [0x01, 0x05, 0x00, 0x00, 0x00, 0x05, 0x00, 0x0A, 0x00]))
      = some ⟨.ready, true, [], []⟩ ∧
    refusal? (step (asked ready [0x01, 0x00, 0x08, 0x00, 0x00, 0xFF, 0x07, 0x01, 0x00]))
      = some .operandTooWide := by decide

/-- V3.7. -/
theorem test_set_ram_cursor :
    after (step (asked ready [0x02, 0x17, 0x00, 0xC7, 0x00])) = some
      ⟨.ready, false, sends 0x4E [0x02] ++ sends 0x4F [0xC7, 0x00], [[0x00]]⟩ ∧
    refusal? (step (asked ready [0x02, 0x00, 0x08, 0x00, 0x00])) = some .operandTooWide := by decide

/-- V3.8. -/
theorem test_select_full_frame :
    after (step (asked ready [0x03])) = some
      ⟨.ready, false, fullFrame, [[0x00]]⟩ := by decide

/-- V3.9 at eight bytes a plane, and V3.16's failure of the data transfer. -/
theorem test_update_bw_frame :
    after (step (asked small [0x04, 0x08, 0x00, 1, 2, 3, 4, 5, 6, 7, 8])) = some
      ⟨.ready, false, smallFrame ++ sends 0x24 [1, 2, 3, 4, 5, 6, 7, 8], [[0x00]]⟩ ∧
    after (step (asked (failing 19 busFault small) [0x04, 0x08, 0x00, 1, 2, 3, 4, 5, 6, 7, 8])) = some
      ⟨.faulted, false, [smallFrame, cmd 0x24,
        [.dc .data, .xferFail [1, 2, 3, 4, 5, 6, 7, 8] .busWriteError]].flatten, [[0x02]]⟩ := by decide +kernel

/-- V3.10, and V3.11's wrong lengths. -/
theorem test_update_red_frame :
    after (step (asked small [0x05, 0x08, 0x00, 1, 2, 3, 4, 5, 6, 7, 8])) = some
      ⟨.ready, false, smallFrame ++ sends 0x26 [1, 2, 3, 4, 5, 6, 7, 8], [[0x00]]⟩ ∧
    refusal? (step (asked small [0x05, 0x07, 0x00, 1, 2, 3, 4, 5, 6, 7])) = some .bufferLength ∧
    refusal? (step (asked ready [0x05, 0x00, 0x00])) = some .bufferLength := by decide +kernel

/-- V3.12 at eight bytes a plane, flattened. -/
theorem test_clear_bw_frame :
    (next? (step (asked small [0x06]))).map (fun t => flatten t.events) = some
      (smallFrame ++ sends 0x24 [0xFF, 0xFF, 0xFF, 0xFF, 0xFF, 0xFF, 0xFF, 0xFF]) := by
  decide +kernel

/-- V3.13 at eight bytes a plane, flattened. -/
theorem test_clear_red_frame :
    (next? (step (asked small [0x07]))).map (fun t => flatten t.events) = some
      (smallFrame ++ sends 0x26 [0, 0, 0, 0, 0, 0, 0, 0]) := by decide +kernel

/-- V3.14: the panel idle at once; the panel busy: the operation is in progress at its sample. -/
theorem test_display_frame :
    after (step (asked ready [0x08])) = some
      ⟨.ready, false, [sends 0x22 [0xF7], cmd 0x20, [.poll .idle]].flatten, [[0x00]]⟩ ∧
    (next? (step (asked (stuck ready) [0x08]))).map (fun t => (t.curOp, t.useq, t.events, t.responses))
      = some (some .displayFrame, 6,
        [sends 0x22 [0xF7], cmd 0x20, [.poll .busy, .dly 1]].flatten, []) := by decide

/-- V1.7 at the wait of V3.14: a later idle sample ends the operation. -/
theorem test_display_frame_goes_on :
    after (step { ready with curOp := some .displayFrame, useq := 6 })
      = some ⟨.ready, false, [.poll .idle], [[0x00]]⟩ := by decide

/-- V3.15 and V6.17. -/
theorem test_admission :
    refusal? (step (asked State.reset [0x03])) = some .beforeInit ∧
    refusal? (step (asked faulted [0x00])) = some .useAfterFault ∧
    refusal? (step (asked { ready with halted := true } [0x00])) = some .halted ∧
    refusal? (step (asked { ready with halted := true } [0x0D])) = some .halted := by decide

/-- A block reset in place of a step, and a second one after another failure (70_reset_and_hazards.md R260,
R279). -/
theorem test_block_reset :
    (next? (step { faulted with halted := true, resets := [⟨0, PowerUp.zero⟩] })).map
      (fun t => (t.fsm, t.halted, t.resets)) = some (.uninitialized, false, []) ∧
    (match Host.Core.run Sys2Proof.core 4
        { failing 0 busFault ready with
          requests := [[0x08], [0x00], [0x00]]
          portFeed := ⟨[.fail busFault, .fail busFault], .ok⟩
          resets := [⟨1, PowerUp.zero⟩, ⟨1, PowerUp.zero⟩] } with
      | .next t => some (t.fsm, t.requests, t.resets)
      | .fault _ => none
      | .refused _ => none) = some (.uninitialized, [[0x00]], []) := by decide

/-! ## Wire commands (95_test_vectors.md V2) -/

/-- The trace a wire command sends. -/
def wireTrace (s : State) (bytes : List Byte) : Option (List Event) :=
  (next? (step (s.withFrame (.wire bytes)))).map State.events

theorem test_wire_constants :
    wireTrace State.reset [0x12] = some (cmd 0x12) ∧
    wireTrace State.reset [0x01, 0xC7, 0x00, 0x00] = some (sends 0x01 [0xC7, 0x00, 0x00]) ∧
    wireTrace State.reset [0x11, 0x03] = some (sends 0x11 [0x03]) ∧
    wireTrace State.reset [0x3C, 0x05] = some (sends 0x3C [0x05]) ∧
    wireTrace State.reset [0x18, 0x80] = some (sends 0x18 [0x80]) ∧
    wireTrace State.reset [0x22, 0xF7] = some (sends 0x22 [0xF7]) ∧
    wireTrace State.reset [0x20] = some (cmd 0x20) := by decide

/-- V2.3: the largest height. -/
theorem test_driver_control_height :
    (next? (exec .driverControl (emitting .driverControl
      { ready with cfg := { Config.std with height := 256 } }))).map
      State.events = some (sends 0x01 [0xFF, 0x00, 0x00]) := by decide

/-- The trace a wire command sends where the operation in progress goes on with it. -/
def emitted (i : Instr) (s : State) : Option (List Event) :=
  (next? (exec i (emitting i s))).map fun t => flatten t.events

/-- V2.6, V2.8, V2.10, V2.11, V2.14, V2.16. -/
theorem test_wire_operands :
    emitted (.setRamXPos 8 63) ready = some (sends 0x44 [0x01, 0x07]) ∧
    emitted (.setRamXPos 0 2047) ready = some (sends 0x44 [0x00, 0xFF]) ∧
    emitted (.setRamYPos 16 47) ready = some (sends 0x45 [0x10, 0x00, 0x2F, 0x00]) ∧
    emitted (.setRamYPos 0 65535) ready = some (sends 0x45 [0x00, 0x00, 0xFF, 0xFF]) ∧
    emitted (.setRamXCount 23) ready = some (sends 0x4E [0x02]) ∧
    emitted (.setRamYCount 300) ready = some (sends 0x4F [0x2C, 0x01]) := by
  decide

/-- V2.19 to V2.22 at eight bytes a plane. -/
theorem test_wire_planes :
    wireTrace small [0x24, 0, 1, 2, 3, 4, 5, 6, 7] = some (sends 0x24 [0, 1, 2, 3, 4, 5, 6, 7]) ∧
    wireTrace small [0x26, 0, 1, 2, 3, 4, 5, 6, 7] = some (sends 0x26 [0, 1, 2, 3, 4, 5, 6, 7]) ∧
    emitted (.writeBwRam .clear) small
      = some (sends 0x24 [0xFF, 0xFF, 0xFF, 0xFF, 0xFF, 0xFF, 0xFF, 0xFF]) ∧
    emitted (.writeRedRam .clear) small = some (sends 0x26 [0, 0, 0, 0, 0, 0, 0, 0]) := by decide +kernel

/-- 41_wire_commands.md R153 and R140: no command between operations, none but the next one inside an
operation, none in a state the operation is not in; a failure is the operation's. -/
theorem test_wire_inside :
    refusal? (exec .swReset ready) = some .notInProcedure ∧
    refusal? (exec .swReset faulted) = some .notInProcedure ∧
    refusal? (exec .dataMode (emitting .swReset ready)) = some .notInProcedure ∧
    refusal? (exec .swReset { emitting .swReset ready with fsm := .uninitialized })
      = some .notInProcedure ∧
    (next? (exec .swReset (emitting .swReset ready))).map (fun t => (t.fsm, t.curOp, t.useq, t.responses))
      = some (.softwareReset, some .init, 6, []) ∧
    (next? (exec .swReset (emitting .swReset (failing 1 csFault ready)))).map
      (fun t => (t.fsm, t.curOp, t.responses)) = some (.faulted, none, [[0x04]]) := by decide

/-! ## Framebuffer operations (95_test_vectors.md V4 to V6) -/

/-- V5.1: points of the 200 by 200 panel, one for each rotation and each way a digit can go wrong. -/
theorem test_mapper :
    mapPixel Config.std .r0 13 77 = (1926, 0x04) ∧ mapPixel Config.std .r90 100 50 = (2518, 0x04) ∧
    mapPixel Config.std .r180 100 50 = (3737, 0x10) ∧ mapPixel Config.std .r270 13 77 = (4659, 0x04) ∧
    mapPixel Config.std .r90 0 0 = (24, 0x01) ∧ mapPixel Config.std .r180 8 0 = (4998, 0x01) ∧
    mapPixel Config.std .r270 0 8 = (4976, 0x80) ∧ mapPixel Config.std .r90 0 7 = (24, 0x80) := by decide

/-- V5.2: points of the 16 by 4 panel. -/
theorem test_mapper_small :
    mapPixel smallConfig .r0 15 3 = (7, 0x01) ∧ mapPixel smallConfig .r180 8 1 = (4, 0x01) ∧
    mapPixel smallConfig .r90 3 15 = (6, 0x80) ∧ mapPixel smallConfig .r270 0 8 = (7, 0x80) ∧
    mapPixel smallConfig .r90 1 0 = (3, 0x01) ∧ mapPixel smallConfig .r270 3 1 = (0, 0x40) := by decide

/-- V4: a byte of each plane before and after. -/
theorem test_put_bits :
    (putBits 0xA5 0x40 (planeBits .white).1, putBits 0x5A 0x40 (planeBits .white).2) = (0xE5, 0x1A) ∧
    (putBits 0xA5 0x01 (planeBits .red).1, putBits 0x5A 0x01 (planeBits .red).2) = (0xA5, 0x5B) ∧
    (putBits 0xA5 0x80 (planeBits .black).1, putBits 0x5A 0x80 (planeBits .black).2) = (0x25, 0x5A) := by
  decide

/-- V6.1 to V6.3 at eight bytes a plane. -/
theorem test_fb_clear :
    (next? (step (asked small [0x09, 0x00]))).map
      (fun t => (readPlane smallConfig t.black, readPlane smallConfig t.red))
      = some (List.replicate 8 0x00, List.replicate 8 0x00) ∧
    (next? (step (asked small [0x09, 0x01]))).map
      (fun t => (readPlane smallConfig t.black, readPlane smallConfig t.red))
      = some (List.replicate 8 0xFF, List.replicate 8 0x00) ∧
    (next? (step (asked small [0x09, 0x02]))).map
      (fun t => (readPlane smallConfig t.black, readPlane smallConfig t.red))
      = some (List.replicate 8 0xFF, List.replicate 8 0xFF) := by decide +kernel

/-- V6.5 and V6.18: the pixel is written after a failure too; the other byte of the row stays. -/
theorem test_fb_set_pixel :
    (next? (step (asked { faulted with black := [(0, 0xFF), (1, 0xFF)] }
      [0x0A, 0x00, 0x00, 0x00, 0x00, 0x00]))).map (fun t => (t.black, t.red, t.fsm, t.responses))
      = some ([(0, 0x7F), (1, 0xFF)], [], .faulted, [[0x00]]) := by decide +kernel

/-- V5.3. -/
theorem test_fb_set_pixel_range :
    refusal? (exec (.fbSetPixel 200 0 .red) ready) = some .pixelOutOfRange ∧
    refusal? (exec (.fbSetPixel 4 0 .red) { small with rot := .r90 }) = some .pixelOutOfRange ∧
    (next? (exec (.fbSetPixel 3 15 .red) { small with rot := .r90 })).map (fun t => (t.black, t.red))
      = some ([(6, 0x80)], [(6, 0x80)]) := by decide

/-- V6.8. -/
theorem test_fb_set_rotation :
    (next? (step (asked ready [0x0B, 0x03]))).map (fun t => (t.rot, t.responses))
      = some (.r270, [[0x00]]) := by decide

/-- V6.10. -/
theorem test_fb_rotation :
    (next? (step (asked { ready with rot := .r270 } [0x0C]))).map State.responses
      = some [[0x00, 0x03]] := by decide

/-- V6.11 and V6.12. -/
theorem test_fb_size :
    (next? (step (asked ready [0x0D]))).map State.responses = some [[0x00, 0xC8, 0x00, 0xC8, 0x00]] ∧
    (next? (step (asked { small with rot := .r90 } [0x0D]))).map State.responses
      = some [[0x00, 0x04, 0x00, 0x10, 0x00]] := by decide

/-- V6.13 and V6.14 at eight bytes a plane, with the planes unlike each other. -/
theorem test_fb_plane_reads :
    (next? (step (asked { small with black := [(1, 0xFE), (7, 0x01)] } [0x0E]))).map State.responses
      = some [[0x00, 0x00, 0xFE, 0, 0, 0, 0, 0, 0x01]] ∧
    (next? (step (asked { small with black := [(1, 0xFE)], red := [(0, 0x80)] } [0x0F]))).map
      State.responses = some [[0x00, 0x80, 0, 0, 0, 0, 0, 0, 0]] := by decide

/-- Program P2's two colours of one plane point, by `FB_DRAW`: the later pair wins. -/
theorem test_fb_draw :
    (next? (fbDraw [(3, 1, .red), (3, 1, .black), (0, 0, .white)] small)).map
      (fun t => (t.black, t.red, t.responses.length)) = some ([(0, 0x80)], [], 3) := by decide

/-- P1: `CONSTRUCT`. -/
theorem test_construct :
    (next? (construct PowerUp.zero faulted)).map (fun t => (t.fsm, t.pinRst, t.pinDc, t.responses))
      = some (.ready, .high, .data, [[0x00]]) := by decide +kernel

/-! ## Witnesses: for each statement of Obligations.lean, states and operands that meet its hypotheses -/

theorem small_valid : smallConfig.Valid := by constructor <;> decide

theorem ready_driverReady : DriverReady ready := ⟨⟨rfl, rfl⟩, rfl, Config.std_valid⟩

theorem small_driverReady : DriverReady small := ⟨⟨rfl, rfl⟩, rfl, small_valid⟩

theorem reset_initReady : InitReady State.reset := ⟨⟨rfl, rfl⟩, .inl rfl, Config.std_valid⟩

/-- The environment of reset never fails, and its panel is idle. -/
theorem quiet_reset : NoTransportFault State.reset ∧ PanelEventuallyIdle State.reset ∧
    (∀ n, OkFor n State.reset) ∧ ∀ n, IdleFor n State.reset :=
  ⟨⟨nofun, rfl⟩, rfl, fun n k _ => by simp [State.reset, State.launch, Feed.head, Feed.drop],
    fun n k _ => by simp [State.reset, State.launch, Feed.head, Feed.drop]⟩

theorem quiet_ready : NoTransportFault ready ∧ (∀ n, IdleFor n ready) ∧ NoTransportFault small ∧
    ∀ n, IdleFor n small :=
  ⟨quiet_reset.1, quiet_reset.2.2.2, quiet_reset.1, quiet_reset.2.2.2⟩

/-- `failing n` answers `ok` `n` times and then fails. -/
theorem failing_meets (n : Nat) (f : PortFault) (s : State) :
    OkFor n (failing n f s) ∧ FailsAfter n f (failing n f s) := by
  constructor
  · intro k hk
    simp [failing, Feed.head, Feed.drop, List.headD_eq_head?_getD, List.getElem?_append, hk]
  · simp [FailsAfter, failing, Feed.head, Feed.drop]

theorem planeOk_nil (c : Config) : PlaneOk c [] := ⟨⟨.nil, nofun⟩, nofun⟩

theorem planesOk_ready : PlanesOk ready ∧ PlanesOk small :=
  ⟨⟨planeOk_nil _, planeOk_nil _, nofun⟩, ⟨planeOk_nil _, planeOk_nil _, nofun⟩⟩

theorem witness_BlockResetGivesTheResetValues :
    ({ faulted with resets := [⟨0, PowerUp.zero⟩] } : State).resets = [⟨0, PowerUp.zero⟩] := rfl

theorem witness_NothingHappensOfItsOwnAccord :
    State.reset.curOp = none ∧ nextFrame State.reset = none ∧ State.reset.resets = [] := by decide

/-- Without a block reset to come, and with one a step away; between operations and at a wait. -/
theorem witness_StepRunsTheDecodedInstruction :
    (asked ready [0x08]).curOp = none ∧ (asked ready [0x08]).halted = false ∧
    nextFrame (asked ready [0x08]) = some (.host [0x08], ready) ∧
    decodeFrame ready.cfg (.host [0x08]) = some .displayFrame ∧ (asked ready [0x08]).resets = [] ∧
    ({ asked ready [0x08] with resets := [⟨1, PowerUp.zero⟩] } : State).resets
      = [⟨0 + 1, PowerUp.zero⟩] ∧
    (ready.inside .displayFrame 6).curOp = some .displayFrame ∧
    (ready.inside .displayFrame 6).wireSlot = none ∧ (ready.inside .displayFrame 6).resets = [] := by
  decide

theorem witness_HostRequestRoundTrip :
    (Instr.fbSetPixel 65535 0 .red).isWire = false ∧
    (Instr.fbSetPixel 65535 0 .red).wellFormed Config.std = true ∧
    (Instr.updateBwFrame (List.replicate 65535 0)).wellFormed Config.std = true := by
  refine ⟨rfl, rfl, ?_⟩
  simp only [Instr.wellFormed, fitsLength, List.length_replicate]
  decide

theorem witness_WireCommandRoundTrip :
    Config.std.Valid ∧ (Instr.setRamXPos 0 2047).isWire = true ∧
    (Instr.setRamXPos 0 2047).wellFormed Config.std = true := ⟨Config.std_valid, by decide⟩

theorem witness_DecodingIsExact :
    decodeFrame Config.std (.host [0x0B, 0x03]) = some (.fbSetRotation .r270) ∧
    decodeFrame Config.std (.wire [0x4E, 0xFF]) = some (.setRamXCount 2040) := by decide

/-- One request for each clause: the first and last reserved selector, the first reserved code of each
kind, a wrong length, no byte. -/
theorem witness_ReservedEncodingsAreRefused :
    (∀ bytes ∈ ([[0x10], [0xFF, 0x00], [0x09, 0x03], [0x0A, 0, 0, 0, 0, 0x03], [0x0B, 0x04],
      [0x00, 0x00], []] : List (List Byte)),
      (asked ready bytes).halted = false ∧ (asked ready bytes).curOp = none ∧
      (asked ready bytes).resets = [] ∧ (asked ready bytes).requests = [bytes]) ∧
    0x10 ≤ (0x10 : Byte).toNat ∧ 3 ≤ (0x03 : Byte).toNat ∧ 4 ≤ (0x04 : Byte).toNat ∧
    HostOp.selector .init = 0x00 ∧ [0x00, 0x00].length ≠ requestLength .init [0x00, 0x00] := by decide

theorem witness_SendsDriveThePinThenTheBytes :
    ([0x00] : List Byte) ≠ [] ∧ OkFor 2 State.reset ∧
    FailsAfter 0 busFault (failing 0 busFault State.reset) ∧
    OkFor 1 (failing 1 busFault State.reset) ∧ FailsAfter 1 busFault (failing 1 busFault State.reset) :=
  ⟨by simp, quiet_reset.2.2.1 2, (failing_meets 0 _ _).2, failing_meets 1 _ _⟩

theorem witness_SendCommandWithDataIsBothInOrder :
    (∃ u, run (sendCommand 0x11) State.reset = .done u) ∧
    ∃ k u, run (sendCommand 0x11) (failing 0 busFault State.reset) = .err k u :=
  ⟨⟨_, rfl⟩, ⟨_, _, rfl⟩⟩

/-- The first and the last transfer of three can fail, and the only one of one. -/
theorem witness_RepeatByteSendsTheByteNTimes :
    1 ≤ 1 ∧ OkFor (3 + 1) State.reset ∧ FailsAfter 0 busFault (failing 0 busFault State.reset) ∧
    (0 < 3 ∧ OkFor (0 + 1) (failing 1 busFault State.reset) ∧
      FailsAfter (0 + 1) busFault (failing 1 busFault State.reset)) ∧
    (2 < 3 ∧ OkFor (2 + 1) (failing 3 busFault State.reset) ∧
      FailsAfter (2 + 1) busFault (failing 3 busFault State.reset)) :=
  ⟨by decide, quiet_reset.2.2.1 _, (failing_meets 0 _ _).2, ⟨by decide, failing_meets 1 _ _⟩,
    by decide, failing_meets 3 _ _⟩

theorem witness_ResetPulsesTheLine :
    OkFor 2 State.reset ∧ FailsAfter 0 busFault (failing 0 busFault State.reset) ∧
    OkFor 1 (failing 1 busFault State.reset) ∧ FailsAfter 1 busFault (failing 1 busFault State.reset) :=
  ⟨quiet_reset.2.2.1 2, (failing_meets 0 _ _).2, failing_meets 1 _ _⟩

/-- `INIT` from both states that admit it. -/
theorem witness_InitConfiguresThePanel :
    InitReady State.reset ∧ NoTransportFault State.reset ∧ IdleFor 2 State.reset ∧
    InitReady ready ∧ NoTransportFault ready ∧ IdleFor 2 ready :=
  ⟨reset_initReady, quiet_reset.1, quiet_reset.2.2.2 2, ⟨⟨rfl, rfl⟩, .inr rfl, Config.std_valid⟩,
    quiet_ready.1, quiet_ready.2.1 2⟩

theorem witness_SetRamWindowSendsTheBounds :
    DriverReady ready ∧ NoTransportFault ready ∧ (2046 : U16).toNat < 2048 ∧ (2047 : U16).toNat < 2048 ∧
    (2046 : U16).toNat < (2047 : U16).toNat ∧ (0 : U16).toNat < (65535 : U16).toNat :=
  ⟨ready_driverReady, quiet_ready.1, by decide⟩

theorem witness_SetRamCursorSendsTheCursor :
    DriverReady ready ∧ NoTransportFault ready ∧ (2047 : U16).toNat < 2048 :=
  ⟨ready_driverReady, quiet_ready.1, by decide⟩

/-- Also of `ClearsSendTheClearByte` and `ClearLooksLikeAnUploadOfTheClearByte`. -/
theorem witness_SelectFullFrameSendsTheFullFrame : DriverReady ready ∧ NoTransportFault ready :=
  ⟨ready_driverReady, quiet_ready.1⟩

theorem witness_UploadsSendTheBuffer :
    DriverReady small ∧ NoTransportFault small ∧
    ([0, 1, 2, 3, 4, 5, 6, 7] : List Byte).length = small.cfg.planeBytes :=
  ⟨small_driverReady, quiet_ready.2.2.1, by decide⟩

theorem witness_ClearsSendTheClearByte : DriverReady small ∧ NoTransportFault small :=
  ⟨small_driverReady, quiet_ready.2.2.1⟩

theorem witness_DisplayFrameTriggersTheRefresh :
    DriverReady ready ∧ NoTransportFault ready ∧ IdleFor 1 ready :=
  ⟨ready_driverReady, quiet_ready.1, quiet_ready.2.1 1⟩

/-- The small panel's operations, at a position that goes on with a command. -/
theorem goesOn {op : Instr} {n : Nat} {checks command rest : List Action}
    (h : skipPrims n (driverProcedure smallConfig op) = checks ++ command ++ rest)
    (hn : ∀ p, .prim p ∉ checks) (ho : operandsOk smallConfig op) :
    GoesOnWith (small.inside op n) op command :=
  ⟨rfl, small_valid, rfl, ho, rfl, checks, rest, h, hn⟩

/-- A state for each command, its operands at the ends of their ranges. -/
theorem witness_WireCommandsSendTheirBytes :
    NoTransportFault small ∧
    GoesOnWith (small.inside .init 4) .init (emitSwReset smallConfig) ∧
    GoesOnWith (small.inside .init 7) .init (emitDriverControl smallConfig) ∧
    GoesOnWith (small.inside .init 11) .init (emitDataMode smallConfig) ∧
    GoesOnWith (small.inside (.setRamWindow 0 0 2047 65535) 0) (.setRamWindow 0 0 2047 65535)
      (emitSetRamXPos smallConfig 0 2047) ∧
    GoesOnWith (small.inside (.setRamWindow 0 0 2047 65535) 4) (.setRamWindow 0 0 2047 65535)
      (emitSetRamYPos smallConfig 0 65535) ∧
    GoesOnWith (small.inside (.setRamCursor 2047 65535) 0) (.setRamCursor 2047 65535)
      (emitSetRamXCount smallConfig 2047) ∧
    GoesOnWith (small.inside (.setRamCursor 2047 65535) 4) (.setRamCursor 2047 65535)
      (emitSetRamYCount smallConfig 65535) ∧
    GoesOnWith (small.inside .init 31) .init (emitWriteBorder smallConfig) ∧
    GoesOnWith (small.inside .init 35) .init (emitTempControl smallConfig) ∧
    GoesOnWith (small.inside (.updateBwFrame [0, 1, 2, 3, 4, 5, 6, 7]) 16)
      (.updateBwFrame [0, 1, 2, 3, 4, 5, 6, 7])
      (emitWriteBwRam smallConfig (.buffer [0, 1, 2, 3, 4, 5, 6, 7])) ∧
    GoesOnWith (small.inside (.updateRedFrame [0, 1, 2, 3, 4, 5, 6, 7]) 16)
      (.updateRedFrame [0, 1, 2, 3, 4, 5, 6, 7])
      (emitWriteRedRam smallConfig (.buffer [0, 1, 2, 3, 4, 5, 6, 7])) ∧
    GoesOnWith (small.inside .clearBwFrame 16) .clearBwFrame (emitWriteBwRam smallConfig .clear) ∧
    GoesOnWith (small.inside .clearRedFrame 16) .clearRedFrame (emitWriteRedRam smallConfig .clear) ∧
    GoesOnWith (small.inside .displayFrame 0) .displayFrame (emitDispCtrl2 smallConfig) ∧
    GoesOnWith (small.inside .displayFrame 4) .displayFrame (emitMasterActivate smallConfig) := by
  refine ⟨quiet_ready.2.2.1,
    goesOn (checks := [.fsm .softwareReset]) (rest := skipPrims 6 (initProcedure smallConfig)) rfl
      (by simp) trivial,
    goesOn (checks := [.fsm .configuring]) (rest := skipPrims 11 (initProcedure smallConfig)) rfl
      (by simp) trivial,
    goesOn (checks := []) (rest := skipPrims 15 (initProcedure smallConfig)) rfl (by simp) trivial,
    goesOn (checks := [.contract true]) (rest := emitSetRamYPos smallConfig 0 65535) rfl (by simp) ?_,
    goesOn (checks := []) (rest := []) rfl (by simp) ?_,
    goesOn (checks := []) (rest := emitSetRamYCount smallConfig 65535) rfl (by simp) ?_,
    goesOn (checks := []) (rest := []) rfl (by simp) ?_,
    goesOn (checks := []) (rest := skipPrims 35 (initProcedure smallConfig)) rfl (by simp) trivial,
    goesOn (checks := []) (rest := skipPrims 39 (initProcedure smallConfig)) rfl (by simp) trivial,
    goesOn (checks := []) (rest := []) rfl (by simp) rfl,
    goesOn (checks := []) (rest := []) rfl (by simp) rfl,
    goesOn (checks := []) (rest := []) rfl (by simp) trivial,
    goesOn (checks := []) (rest := []) rfl (by simp) trivial,
    goesOn (checks := []) (rest := skipPrims 4 (displayProcedure smallConfig)) rfl (by simp) trivial,
    goesOn (checks := []) (rest := waitUntilIdle) rfl (by simp) trivial⟩ <;>
  simp only [operandsOk] <;> decide

/-- A command that is over and one that fails, a request, and a command between operations. -/
theorem witness_WireCommandsRunInsideDriverProcedures :
    decodeRequest [0x00] = some .init ∧ Instr.swReset.isWire = true ∧
    Instr.swReset.wellFormed ready.cfg = true ∧ ready.halted = false ∧ ready.curOp = none ∧
    (next? (exec .swReset (emitting .swReset ready))).map State.curOp = some (some .init) ∧
    (next? (exec .swReset (emitting .swReset (failing 0 busFault ready)))).map State.curOp
      = some none := by decide

/-- The first and the last byte of a plane. Also of `PlaneReadsAnswerThePlane`. -/
theorem witness_FbClearFillsBothPlanes :
    Accepting small ∧ 0 < small.cfg.planeBytes ∧ 7 < small.cfg.planeBytes := ⟨⟨rfl, rfl⟩, by decide⟩

/-- The last pixel at each extent, and the bytes it is in. -/
theorem witness_SetPixelWritesOneBitOfEachPlane :
    Accepting small ∧ small.cfg.Valid ∧ PlanesOk small ∧
    InRange small.cfg small.rot (15 : U16).toNat (3 : U16).toNat ∧
    InRange small.cfg .r90 (3 : U16).toNat (15 : U16).toNat ∧
    mapPixel small.cfg small.rot (15 : U16).toNat (3 : U16).toNat = (7, 0x01) ∧
    readByte small.cfg small.black 7 = some 0x00 ∧ readByte small.cfg small.red 7 = some 0x00 :=
  ⟨⟨rfl, rfl⟩, small_valid, planesOk_ready.2, by decide⟩

/-- Also of `RotationAnswersTheCode`; a halted block is none. -/
theorem witness_SetRotationWritesRotAlone : Accepting State.reset ∧ Accepting faulted :=
  ⟨⟨rfl, rfl⟩, ⟨rfl, rfl⟩⟩

theorem witness_RotationAnswersTheCode : Accepting { ready with rot := .r270 } := ⟨rfl, rfl⟩

theorem witness_SizeAnswersTheLogicalExtent :
    Accepting small ∧ small.cfg.Valid ∧ small.rot = .r0 ∧
    Accepting { small with rot := .r90 } ∧ ({ small with rot := .r90 } : State).rot = .r90 :=
  ⟨⟨rfl, rfl⟩, small_valid, rfl, ⟨rfl, rfl⟩, rfl⟩

theorem witness_PlaneReadsAnswerThePlane :
    Accepting small ∧ 0 < small.cfg.planeBytes ∧ 7 < small.cfg.planeBytes := ⟨⟨rfl, rfl⟩, by decide⟩

theorem witness_MapperIsABijection :
    smallConfig.Valid ∧ InRange smallConfig .r90 3 15 ∧ InRange smallConfig .r90 0 0 ∧
    7 < smallConfig.planeBytes ∧ 7 < 8 ∧ ({ Config.std with width := 12 } : Config).width = 12 :=
  ⟨small_valid, by decide⟩

theorem witness_SetPixelChangesThatPixelAlone :
    small.cfg.Valid ∧ PlanesOk small ∧ (∃ t, exec (.fbSetPixel 15 3 .red) small = .next t) ∧
    InRange small.cfg small.rot 14 3 ∧ (14, 3) ≠ ((15 : U16).toNat, (3 : U16).toNat) :=
  ⟨small_valid, planesOk_ready.2, ⟨_, rfl⟩, by decide⟩

theorem witness_NoInstructionMakesRedWithoutBlackBit :
    (∃ t, exec (.fbClear .red) small = .next t) ∧ PlanesOk small ∧ NoRedWithoutBlackBit small ∧
    (∃ t, exec (.fbSetPixel 15 3 .red) small = .next t) ∧ NoResetDue small ∧
    ∃ t, step (small.inside .displayFrame 6) = .next t :=
  ⟨⟨_, rfl⟩, planesOk_ready.2, fun _ _ => (by decide : (0 : Byte) &&& ~~~(0 : Byte) = 0), ⟨_, rfl⟩,
    nofun, _, rfl⟩

theorem witness_DrawAppliesThePairsInOrder :
    Accepting small ∧ small.cfg.Valid ∧ PlanesOk small ∧
    (∀ p ∈ [((0 : U16), (0 : U16), Color.red), (15, 3, Color.black), (0, 0, Color.white)],
      InRange small.cfg small.rot p.1.toNat p.2.1.toNat) ∧
    ¬ InRange small.cfg small.rot (16 : U16).toNat (0 : U16).toNat :=
  ⟨⟨rfl, rfl⟩, small_valid, planesOk_ready.2, by decide⟩

/-- A halted block, one before `INIT`, one after a failure, and a ready one. -/
theorem witness_AdmissionFollowsTheTable :
    ready.curOp = none ∧ ({ ready with halted := true } : State).halted = true ∧
    State.reset.halted = false ∧ Instr.selectFullFrame.isDriver = true ∧
    Instr.selectFullFrame ≠ .init ∧ State.reset.fsm = .uninitialized ∧ faulted.fsm = .faulted ∧
    faulted.halted = false ∧ ready.cfg.Valid ∧ operandsOk ready.cfg (.setRamWindow 0 0 2047 65535) ∧
    ready.fsm = .ready :=
  ⟨rfl, rfl, rfl, rfl, nofun, rfl, rfl, rfl, Config.std_valid, by
    simp only [operandsOk]; decide, rfl⟩

theorem witness_OperandRefusalsComeBeforeTheProcedure :
    DriverReady small ∧ 2048 ≤ (2048 : U16).toNat ∧
    (List.replicate 7 (0 : Byte)).length ≠ small.cfg.planeBytes ∧
    (List.replicate 9 (0 : Byte)).length ≠ small.cfg.planeBytes ∧
    ¬ InRange small.cfg small.rot (16 : U16).toNat (0 : U16).toNat ∧
    ¬ InRange small.cfg small.rot (0 : U16).toNat (4 : U16).toNat :=
  ⟨small_driverReady, by decide⟩

theorem witness_MisorderedWindowAborts :
    DriverReady ready ∧ (5 : U16).toNat < 2048 ∧ (5 : U16).toNat ≤ (5 : U16).toNat ∧
    (9 : U16).toNat ≤ (9 : U16).toNat :=
  ⟨ready_driverReady, by decide⟩

theorem witness_OnlyAMisorderedWindowAborts :
    ready.cfg.Valid ∧ SequencerOk (asked ready [0x01, 5, 0, 0, 0, 5, 0, 10, 0]) ∧
    (asked ready [0x01, 5, 0, 0, 0, 5, 0, 10, 0]).halted = false ∧
    (next? (step (asked ready [0x01, 5, 0, 0, 0, 5, 0, 10, 0]))).map State.halted = some true :=
  ⟨Config.std_valid, ⟨.between rfl rfl rfl, rfl⟩, rfl, by decide⟩

/-- A frame for each check; the widths at their first wrong value, the order at its first. -/
theorem witness_ChecksComeInTheirOrder :
    ready.curOp = none ∧ decodeFrame ready.cfg (.host [0x10]) = none ∧
    decodeFrame State.reset.cfg (.host [0x03]) = some .selectFullFrame ∧
    Instr.selectFullFrame.isDriver = true ∧ State.reset.fsm = .uninitialized ∧
    faulted.fsm = .faulted ∧ ready.fsm = .ready ∧ ready.halted = false ∧
    decodeFrame ready.cfg (.host [0x01, 0x00, 0x08, 0, 0, 0xFF, 0x07, 1, 0])
      = some (.setRamWindow 2048 0 2047 1) ∧ 2048 ≤ (2048 : U16).toNat ∧
    decodeFrame ready.cfg (.host [0x01, 0xFF, 0x07, 0, 0, 0xFF, 0x07, 1, 0])
      = some (.setRamWindow 2047 0 2047 1) ∧ (2047 : U16).toNat < 2048 := by decide

/-- A refusal for each of the seven reasons. -/
theorem witness_EveryRefusalHasItsReason :
    refusal? (acceptFrame (.host [0x00]) { ready with halted := true }) = some .halted ∧
    refusal? (acceptFrame (.host [0x10]) ready) = some .reservedEncoding ∧
    refusal? (acceptFrame (.host [0x03]) State.reset) = some .beforeInit ∧
    refusal? (acceptFrame (.host [0x00]) faulted) = some .useAfterFault ∧
    refusal? (acceptFrame (.host [0x02, 0x00, 0x08, 0, 0]) ready) = some .operandTooWide ∧
    refusal? (acceptFrame (.host [0x04, 0, 0]) ready) = some .bufferLength ∧
    refusal? (acceptFrame (.host [0x0A, 200, 0, 0, 0, 0]) ready) = some .pixelOutOfRange ∧
    ready.curOp = none ∧ ready.fsm.persistent = true ∧ State.reset.fsm.persistent = true ∧
    faulted.fsm.persistent = true := by decide

/-- A failure in the step that starts the operation, and one of `INIT` after its first wait. -/
theorem witness_FailureIsPrecise :
    ready.cfg.Valid ∧ ready.fsm ≠ .faulted ∧
    (next? (exec .selectFullFrame (failing 3 busFault ready))).map State.fsm = some .faulted ∧
    SequencerOk ((failing 3 busFault ready).inside .init 6) ∧
    ((failing 3 busFault ready).inside .init 6).curOp = some .init ∧
    NoResetDue ((failing 3 busFault ready).inside .init 6) ∧
    (next? (step ((failing 3 busFault ready).inside .init 6))).map State.fsm = some .faulted :=
  ⟨Config.std_valid, by decide, by decide, ⟨.initReset rfl rfl rfl rfl, rfl⟩, rfl, nofun, by decide⟩

/-- The fourth primitive of `SELECT_FULL_FRAME` fails, and the second of `INIT` after its first wait; and the
first two of `DISPLAY_FRAME`. -/
theorem witness_DriverOperationsCanFail :
    (Instr.selectFullFrame.isDriver = true ∧
      (next? (exec .selectFullFrame (failing 3 busFault ready).quiet)).map State.events
        = some (((failing 3 busFault ready).events ++ [.dc .cmd, .xfer [0x44], .dc .data])
            ++ Event.xfer [0x00, 0x18] :: fullFrame.drop 4) ∧
      Event.answered (.xfer [0x00, 0x18]) = true ∧
      [Event.dc .cmd, .xfer [0x44], .dc .data].countP Event.answered = 3 ∧
      OkFor 3 (failing 3 busFault ready) ∧ FailsAfter 3 busFault (failing 3 busFault ready) ∧
      IdleFor 2 (failing 3 busFault ready)) ∧
    (SequencerOk ((failing 1 busFault ready).inside .init 6) ∧
      ((failing 1 busFault ready).inside .init 6).curOp = some .init ∧
      NoResetDue ((failing 1 busFault ready).inside .init 6) ∧
      (next? (step ((failing 1 busFault ready).inside .init 6).quiet)).map (fun t => t.events.take 3)
        = some [.poll .idle, .dc .cmd, .xfer [0x01]] ∧
      [Event.poll .idle, .dc .cmd].countP Event.answered = 1 ∧
      OkFor 1 ((failing 1 busFault ready).inside .init 6) ∧
      FailsAfter 1 busFault ((failing 1 busFault ready).inside .init 6) ∧
      IdleFor 2 ((failing 1 busFault ready).inside .init 6)) ∧
    DriverReady (failing 0 busFault ready) ∧ Instr.displayFrame.isDriver = true ∧
    Instr.displayFrame ≠ .init ∧ operandsOk ready.cfg .displayFrame ∧
    FailsAfter 0 busFault (failing 0 busFault ready) ∧ DriverReady (failing 1 csFault ready) ∧
    OkFor 1 (failing 1 csFault ready) ∧ FailsAfter 1 csFault (failing 1 csFault ready) :=
  ⟨⟨rfl, by decide, rfl, rfl, (failing_meets 3 _ _).1, (failing_meets 3 _ _).2, quiet_ready.2.1 2⟩,
    ⟨⟨.initReset rfl rfl rfl rfl, rfl⟩, rfl, nofun, by decide +kernel, rfl,
      (failing_meets 1 busFault ready).1, (failing_meets 1 busFault ready).2, quiet_ready.2.1 2⟩,
    ⟨⟨rfl, rfl⟩, rfl, Config.std_valid⟩, rfl, nofun, trivial, (failing_meets 0 _ _).2,
    ⟨⟨rfl, rfl⟩, rfl, Config.std_valid⟩, failing_meets 1 _ _⟩

theorem witness_InitCanFail :
    InitReady (failing 0 busFault State.reset) ∧ FailsAfter 0 busFault (failing 0 busFault State.reset) ∧
    (OkFor 1 (failing 1 busFault State.reset) ∧ FailsAfter 1 busFault (failing 1 busFault State.reset)) ∧
    (OkFor 2 (failing 2 busFault State.reset) ∧ FailsAfter 2 busFault (failing 2 busFault State.reset)) ∧
    OkFor 3 (failing 3 csFault State.reset) ∧ FailsAfter 3 csFault (failing 3 csFault State.reset) :=
  ⟨⟨⟨rfl, rfl⟩, .inl rfl, Config.std_valid⟩, (failing_meets 0 _ _).2, failing_meets 1 _ _,
    failing_meets 2 _ _, failing_meets 3 _ _⟩

theorem witness_StatusCodesThatCanOccur :
    NoResetDue (asked ready [0x0D]) ∧ (next? (step (asked ready [0x0D]))).isSome = true ∧
    (next? (exec .init (failing 0 busFault State.reset))).map State.responses = some [[0x05]] ∧
    Instr.fbSize.isFramebuffer = true ∧ (next? (exec .fbSize ready)).isSome = true :=
  ⟨nofun, by decide⟩

/-- A step after a failure, a step of a halted block, a block reset. -/
theorem witness_OnlyBlockResetRecovers :
    SequencerOk (asked faulted [0x0D]) ∧ NoResetDue (asked faulted [0x0D]) ∧
    (next? (step (asked faulted [0x0D]))).isSome = true ∧
    SequencerOk { ready with halted := true } ∧
    (next? (step { ready with halted := true })).isSome = true ∧
    ¬ NoResetDue { faulted with resets := [⟨0, PowerUp.zero⟩] } :=
  ⟨⟨.between rfl rfl rfl, rfl⟩, nofun, by decide, ⟨.between rfl rfl rfl, rfl⟩, by decide,
    fun h => h _ _ rfl⟩

/-- A change of each kind: `INIT` taken, a failure in `Ready`, both waits, and each change a wire command run
alone makes. -/
theorem witness_FsmTransitionsFollowTheList :
    ready.cfg.Valid ∧ SequencerOk (asked State.reset [0x00]) ∧ NoResetDue (asked State.reset [0x00]) ∧
    (next? (step (asked State.reset [0x00]))).map State.fsm = some .ready ∧
    SequencerOk (asked (failing 0 busFault ready) [0x08]) ∧
    (next? (step (asked (failing 0 busFault ready) [0x08]))).map State.fsm = some .faulted ∧
    SequencerOk (ready.inside .init 6) ∧
    (next? (step (ready.inside .init 6))).map State.fsm = some .ready ∧
    SequencerOk (ready.inside .init 39) ∧
    (next? (step (ready.inside .init 39))).map State.fsm = some .ready ∧
    (next? (exec .swReset (emitting .swReset ready))).map State.fsm = some .softwareReset ∧
    (next? (exec .driverControl (emitting .driverControl ready))).map State.fsm = some .configuring ∧
    (next? (exec .dataMode (emitting .dataMode (failing 0 busFault ready)))).map State.fsm
      = some .faulted :=
  ⟨Config.std_valid, ⟨.between rfl rfl rfl, rfl⟩, nofun, by decide +kernel, ⟨.between rfl rfl rfl, rfl⟩,
    by decide, ⟨.initReset rfl rfl rfl rfl, rfl⟩, by decide +kernel, ⟨.initEnd rfl rfl rfl rfl, rfl⟩,
    by decide⟩

/-- A driver operation that waits, one that is over, a wire command, and a step after a wait. -/
theorem witness_DriverAndWireFrame :
    ready.cfg.Valid ∧ Instr.displayFrame.isDriver = true ∧
    (next? (exec .displayFrame (stuck ready))).map State.curOp = some (some .displayFrame) ∧
    (next? (exec .selectFullFrame ready)).isSome = true ∧ Instr.selectFullFrame ≠ .init ∧
    Instr.selectFullFrame ≠ .displayFrame ∧ Instr.swReset.isWire = true ∧
    (next? (exec .swReset (emitting .swReset ready))).isSome = true ∧
    (emitting .masterActivate ready).curOp ≠ some .init ∧
    (next? (exec .masterActivate (emitting .masterActivate ready))).isSome = true ∧
    SequencerOk (ready.inside .displayFrame 6) ∧ NoResetDue (ready.inside .displayFrame 6) ∧
    (next? (step (ready.inside .displayFrame 6))).isSome = true :=
  ⟨Config.std_valid, rfl, by decide, by decide, nofun, nofun, rfl, by decide, by decide, by decide,
    ⟨.display rfl rfl rfl rfl, rfl⟩, nofun, by decide⟩

theorem witness_FramebufferFrame :
    Instr.fbRotation.isFramebuffer = true ∧ (next? (exec .fbRotation ready)).isSome = true ∧
    (next? (exec (.fbSetPixel 15 3 .red) small)).isSome = true ∧
    0 ≠ (mapPixel small.cfg small.rot (15 : U16).toNat (3 : U16).toNat).1 := by decide

/-- Also of `StepKeepsThePlanesCanonical`. -/
theorem witness_StepsOnlyAddToTheObservation :
    (next? (step (asked ready [0x08]))).isSome = true ∧ NoResetDue (asked ready [0x08]) ∧
    PlanesOk (asked ready [0x08]) :=
  ⟨by decide, nofun, ⟨planeOk_nil _, planeOk_nil _, nofun⟩⟩

theorem witness_StepKeepsThePlanesCanonical :
    PlanesOk (asked small [0x0A, 15, 0, 3, 0, 2]) ∧
    (next? (step (asked small [0x0A, 15, 0, 3, 0, 2]))).isSome = true :=
  ⟨⟨planeOk_nil _, planeOk_nil _, nofun⟩, by decide⟩

/-- Each of the four places the sequencer can stand in, and a step from it; an operation in progress. -/
theorem witness_StepKeepsTheSequencerLegal :
    ready.cfg.Valid ∧ SequencerOk (asked ready [0x08]) ∧
    SequencerOk (ready.inside .init 6) ∧ SequencerOk (ready.inside .init 39) ∧
    SequencerOk (ready.inside .displayFrame 6) ∧
    (next? (step (asked ready [0x08]))).isSome = true ∧
    (next? (step (ready.inside .init 6))).map State.fsm = some .ready ∧
    InProgressOk (ready.inside (.setRamWindow 0 0 1 1) 4) ∧
    (next? (step (ready.inside (.setRamWindow 0 0 1 1) 4))).isSome = true :=
  ⟨Config.std_valid, ⟨.between rfl rfl rfl, rfl⟩, ⟨.initReset rfl rfl rfl rfl, rfl⟩,
    ⟨.initEnd rfl rfl rfl rfl, rfl⟩, ⟨.display rfl rfl rfl rfl, rfl⟩, by decide, by decide +kernel,
    by rintro op ⟨rfl⟩; simp only [operandsOk]; decide, by decide⟩

theorem witness_NoStepFaults :
    Config.std.Valid ∧ smallConfig.Valid ∧ InProgressOk small ∧
    InProgressOk (small.inside (.updateBwFrame [0, 1, 2, 3, 4, 5, 6, 7]) 16) :=
  ⟨Config.std_valid, small_valid, nofun, by rintro op ⟨rfl⟩; rfl⟩

theorem witness_BusyRoundIsOneSampleAndOneDelay :
    SequencerOk ((stuck ready).inside .displayFrame 6) ∧
    (stuck ready).resets = [] ∧ (stuck ready).busyFeed.head = .busy :=
  ⟨⟨.display rfl rfl rfl rfl, rfl⟩, rfl, rfl⟩

theorem witness_NoCompletionWithoutAnIdleSample :
    (next? (exec .displayFrame ready)).map State.responses = some (ready.responses ++ [[0x00]]) ∧
    SequencerOk (ready.inside .displayFrame 6) ∧ NoResetDue (ready.inside .displayFrame 6) ∧
    (next? (step (ready.inside .displayFrame 6))).map State.responses
      = some (ready.responses ++ [[0x00]]) :=
  ⟨by decide, ⟨.display rfl rfl rfl rfl, rfl⟩, nofun, by decide⟩

/-- A panel that is idle at once. -/
theorem witness_InitEventuallyCompletes :
    InitReady (asked State.reset [0x00]) ∧ NoTransportFault (asked State.reset [0x00]) ∧
    PanelEventuallyIdle (asked State.reset [0x00]) ∧ (asked State.reset [0x00]).wireSlot = none ∧
    (asked State.reset [0x00]).resets = [] ∧
    nextFrame (asked State.reset [0x00]) = some (.host [0x00], State.reset) :=
  ⟨⟨⟨rfl, rfl⟩, .inl rfl, Config.std_valid⟩, quiet_reset.1, rfl, rfl, rfl, rfl⟩

/-- A panel that is busy for three samples first. -/
theorem witness_DisplayEventuallyCompletes :
    DriverReady { asked ready [0x08] with busyFeed := ⟨[.busy, .busy, .busy], .idle⟩ } ∧
    NoTransportFault { asked ready [0x08] with busyFeed := ⟨[.busy, .busy, .busy], .idle⟩ } ∧
    PanelEventuallyIdle { asked ready [0x08] with busyFeed := ⟨[.busy, .busy, .busy], .idle⟩ } ∧
    nextFrame (asked ready [0x08]) = some (.host [0x08], ready) :=
  ⟨⟨⟨rfl, rfl⟩, rfl, Config.std_valid⟩, quiet_reset.1, rfl, rfl⟩

/-- A panel that is never idle, and one that is idle once, for `INIT`'s first wait. -/
theorem witness_OperationsHangOnABusyPanel :
    (DriverReady (stuck (asked ready [0x08])) ∧ NoTransportFault (stuck (asked ready [0x08])) ∧
      NeverIdle (stuck (asked ready [0x08])) ∧ (stuck (asked ready [0x08])).wireSlot = none ∧
      (stuck (asked ready [0x08])).resets = [] ∧
      nextFrame (stuck (asked ready [0x08])) = some (.host [0x08], stuck ready)) ∧
    InitReady (stuck (asked State.reset [0x00])) ∧ NoTransportFault (stuck (asked State.reset [0x00])) ∧
    NeverIdle (stuck (asked State.reset [0x00])) ∧
    nextFrame (stuck (asked State.reset [0x00])) = some (.host [0x00], stuck State.reset) ∧
    FirstIdle ⟨[.busy, .idle], .busy⟩ 1 ∧
    ∀ j, ((⟨[.busy, .idle], .busy⟩ : Feed BusySample).drop (1 + 1 + j)).head = .busy :=
  ⟨⟨⟨⟨rfl, rfl⟩, rfl, Config.std_valid⟩, quiet_reset.1, fun k => by simp [stuck, Feed.head, Feed.drop],
      rfl, rfl, rfl⟩,
    ⟨⟨rfl, rfl⟩, .inl rfl, Config.std_valid⟩, quiet_reset.1,
    fun k => by simp [stuck, Feed.head, Feed.drop], rfl,
    ⟨fun j hj => by obtain rfl : j = 0 := (by omega); rfl, rfl⟩,
    fun j => by simp [Feed.head, Feed.drop, Nat.add_comm 2 j]⟩

theorem witness_TraceParsesBackIntoCommands :
    ready.cfg.Valid ∧ NoTransportFault ready ∧ IdleFor 2 ready ∧ Instr.displayFrame.isDriver = true ∧
    (next? (exec .displayFrame ready)).map State.halted = some false :=
  ⟨Config.std_valid, quiet_ready.1, quiet_ready.2.1 2, rfl, by decide⟩

theorem witness_ClearLooksLikeAnUploadOfTheClearByte : DriverReady small ∧ NoTransportFault small :=
  ⟨small_driverReady, quiet_ready.2.2.1⟩

/-- `CONSTRUCT` can end in each of the three ways. -/
theorem witness_ConstructGivesAReadyDriverOrAnError :
    ready.cfg.Valid ∧ (next? (construct PowerUp.zero ready)).map State.fsm = some .ready ∧
    (next? (construct PowerUp.zero (failing 0 busFault ready))).map State.fsm = some .faulted ∧
    (next? (construct PowerUp.zero (stuck ready))).map State.curOp = some (some .init) :=
  ⟨Config.std_valid, by decide +kernel, by decide, by decide⟩

theorem witness_NothingReadsTheInversionFlagOrThePins :
    NoResetDue (asked ready [0x08]) ∧ (next? (step (asked ready [0x08]))).isSome = true ∧
    refusal? (step (asked ready [0x10])) = some .reservedEncoding ∧ NoResetDue (asked ready [0x10]) :=
  ⟨nofun, by decide, by decide, nofun⟩

theorem witness_DriverDoesNotReadTheFramebuffer :
    Instr.displayFrame.isDriver = true ∧ (next? (exec .displayFrame ready)).isSome = true ∧
    Instr.swReset.isWire = true ∧ (next? (exec .swReset (emitting .swReset ready))).isSome = true := by
  decide

end Sys2Proof.Tests
end

section
/-! PROOFS. 00_scope.md R6: in a configuration that meets the constraints no step faults (O50). -/

namespace Sys2Proof.Machine

/-! ## Procedures -/

/-- Sound actions end without a fault, however the environment answers. -/
theorem finish_ne_fault {atEnd : State → State} {actions : List Action} {s : State}
    (hs : Sound actions) (f : Fault) : finish atEnd (run actions s) ≠ .fault f := by
  intro h
  have hbad := finish_fault h
  rcases run_sound (s := s) hs with hr | ⟨t, hr⟩ | ⟨k, t, hr⟩ <;> rw [hr] at hbad <;> cases hbad

/-- What is left of an operation in progress with the operand values it was admitted with is sound. -/
theorem InProgressOk.sound_rest {s : State} (h : InProgressOk s) (hc : s.cfg.Valid) {op : Instr}
    (hop : s.curOp = some op) : Sound (s.rest op) := by
  by_cases hnil : s.rest op = []
  · rw [hnil]; trivial
  · obtain ⟨hcheck, horder⟩ := operandCheck_of_operandsOk (isDriver_of_rest hnil) (h op hop)
    exact (Sound_driverProcedure hc hcheck horder).skipPrims s.useq

/-! ## The three kinds of instruction -/

/-- A driver operation whose window is out of order aborts before it sends; any other is sound. -/
theorem exec_driver_ne_fault {i : Instr} {s : State} (hi : i.isDriver = true) (hc : s.cfg.Valid)
    (f : Fault) : exec i s ≠ .fault f := by
  rw [exec_eq_runDriver hi]
  unfold runDriver
  split
  · simp
  · split
    · simp
    · rename_i hcheck
      by_cases horder : inOrder i
      · exact finish_ne_fault (Sound_driverProcedure hc hcheck horder) f
      · obtain ⟨x0, y0, x1, y1, rfl, hx⟩ := not_inOrder_cases horder
        rw [runOp, show driverProcedure s.cfg (.setRamWindow x0 y0 x1 y1) =
          setRamWindow s.cfg x0 y0 x1 y1 from rfl, run_misordered _ horder]
        simp [finish]

/-- A wire command is a part of a sound procedure. -/
theorem exec_wire_ne_fault {i : Instr} {s : State} (hi : i.isWire = true) (hc : s.cfg.Valid)
    (hop : InProgressOk s) (f : Fault) : exec i s ≠ .fault f := by
  rw [exec_eq_runWire hi]
  unfold runWire
  split
  · simp
  · split
    · simp
    · split
      · simp
      · rename_i hnext
        obtain ⟨op, checks, rest, hcur, -, hrest, rfl, -⟩ := nextEmission_cases hnext
        have hs := hop.sound_rest hc hcur
        rw [hrest] at hs
        exact finish_ne_fault ((Sound_append _ rest).mp hs).1 f

/-- A framebuffer operation that is not admitted is refused. -/
theorem runFramebuffer_ne_fault {effect : State → Host.Outcome State Fault Refusal} {s : State}
    {f : Fault} (h : effect s ≠ .fault f) : runFramebuffer effect s ≠ .fault f := by
  unfold runFramebuffer
  split
  · simp
  · exact h

/-- A framebuffer operation stays inside the planes (20_memory.md R60). -/
theorem exec_framebuffer_ne_fault {i : Instr} {s : State} (hi : i.isFramebuffer = true)
    (hc : s.cfg.Valid) (f : Fault) : exec i s ≠ .fault f := by
  cases i with
  | fbSetPixel x y color =>
    simp only [exec, execFbSetPixel]
    refine runFramebuffer_ne_fault ?_
    split
    · rename_i hr
      rw [writeBit_of_lt (mapPixel_lt hc hr), writeBit_of_lt (mapPixel_lt hc hr)]
      simp
    · simp
  | fbClear color => simp only [exec, execFbClear]; exact runFramebuffer_ne_fault (by simp)
  | fbSetRotation r => simp only [exec, execFbSetRotation]; exact runFramebuffer_ne_fault (by simp)
  | fbRotation => simp only [exec, execFbRotation]; exact runFramebuffer_ne_fault (by simp)
  | fbSize => simp only [exec, execFbSize]; exact runFramebuffer_ne_fault (by simp)
  | fbBlackData => simp only [exec, execFbBlackData]; exact runFramebuffer_ne_fault (by simp)
  | fbRedData => simp only [exec, execFbRedData]; exact runFramebuffer_ne_fault (by simp)
  | _ => cases hi

theorem exec_ne_fault {i : Instr} {s : State} (hc : s.cfg.Valid) (hop : InProgressOk s)
    (f : Fault) : exec i s ≠ .fault f := by
  rcases instr_kinds i with ⟨hi, -⟩ | ⟨hi, -⟩ | ⟨hi, -⟩
  · exact exec_driver_ne_fault hi hc f
  · exact exec_wire_ne_fault hi hc hop f
  · exact exec_framebuffer_ne_fault hi hc f

/-! ## Steps -/

/-- The invariant is about the parameters and the operation in progress alone. -/
theorem InProgressOk.of_eq {s t : State} (h : InProgressOk s) (hcfg : t.cfg = s.cfg)
    (hcur : t.curOp = s.curOp) : InProgressOk t := by
  intro op hop
  rw [hcfg]
  exact h op (hcur ▸ hop)

theorem nextFrame_keeps {s s' : State} {fr : Frame} (h : nextFrame s = some (fr, s')) :
    s'.cfg = s.cfg ∧ s'.curOp = s.curOp := by
  rcases nextFrame_cases h with ⟨_, _, _, _, _, rfl⟩ | ⟨_, _, _, _, _, rfl⟩ <;> exact ⟨rfl, rfl⟩

theorem acceptFrame_ne_fault {fr : Frame} {s : State} (hc : s.cfg.Valid) (hop : InProgressOk s)
    (f : Fault) : acceptFrame fr s ≠ .fault f := by
  unfold acceptFrame
  split
  · simp
  · split
    · simp
    · exact exec_ne_fault hc hop f

theorem advance_ne_fault {s : State} (hc : s.cfg.Valid) (hop : InProgressOk s) (f : Fault) :
    advance s ≠ .fault f := by
  unfold advance
  split
  · rename_i fr s' hf
    obtain ⟨hcfg, hcur⟩ := nextFrame_keeps hf
    exact acceptFrame_ne_fault (hcfg ▸ hc) (hop.of_eq hcfg hcur) f
  · split
    · rename_i op hcur
      exact finish_ne_fault (hop.sound_rest hc hcur) f
    · simp

/-- Settles O50: the block reset that is due is no fault, and the sequencer's step is none from any state
with a valid configuration and an operation in progress that has its operands. -/
theorem noStepFaults : Obligations.NoStepFaults := by
  intro s f hc hop
  rcases noResetDue_or s with hn | ⟨u, rest, hr⟩
  · have ht := State.ticked_eq s
    rw [step_of_noReset hn]
    exact advance_ne_fault (by rw [ht]; exact hc) (hop.of_eq (by rw [ht]) (by rw [ht])) f
  · rw [step_of_reset hr]
    simp

end Sys2Proof.Machine
end

section
/-! PROOFS. 00_scope.md R13: under `NoTransportFault` and `PanelEventuallyIdle` a requested `INIT` and a
requested `DISPLAY_FRAME` end `Ok`, with their whole traces (O53, O54). -/

namespace Sys2Proof.Machine

/-! ## Events and samples -/

@[simp] theorem State.afterOk_events (s : State) (as : List Action) :
    (s.afterOk as).events = s.events ++ okEvents as := by
  simp [State.events, State.afterOk]

@[simp] theorem State.waited_cfg (s : State) (n : Nat) : (s.waited n).cfg = s.cfg := rfl
@[simp] theorem State.waited_useq (s : State) (n : Nat) : (s.waited n).useq = s.useq := rfl
@[simp] theorem State.waited_pinRst (s : State) (n : Nat) : (s.waited n).pinRst = s.pinRst := rfl
@[simp] theorem State.waited_busyFeed (s : State) (n : Nat) :
    (s.waited n).busyFeed = s.busyFeed.drop n := rfl

@[simp] theorem State.waited_events (s : State) (n : Nat) :
    (s.waited n).events = s.events ++ busyRounds s.cfg n := by
  simp [State.events, State.waited]

@[simp] theorem State.sampled_events (s : State) : s.sampled.events = s.events := rfl

@[simp] theorem State.started_events (s : State) (i : Instr) : (s.started i).events = s.events := rfl

@[simp] theorem respond_events (r : List Byte) (s : State) : (respond r s).events = s.events := rfl

/-- After the first idle sample of a panel that is idle in the end there is another, and the busy samples
before the two are samples of the queue. -/
theorem exists_two_firstIdle {f : Feed BusySample} (h : f.rest = .idle) :
    ∃ k₁ k₂, FirstIdle f k₁ ∧ FirstIdle (f.drop (k₁ + 1)) k₂ ∧ k₁ + k₂ ≤ f.queue.length := by
  obtain ⟨k₁, h₁, hle₁⟩ := exists_firstIdle h
  obtain ⟨k₂, h₂, hle₂⟩ := exists_firstIdle (f := f.drop (k₁ + 1)) h
  rw [Feed.drop_queue, List.length_drop] at hle₂
  exact ⟨k₁, k₂, h₁, h₂, by omega⟩

/-! ## The states at the three waits -/

/-- The state at the wait of `DISPLAY_FRAME`, started from `s` (42_driver_ops.md R169). -/
def State.atDisplayWait (s : State) : State :=
  (s.started .displayFrame).afterOk (displayHead s.cfg)

/-- The state at the first wait of `INIT`, started from `s` (42_driver_ops.md R161). -/
def State.atInitWait (s : State) : State := (s.started .init).afterOk (initHead s.cfg)

/-- The state at the second wait of `INIT`, after the idle sample that ends the first at `s`. -/
def State.atInitEnd (s : State) : State :=
  (s.sampled.did (.poll .idle)).afterOk (initMiddle s.cfg)

@[simp] theorem State.atDisplayWait_cfg (s : State) : s.atDisplayWait.cfg = s.cfg := rfl
@[simp] theorem State.atInitWait_cfg (s : State) : s.atInitWait.cfg = s.cfg := rfl
@[simp] theorem State.atInitEnd_cfg (s : State) : s.atInitEnd.cfg = s.cfg := rfl

@[simp] theorem State.atDisplayWait_fsm (s : State) : s.atDisplayWait.fsm = s.fsm := by
  simp [State.atDisplayWait, State.afterOk, displayHead]

@[simp] theorem State.atDisplayWait_useq (s : State) : s.atDisplayWait.useq = 6 := by
  simp [State.atDisplayWait, State.afterOk, displayHead]

@[simp] theorem State.atDisplayWait_busyFeed (s : State) :
    s.atDisplayWait.busyFeed = s.busyFeed := by
  simp [State.atDisplayWait, State.afterOk]

@[simp] theorem State.atDisplayWait_events (s : State) : s.atDisplayWait.events = s.events
    ++ cmd s.cfg.opcodes.dispCtrl2 ++ dat [s.cfg.flagDisplayMode1]
    ++ cmd s.cfg.opcodes.masterActivate := by
  simp [State.atDisplayWait, displayHead]

@[simp] theorem State.atInitWait_fsm (s : State) : s.atInitWait.fsm = .softwareReset := by
  simp [State.atInitWait, State.afterOk, initHead, lastFsm]

@[simp] theorem State.atInitWait_useq (s : State) : s.atInitWait.useq = 6 := by
  simp [State.atInitWait, State.afterOk, initHead, okEvents]

@[simp] theorem State.atInitWait_pinRst (s : State) : s.atInitWait.pinRst = .high := by
  simp [State.atInitWait, State.afterOk, initHead, lastRst]

@[simp] theorem State.atInitWait_busyFeed (s : State) : s.atInitWait.busyFeed = s.busyFeed := by
  simp [State.atInitWait, State.afterOk]

@[simp] theorem State.atInitWait_events (s : State) : s.atInitWait.events = s.events
    ++ [.rst .low, .dly s.cfg.resetHoldMs, .rst .high, .dly s.cfg.resetHoldMs]
    ++ cmd s.cfg.opcodes.swReset := by
  simp [State.atInitWait, initHead, okEvents]

@[simp] theorem State.atInitEnd_fsm (s : State) : s.atInitEnd.fsm = .configuring := by
  simp [State.atInitEnd, State.afterOk, initMiddle, lastFsm]

@[simp] theorem State.atInitEnd_useq (s : State) : s.atInitEnd.useq = s.useq + 33 := by
  simp [State.atInitEnd, State.afterOk, initMiddle, okEvents, selectFullFrame]

@[simp] theorem State.atInitEnd_pinRst (s : State) : s.atInitEnd.pinRst = s.pinRst := by
  simp [State.atInitEnd, State.afterOk, initMiddle, lastRst]

@[simp] theorem State.atInitEnd_busyFeed (s : State) :
    s.atInitEnd.busyFeed = s.busyFeed.drop 1 := by
  simp [State.atInitEnd, State.afterOk]

theorem State.atInitEnd_events {s : State} (hc : s.cfg.Valid) : s.atInitEnd.events = s.events
    ++ [.poll .idle]
    ++ cmd s.cfg.opcodes.driverControl ++ dat [BitVec.ofNat 8 (s.cfg.height - 1), 0x00, 0x00]
    ++ cmd s.cfg.opcodes.dataMode ++ dat [s.cfg.flagEntryXincYinc]
    ++ sff s.cfg
    ++ cmd s.cfg.opcodes.writeBorder ++ dat [s.cfg.flagBorder]
    ++ cmd s.cfg.opcodes.tempControl ++ dat [s.cfg.flagInternalTemp] := by
  simp [State.atInitEnd, initMiddle, okEvents, okEvents_selectFullFrame hc]

theorem SequencerPlace.atDisplayWait {s : State} (h : DriverReady s) :
    SequencerPlace s.atDisplayWait :=
  .display rfl s.atDisplayWait_useq (s.atDisplayWait_fsm.trans h.ready) h.accepting.1

theorem SequencerPlace.atInitWait {s : State} (h : InitReady s) : SequencerPlace s.atInitWait :=
  .initReset rfl s.atInitWait_useq s.atInitWait_fsm h.accepting.1

theorem SequencerPlace.atInitEnd {s : State} (hc : s.curOp = some .init) (hu : s.useq = 6)
    (hh : s.halted = false) : SequencerPlace s.atInitEnd :=
  .initEnd hc (by rw [s.atInitEnd_useq, hu]) s.atInitEnd_fsm hh

/-! ## The idle sample that ends an operation -/

/-- `DISPLAY_FRAME` is over at the idle sample of its wait (40_transport.md R125). -/
theorem resume_display_idle {s : State} (hu : s.useq = 6) (hb : s.busyFeed.head = .idle) :
    resume .displayFrame s = .next (respond [] (s.sampled.did (.poll .idle))) := by
  have hr : s.rest .displayFrame = waitUntilIdle ++ [] := by unfold State.rest; rw [hu]; rfl
  rw [resume, hr, run_wait_idle hb]
  rfl

/-- `INIT` is over, in `Ready`, at the idle sample of its second wait (42_driver_ops.md R161). -/
theorem resume_init_last_idle {s : State} (hu : s.useq = 39) (hb : s.busyFeed.head = .idle) :
    resume .init s = .next (respond [] { s.sampled.did (.poll .idle) with fsm := .ready }) := by
  have hr : s.rest .init = waitUntilIdle ++ [.fsm .ready] := by unfold State.rest; rw [hu]; rfl
  rw [resume, hr, run_wait_idle hb]
  rfl

/-! ## The states at the two ends -/

/-- The state after `DISPLAY_FRAME`, started from `s`, with `k` busy samples at its wait. -/
def State.displayOver (s : State) (k : Nat) : State :=
  respond [] ((s.atDisplayWait.waited k).sampled.did (.poll .idle))

/-- The state at the second wait of `INIT`, started from `s`, with `k` busy samples at the first. -/
def State.initBetween (s : State) (k : Nat) : State := (s.atInitWait.waited k).atInitEnd

/-- The state after `INIT`, started from `s`, with `k₁` busy samples at its first wait and `k₂` at its
second. -/
def State.initOver (s : State) (k₁ k₂ : Nat) : State :=
  respond [] { ((s.initBetween k₁).waited k₂).sampled.did (.poll .idle) with fsm := .ready }

@[simp] theorem State.displayOver_fsm (s : State) (k : Nat) : (s.displayOver k).fsm = s.fsm :=
  s.atDisplayWait_fsm

theorem State.displayOver_responses (s : State) (k : Nat) :
    (s.displayOver k).responses = s.responses ++ [[0x00]] := rfl

theorem State.displayOver_events (s : State) (k : Nat) : (s.displayOver k).events = s.events
    ++ cmd s.cfg.opcodes.dispCtrl2 ++ dat [s.cfg.flagDisplayMode1]
    ++ cmd s.cfg.opcodes.masterActivate ++ busyRounds s.cfg k ++ [.poll .idle] := by
  simp [State.displayOver]

@[simp] theorem State.initBetween_cfg (s : State) (k : Nat) : (s.initBetween k).cfg = s.cfg := rfl

@[simp] theorem State.initBetween_useq (s : State) (k : Nat) : (s.initBetween k).useq = 39 := by
  simp [State.initBetween]

@[simp] theorem State.initBetween_busyFeed (s : State) (k : Nat) :
    (s.initBetween k).busyFeed = s.busyFeed.drop (k + 1) := by
  simp [State.initBetween]

theorem State.initOver_pinRst (s : State) (k₁ k₂ : Nat) : (s.initOver k₁ k₂).pinRst = .high := by
  have hbetween : (s.initBetween k₁).pinRst = .high := by simp [State.initBetween]
  exact hbetween

theorem State.initOver_responses (s : State) (k₁ k₂ : Nat) :
    (s.initOver k₁ k₂).responses = s.responses ++ [[0x00]] := rfl

theorem State.initBetween_events {s : State} (hc : s.cfg.Valid) (k : Nat) :
    (s.initBetween k).events = s.events
      ++ [.rst .low, .dly s.cfg.resetHoldMs, .rst .high, .dly s.cfg.resetHoldMs]
      ++ cmd s.cfg.opcodes.swReset ++ busyRounds s.cfg k ++ [.poll .idle]
      ++ cmd s.cfg.opcodes.driverControl ++ dat [BitVec.ofNat 8 (s.cfg.height - 1), 0x00, 0x00]
      ++ cmd s.cfg.opcodes.dataMode ++ dat [s.cfg.flagEntryXincYinc]
      ++ sff s.cfg
      ++ cmd s.cfg.opcodes.writeBorder ++ dat [s.cfg.flagBorder]
      ++ cmd s.cfg.opcodes.tempControl ++ dat [s.cfg.flagInternalTemp] := by
  simp [State.initBetween, State.atInitEnd_events (s := s.atInitWait.waited k) hc]

theorem State.initOver_events (s : State) (k₁ k₂ : Nat) : (s.initOver k₁ k₂).events =
    (s.initBetween k₁).events ++ busyRounds s.cfg k₂ ++ [.poll .idle] := by
  have hpoll : (s.initOver k₁ k₂).events =
      (((s.initBetween k₁).waited k₂).sampled.did (.poll .idle)).events := rfl
  simp [hpoll]

/-! ## The operations from their request to their end -/

/-- `DISPLAY_FRAME`, run by a step of `x` on `s`, with `k` busy samples to come: what `x` is after `k`
steps more than that one. -/
theorem coreRun_display {x s : State} {k : Nat} (hx : step x = exec .displayFrame s)
    (hready : DriverReady s) (hport : NoTransportFault s) (hslot : s.wireSlot = none)
    (hresets : s.resets = []) (hk : FirstIdle s.busyFeed k) :
    Host.Core.run Sys2Proof.core (k + 1) x = .next (s.displayOver k) := by
  obtain ⟨hbusy, hidle⟩ := hk
  rw [exec_display_eq hready hport] at hx
  obtain ⟨y, hy, hlast⟩ := coreRun_waited (w := s.atDisplayWait) hx (.atDisplayWait hready) rfl
    hresets hslot k (by simpa using hbusy)
  refine coreRun_snoc hy (hlast.trans (resume_display_idle s.atDisplayWait_useq ?_))
  simpa using hidle

/-- `INIT`, run by a step of `x` on `s`, with `k₁` busy samples to come before the first idle one and `k₂`
between it and the next: what `x` is after `k₁ + k₂` steps more than that one. -/
theorem coreRun_init {x s : State} {k₁ k₂ : Nat} (hx : step x = exec .init s) (hready : InitReady s)
    (hport : NoTransportFault s) (hslot : s.wireSlot = none) (hresets : s.resets = [])
    (hk₁ : FirstIdle s.busyFeed k₁) (hk₂ : FirstIdle (s.busyFeed.drop (k₁ + 1)) k₂) :
    Host.Core.run Sys2Proof.core (k₁ + k₂ + 1) x = .next (s.initOver k₁ k₂) := by
  obtain ⟨hbusy₁, hidle₁⟩ := hk₁
  obtain ⟨hbusy₂, hidle₂⟩ := hk₂
  rw [exec_init_eq hready hport] at hx
  obtain ⟨y, hy, hstep⟩ := coreRun_waited (w := s.atInitWait) hx (.atInitWait hready) rfl
    hresets hslot k₁ (by simpa using hbusy₁)
  have hbetween : step y = resume .init (s.initBetween k₁) :=
    hstep.trans (resume_init_idle hready.valid (hport.of_drop _ rfl) s.atInitWait_useq
      (by simpa using hidle₁))
  have hplace : SequencerPlace (s.initBetween k₁) :=
    .atInitEnd rfl s.atInitWait_useq hready.accepting.1
  obtain ⟨z, hz, hlast⟩ := coreRun_waited hbetween hplace rfl hresets hslot k₂
    (by simpa using hbusy₂)
  refine coreRun_snoc (coreRun_add hy hz)
    (hlast.trans (resume_init_last_idle (s.initBetween_useq k₁) ?_))
  simpa using hidle₂

/-- The step that takes a request runs what it asks for, on a state that differs in the requests alone. -/
theorem exists_step_of_request {s s' : State} {bytes : List Byte} {i : Instr} (hr : s.resets = [])
    (ha : Accepting s) (hf : nextFrame s = some (.host bytes, s'))
    (hd : decodeRequest bytes = some i) : ∃ later, step s = exec i { s with requests := later } := by
  obtain ⟨hstep, hs'⟩ := step_of_request hr ha hf hd
  exact ⟨s'.requests, hs' ▸ hstep⟩

/-- Settles O53: `k₁` rounds at the first wait, `k₂` at the second, and the idle sample that ends each. -/
theorem initEventuallyCompletes : Obligations.InitEventuallyCompletes := by
  intro s s' hready hport hpanel hslot hresets hframe
  obtain ⟨later, hstep⟩ :=
    exists_step_of_request (i := .init) hresets hready.accepting hframe rfl
  obtain ⟨k₁, k₂, hk₁, hk₂, hle⟩ := exists_two_firstIdle hpanel
  have hready' : InitReady { s with requests := later } :=
    ⟨hready.accepting, hready.admitted, hready.valid⟩
  have hrun := coreRun_init hstep hready' hport hslot hresets hk₁ hk₂
  refine ⟨k₁, k₂, _, hk₁, hk₂, hle, hrun, rfl, rfl, State.initOver_pinRst _ k₁ k₂,
    State.initOver_responses _ k₁ k₂, ?_⟩
  rw [State.initOver_events, State.initBetween_events hready'.valid]
  rfl

/-- Settles O54: `k` rounds at the one wait, and the idle sample that ends it. -/
theorem displayEventuallyCompletes : Obligations.DisplayEventuallyCompletes := by
  intro s s' hready hport hpanel hslot hresets hframe
  obtain ⟨later, hstep⟩ :=
    exists_step_of_request (i := .displayFrame) hresets hready.accepting hframe rfl
  obtain ⟨k, hk, hle⟩ := exists_firstIdle hpanel
  have hrun := coreRun_display hstep ⟨hready.accepting, hready.ready, hready.valid⟩ hport hslot
    hresets hk
  exact ⟨k, _, hk, hle, hrun, rfl, (State.displayOver_fsm _ k).trans hready.ready,
    State.displayOver_responses _ k, State.displayOver_events _ k⟩

end Sys2Proof.Machine
end

section
/-! PROOFS. 10_state.md R35, R37 and R25, R26: what block reset leaves (O1, O2), that every step only adds to
the observation (O47), and that every step keeps the planes in canonical form (O48). -/

namespace Sys2Proof.Machine

/-! ## Block reset -/

/-- Block reset leaves the values of the table of 10_state.md R35. -/
theorem justReset_blockReset (u : PowerUp) (s : State) : JustReset u (blockReset u s) := by
  constructor <;> rfl

theorem justReset_launch (c : Config) (u : PowerUp) (requests : List (List Byte)) (port : Feed Answer)
    (busy : Feed BusySample) (resets : List ResetInput) :
    JustReset u (State.launch c u requests port busy resets) := by
  constructor <;> rfl

/-- Settles O1: launch and the block reset that is due both write the table, and `step` runs the latter. -/
theorem blockResetGivesTheResetValues : Obligations.BlockResetGivesTheResetValues := by
  refine ⟨justReset_launch, fun s u later hr => ?_⟩
  exact ⟨_, step_of_reset hr, justReset_blockReset u _, rfl, rfl, rfl, rfl, rfl, rfl⟩

/-- A plane with nothing listed is in canonical form, whatever its size. -/
theorem planeOk_nil (c : Config) : PlaneOk c [] :=
  ⟨⟨.nil, List.forall_mem_nil _⟩, List.forall_mem_nil _⟩

theorem planesOk_reset : PlanesOk State.reset :=
  ⟨planeOk_nil _, planeOk_nil _, List.forall_mem_nil _⟩

theorem inProgressOk_of_none {s : State} (h : s.curOp = none) : InProgressOk s := by
  intro op hop
  rw [h] at hop
  cases hop

/-- Settles O2: the reset state is a launch with empty planes, no operation in progress and a quiet
environment, in the hardware's configuration. -/
theorem resetStateMeetsTheInvariants : Obligations.ResetStateMeetsTheInvariants :=
  ⟨justReset_launch _ _ _ _ _ _, planesOk_reset, ⟨.between rfl rfl rfl, rfl⟩,
    inProgressOk_of_none rfl, Config.std_valid, ⟨List.forall_mem_nil _, rfl⟩, rfl⟩

/-! ## What a step adds and keeps -/

/-- The observation of `t` is that of `s`, some events more, and at most one response more. -/
structure OnlyAdds (s t : State) : Prop where
  events : ∃ new, t.events = s.events ++ new
  responses : t.responses = s.responses ∨ ∃ response, t.responses = s.responses ++ [response]

theorem OnlyAdds.refl (s : State) : OnlyAdds s s := ⟨⟨[], by simp⟩, .inl rfl⟩

/-- An operation's run only adds to the observation, if what follows its last action adds at most `Ok`. -/
theorem Ends.onlyAdds {atEnd : State → State} {actions : List Action} {s t : State}
    (h : Ends atEnd actions s t)
    (ha : ∀ u, (atEnd u).trace = u.trace ∧
      ((atEnd u).responses = u.responses ∨ (atEnd u).responses = u.responses ++ [[0x00]])) :
    OnlyAdds s t := by
  obtain ⟨⟨new, htrace⟩, hresp⟩ := h.adds ha
  refine ⟨⟨new.reverse, by simp [State.events, htrace]⟩, ?_⟩
  rcases hresp with hsame | hok | ⟨-, kind, -, -, herr, -⟩
  · exact .inl hsame
  · exact .inr ⟨_, hok⟩
  · exact .inr ⟨_, herr⟩

/-- A framebuffer operation adds one response. -/
theorem Drawn.onlyAdds {i : Instr} {s t : State} (h : Drawn s t i) : OnlyAdds s t := by
  have htrace : t.trace = s.trace := by rw [h.frame]
  refine ⟨⟨[], by simp [State.events, htrace]⟩, .inr ?_⟩
  cases h <;> subst t <;> exact ⟨_, rfl⟩

/-- Going on with an operation leaves what no operation that sends writes. -/
theorem resume_kept_onlyAdds {op : Instr} {s t : State} (h : resume op s = .next t) :
    Kept s t ∧ OnlyAdds s t :=
  have he := finish_cases h
  ⟨he.kept (kept_respond []), he.onlyAdds fun _ => ⟨rfl, .inr rfl⟩⟩

/-- Every instruction is of two sorts by what it may write: one that sends leaves the framebuffer and the
inputs, one that draws leaves the driver. -/
theorem exec_kept_or_drawn {i : Instr} {s t : State} (h : exec i s = .next t) :
    Kept s t ∧ OnlyAdds s t ∨ Drawn s t i := by
  rcases instr_kinds i with ⟨hi, -⟩ | ⟨hi, -⟩ | ⟨hi, -⟩
  · obtain ⟨-, -, he, -⟩ := exec_driver_cases hi h
    obtain ⟨hevents, hresp⟩ := he.onlyAdds fun _ => ⟨rfl, .inr rfl⟩
    have hstarted : Kept s (s.started i) := by constructor <;> rfl
    exact .inl ⟨hstarted.trans (he.kept (kept_respond [])), hevents, hresp⟩
  · obtain ⟨-, -, actions, -, he⟩ := exec_wire_cases hi h
    exact .inl ⟨he.kept kept_id, he.onlyAdds fun _ => ⟨rfl, .inl rfl⟩⟩
  · exact .inr (exec_framebuffer_cases hi h).2

/-- An instruction changes no parameter and no request to come, and only adds to the observation. -/
theorem exec_onlyAdds {i : Instr} {s t : State} (h : exec i s = .next t) :
    t.cfg = s.cfg ∧ t.requests = s.requests ∧ OnlyAdds s t := by
  rcases exec_kept_or_drawn h with ⟨hk, hadds⟩ | hd
  · exact ⟨hk.cfg, hk.requests, hadds⟩
  · exact ⟨by rw [hd.frame], by rw [hd.frame], hd.onlyAdds⟩

/-! ## Steps -/

/-- A step is the block reset that is due, or the sequencer's beside the countdown. -/
theorem step_cases {s t : State} (h : step s = .next t) :
    (∃ u rest, s.resets = ⟨0, u⟩ :: rest ∧ t = blockReset u { s with resets := rest }) ∨
      NoResetDue s ∧ advance s.ticked = .next t := by
  rcases noResetDue_or s with hn | ⟨u, rest, hr⟩
  · exact .inr ⟨hn, by rw [← step_of_noReset hn]; exact h⟩
  · rw [step_of_reset hr] at h
    cases h
    exact .inl ⟨u, rest, hr, rfl⟩

/-- What the sequencer's step adds, and the request it may take. -/
theorem advance_onlyAdds {s t : State} (h : advance s = .next t) :
    t.cfg = s.cfg ∧ OnlyAdds s t ∧
      (t.requests = s.requests ∨ ∃ request, s.requests = request :: t.requests) := by
  rcases advance_cases h with ⟨op, -, -, hres⟩ | ⟨f, s', i, hf, -, -, hexec⟩ | ⟨-, -, rfl⟩
  · obtain ⟨hk, hadds⟩ := resume_kept_onlyAdds hres
    exact ⟨hk.cfg, hadds, .inl hk.requests⟩
  · obtain ⟨hcfg, hreq, hevents, hresp⟩ := exec_onlyAdds hexec
    rcases nextFrame_cases hf with ⟨_, _, -, -, -, rfl⟩ | ⟨b, rest, -, hb, -, rfl⟩
    · exact ⟨hcfg, ⟨hevents, hresp⟩, .inl hreq⟩
    · exact ⟨hcfg, ⟨hevents, hresp⟩, .inr ⟨b, by rw [hb, hreq]⟩⟩
  · exact ⟨rfl, .refl _, .inl rfl⟩

/-- Settles O47: block reset changes no parameter, and the countdown beside any other step is neither
observed nor a request. -/
theorem stepsOnlyAddToTheObservation : Obligations.StepsOnlyAddToTheObservation := by
  intro s t h
  rcases step_cases h with ⟨u, rest, hr, rfl⟩ | ⟨-, hadv⟩
  · exact ⟨rfl, fun hn => absurd hr (hn u rest)⟩
  · rw [State.ticked_eq] at hadv
    obtain ⟨hcfg, ⟨hevents, hresp⟩, hreq⟩ := advance_onlyAdds hadv
    exact ⟨hcfg, fun _ => ⟨hevents, hresp, hreq⟩⟩

/-! ## The planes -/

/-- The invariant is about the parameters, the planes and the block resets to come alone. -/
theorem PlanesOk.of_eq {s t : State} (h : PlanesOk s) (hcfg : t.cfg = s.cfg)
    (hblack : t.black = s.black) (hred : t.red = s.red) (hresets : t.resets = s.resets) :
    PlanesOk t := by
  obtain ⟨hb, hr, hc⟩ := h
  refine ⟨?_, ?_, ?_⟩ <;> rw [hcfg]
  · rwa [hblack]
  · rwa [hred]
  · rwa [hresets]

theorem PlanesOk.of_kept {s t : State} (h : PlanesOk s) (hk : Kept s t) : PlanesOk t :=
  h.of_eq hk.cfg hk.black hk.red hk.resets

/-- Of the framebuffer operations only `FB_CLEAR` and `FB_SET_PIXEL` write, and both inside the planes. -/
theorem PlanesOk.of_drawn {i : Instr} {s t : State} (h : PlanesOk s) (hd : Drawn s t i) :
    PlanesOk t := by
  cases hd with
  | clear color ht => subst ht; exact h.filled color
  | setPixel x y color _ hi ht => subst ht; exact h.drawn hi
  | setRotation r ht => subst ht; exact h.of_eq rfl rfl rfl rfl
  | rotation ht => subst ht; exact h.of_eq rfl rfl rfl rfl
  | size ht => subst ht; exact h.of_eq rfl rfl rfl rfl
  | blackData ht => subst ht; exact h.of_eq rfl rfl rfl rfl
  | redData ht => subst ht; exact h.of_eq rfl rfl rfl rfl

theorem PlanesOk.exec {i : Instr} {s t : State} (h : PlanesOk s) (he : exec i s = .next t) :
    PlanesOk t := by
  rcases exec_kept_or_drawn he with ⟨hk, -⟩ | hd
  · exact h.of_kept hk
  · exact h.of_drawn hd

/-- Taking a frame touches no plane. -/
theorem PlanesOk.nextFrame {f : Frame} {s s' : State} (h : PlanesOk s)
    (hf : nextFrame s = some (f, s')) : PlanesOk s' := by
  rcases nextFrame_cases hf with ⟨_, _, -, -, -, rfl⟩ | ⟨_, _, -, -, -, rfl⟩ <;>
    exact h.of_eq rfl rfl rfl rfl

theorem PlanesOk.advance {s t : State} (h : PlanesOk s) (ha : advance s = .next t) : PlanesOk t := by
  rcases advance_cases ha with ⟨op, -, -, hres⟩ | ⟨f, s', i, hf, -, -, hexec⟩ | ⟨-, -, rfl⟩
  · exact h.of_kept (resume_kept_onlyAdds hres).1
  · exact (h.nextFrame hf).exec hexec
  · exact h

/-- The countdown changes when the next block reset comes, not the planes it would bring. -/
theorem PlanesOk.ticked {s : State} (h : PlanesOk s) : PlanesOk s.ticked := by
  rcases s.ticked_resets_cases with hr | ⟨n, u, rest, hr, ht⟩ <;> rw [State.ticked_eq]
  · exact h.of_eq rfl rfl rfl hr
  · obtain ⟨hb, hred, hc⟩ := h
    rw [hr] at hc
    obtain ⟨hu, hrest⟩ := List.forall_mem_cons.mp hc
    exact ⟨hb, hred, by rw [ht]; exact List.forall_mem_cons.mpr ⟨hu, hrest⟩⟩

/-- A block reset brings the planes that were to come with it. -/
theorem PlanesOk.blockReset {u : PowerUp} {rest : List ResetInput} {s : State} (h : PlanesOk s)
    (hr : s.resets = ⟨0, u⟩ :: rest) : PlanesOk (blockReset u { s with resets := rest }) := by
  have hc := h.coming
  rw [hr] at hc
  obtain ⟨⟨hblack, hred⟩, hrest⟩ := List.forall_mem_cons.mp hc
  exact ⟨hblack, hred, hrest⟩

/-- Settles O48: by what a step can do, down to the two framebuffer operations that write a plane. -/
theorem stepKeepsThePlanesCanonical : Obligations.StepKeepsThePlanesCanonical := by
  intro s t h hstep
  rcases step_cases hstep with ⟨u, rest, hr, rfl⟩ | ⟨-, hadv⟩
  · exact h.blockReset hr
  · exact h.ticked.advance hadv

end Sys2Proof.Machine
end

section
/-! PROOFS. 10_state.md R24, R28: nothing reads `inv` or the levels on the pins (O59). Each operation of the
model, from a state that differs in these alone, ends as it would have ended, in states that differ in these
alone. -/

namespace Sys2Proof.Machine

/-! ## States and ends that differ in the unread fields alone -/

/-- `s` with another `inv` and other levels on the pins. -/
def State.unread (s : State) (v : Bool) (rst : Level) (dc : DcLevel) : State :=
  { s with inv := v, pinRst := rst, pinDc := dc }

/-- The same end of a primitive, in another state. -/
def PrimEnd.map (g : State → State) : PrimEnd → PrimEnd
  | .ok s => .ok (g s)
  | .busy s => .busy (g s)
  | .err kind s => .err kind (g s)
  | .bad f => .bad f

/-- The same end of a run, in another state. -/
def RunEnd.map (g : State → State) : RunEnd → RunEnd
  | .done s => .done (g s)
  | .waiting s => .waiting (g s)
  | .err kind s => .err kind (g s)
  | .abort s => .abort (g s)
  | .bad f => .bad f

/-- The same outcome, in another state. -/
def mapNext (g : State → State) :
    Host.Outcome State Fault Refusal → Host.Outcome State Fault Refusal
  | .next s => .next (g s)
  | .fault f => .fault f
  | .refused r => .refused r

/-- `o'` is `o` but for `inv`, which is `v`, and the levels on the pins. -/
def UnreadApart (v : Bool) (o o' : Host.Outcome State Fault Refusal) : Prop :=
  ∃ rst dc, o' = mapNext (·.unread v rst dc) o

theorem UnreadApart.refused (v : Bool) (r : Refusal) : UnreadApart v (.refused r) (.refused r) :=
  ⟨.low, .cmd, rfl⟩

/-! ## Primitives and runs -/

/-- A primitive writes the pins without reading them. -/
theorem perform_unread (p : Prim) (s : State) (v : Bool) (rst : Level) (dc : DcLevel) :
    ∃ rst' dc', perform p (s.unread v rst dc) = (perform p s).map (·.unread v rst' dc') := by
  cases p with
  | setRst level =>
    cases hf : s.portFeed.head with
    | ok =>
      rw [perform_setRst_ok hf, perform_setRst_ok (s := s.unread v rst dc) hf]
      exact ⟨level, dc, rfl⟩
    | fail f =>
      rw [perform_setRst_fail hf, perform_setRst_fail (s := s.unread v rst dc) hf]
      exact ⟨f.rstAfter, dc, rfl⟩
  | setDc level =>
    cases hf : s.portFeed.head with
    | ok =>
      rw [perform_setDc_ok hf, perform_setDc_ok (s := s.unread v rst dc) hf]
      exact ⟨rst, level, rfl⟩
    | fail f =>
      rw [perform_setDc_fail hf, perform_setDc_fail (s := s.unread v rst dc) hf]
      exact ⟨rst, f.dcAfter, rfl⟩
  | xfer bytes =>
    refine ⟨rst, dc, ?_⟩
    by_cases hne : bytes = []
    · subst hne; rfl
    · cases hf : s.portFeed.head with
      | ok => rw [perform_xfer_ok hf hne, perform_xfer_ok (s := s.unread v rst dc) hf hne]; rfl
      | fail f =>
        rw [perform_xfer_fail hf hne, perform_xfer_fail (s := s.unread v rst dc) hf hne]; rfl
  | delay ms => exact ⟨rst, dc, rfl⟩
  | readBusy =>
    refine ⟨rst, dc, ?_⟩
    rcases BusySample.cases s.busyFeed.head with hb | hb
    · rw [perform_readBusy_busy hb, perform_readBusy_busy (s := s.unread v rst dc) hb]; rfl
    · rw [perform_readBusy_idle hb, perform_readBusy_idle (s := s.unread v rst dc) hb]; rfl

/-- So does a run of actions. -/
theorem run_unread (actions : List Action) (s : State) (v : Bool) (rst : Level) (dc : DcLevel) :
    ∃ rst' dc', run actions (s.unread v rst dc) = (run actions s).map (·.unread v rst' dc') := by
  induction actions generalizing s rst dc with
  | nil => exact ⟨rst, dc, rfl⟩
  | cons a rest ih =>
    cases a with
    | fsm f => exact ih { s with fsm := f } rst dc
    | contract holds =>
      cases holds with
      | true => exact ih s rst dc
      | false => exact ⟨rst, dc, rfl⟩
    | prim p =>
      obtain ⟨rst', dc', hp⟩ := perform_unread p s v rst dc
      simp only [run, hp]
      cases perform p s with
      | ok s' => exact ih s' rst' dc'
      | busy s' => exact ⟨rst', dc', rfl⟩
      | err kind s' => exact ⟨rst', dc', rfl⟩
      | bad f => exact ⟨rst', dc', rfl⟩

/-- The end of an operation, if what follows its last action does not read the fields either. -/
theorem finish_unread {atEnd : State → State} (v : Bool)
    (ha : ∀ (s : State) rst dc, atEnd (s.unread v rst dc) = (atEnd s).unread v rst dc)
    (actions : List Action) (s : State) (rst : Level) (dc : DcLevel) :
    UnreadApart v (finish atEnd (run actions s)) (finish atEnd (run actions (s.unread v rst dc))) := by
  obtain ⟨rst', dc', hr⟩ := run_unread actions s v rst dc
  refine ⟨rst', dc', ?_⟩
  rw [hr]
  cases run actions s with
  | done t => exact congrArg Host.Outcome.next (ha t rst' dc')
  | waiting t => rfl
  | err kind t => rfl
  | abort t => rfl
  | bad f => rfl

/-! ## Instructions -/

theorem resume_unread (op : Instr) (s : State) (v : Bool) (rst : Level) (dc : DcLevel) :
    UnreadApart v (resume op s) (resume op (s.unread v rst dc)) :=
  finish_unread v (fun _ _ _ => rfl) (s.rest op) s rst dc

/-- Admission reads `halted`, the operation in progress and `fsm`. -/
theorem runDriver_unread (i : Instr) (isInit : Bool) (operands : Option Refusal)
    (actions : List Action) (s : State) (v : Bool) (rst : Level) (dc : DcLevel) :
    UnreadApart v (runDriver i isInit operands actions s)
      (runDriver i isInit operands actions (s.unread v rst dc)) := by
  have hadmit : admitDriver isInit (s.unread v rst dc) = admitDriver isInit s := rfl
  unfold runDriver
  rw [hadmit]
  cases admitDriver isInit s with
  | some r => exact .refused v r
  | none =>
    cases operands with
    | some r => exact .refused v r
    | none => exact finish_unread v (fun _ _ _ => rfl) actions (s.started i) rst dc

/-- The next part of the operation in progress is found by its position and `fsm`. -/
theorem runWire_unread (operands : Option Refusal) (command : List Action) (s : State) (v : Bool)
    (rst : Level) (dc : DcLevel) :
    UnreadApart v (runWire operands command s) (runWire operands command (s.unread v rst dc)) := by
  have hhalted : (s.unread v rst dc).halted = s.halted := rfl
  have hnext : nextEmission command (s.unread v rst dc) = nextEmission command s := rfl
  unfold runWire
  rw [hhalted, hnext]
  cases s.halted with
  | true => exact .refused v .halted
  | false =>
    cases operands with
    | some r => exact .refused v r
    | none =>
      cases nextEmission command s with
      | none => exact .refused v .notInProcedure
      | some actions => exact finish_unread v (fun _ _ _ => rfl) actions s rst dc

theorem runFramebuffer_unread {effect : State → Host.Outcome State Fault Refusal} {s : State}
    {v : Bool} {rst : Level} {dc : DcLevel}
    (h : UnreadApart v (effect s) (effect (s.unread v rst dc))) :
    UnreadApart v (runFramebuffer effect s) (runFramebuffer effect (s.unread v rst dc)) := by
  have hadmit : admitAny (s.unread v rst dc) = admitAny s := rfl
  unfold runFramebuffer
  rw [hadmit]
  cases admitAny s with
  | some r => exact .refused v r
  | none => exact h

theorem exec_framebuffer_unread {i : Instr} (hi : i.isFramebuffer = true) (s : State) (v : Bool)
    (rst : Level) (dc : DcLevel) : UnreadApart v (exec i s) (exec i (s.unread v rst dc)) := by
  cases i with
  | fbClear color => simp only [exec, execFbClear]; exact runFramebuffer_unread ⟨rst, dc, rfl⟩
  | fbSetPixel x y color =>
    simp only [exec, execFbSetPixel]
    refine runFramebuffer_unread ⟨rst, dc, ?_⟩
    by_cases hr : InRange s.cfg s.rot x.toNat y.toNat
    · have hr' : InRange (s.unread v rst dc).cfg (s.unread v rst dc).rot x.toNat y.toNat := hr
      rw [if_pos hr, if_pos hr']
      simp only [State.unread]
      split <;> rfl
    · have hr' : ¬ InRange (s.unread v rst dc).cfg (s.unread v rst dc).rot x.toNat y.toNat := hr
      rw [if_neg hr, if_neg hr']
      rfl
  | fbSetRotation r => simp only [exec, execFbSetRotation]; exact runFramebuffer_unread ⟨rst, dc, rfl⟩
  | fbRotation => simp only [exec, execFbRotation]; exact runFramebuffer_unread ⟨rst, dc, rfl⟩
  | fbSize => simp only [exec, execFbSize]; exact runFramebuffer_unread ⟨rst, dc, rfl⟩
  | fbBlackData => simp only [exec, execFbBlackData]; exact runFramebuffer_unread ⟨rst, dc, rfl⟩
  | fbRedData => simp only [exec, execFbRedData]; exact runFramebuffer_unread ⟨rst, dc, rfl⟩
  | _ => cases hi

theorem exec_unread (i : Instr) (s : State) (v : Bool) (rst : Level) (dc : DcLevel) :
    UnreadApart v (exec i s) (exec i (s.unread v rst dc)) := by
  rcases instr_kinds i with ⟨hi, -⟩ | ⟨hi, -⟩ | ⟨hi, -⟩
  · rw [exec_eq_runDriver hi, exec_eq_runDriver hi]
    exact runDriver_unread _ _ _ _ s v rst dc
  · rw [exec_eq_runWire hi, exec_eq_runWire hi]
    exact runWire_unread _ _ s v rst dc
  · exact exec_framebuffer_unread hi s v rst dc

/-! ## Steps -/

/-- Decoding reads the frame and the parameters. -/
theorem acceptFrame_unread (f : Frame) (s : State) (v : Bool) (rst : Level) (dc : DcLevel) :
    UnreadApart v (acceptFrame f s) (acceptFrame f (s.unread v rst dc)) := by
  have hhalted : (s.unread v rst dc).halted = s.halted := rfl
  have hdecode : decodeFrame (s.unread v rst dc).cfg f = decodeFrame s.cfg f := rfl
  unfold acceptFrame
  rw [hhalted, hdecode]
  cases s.halted with
  | true => exact .refused v .halted
  | false =>
    cases decodeFrame s.cfg f with
    | none => exact .refused v .reservedEncoding
    | some i => exact exec_unread i s v rst dc

/-- The next frame is the same one, taken from a state that differs in the fields alone. -/
theorem nextFrame_unread (s : State) (v : Bool) (rst : Level) (dc : DcLevel) :
    nextFrame (s.unread v rst dc) = (nextFrame s).map fun p => (p.1, p.2.unread v rst dc) := by
  have hcur : (s.unread v rst dc).curOp = s.curOp := rfl
  have hslot : (s.unread v rst dc).wireSlot = s.wireSlot := rfl
  have hreq : (s.unread v rst dc).requests = s.requests := rfl
  unfold nextFrame
  rw [hcur, hslot, hreq]
  cases s.curOp with
  | some op => cases s.wireSlot <;> rfl
  | none => cases s.requests <;> rfl

theorem advance_unread (s : State) (v : Bool) (rst : Level) (dc : DcLevel) :
    UnreadApart v (advance s) (advance (s.unread v rst dc)) := by
  have hcur : (s.unread v rst dc).curOp = s.curOp := rfl
  unfold advance
  rw [nextFrame_unread, hcur]
  cases nextFrame s with
  | some p => exact acceptFrame_unread p.1 p.2 v rst dc
  | none =>
    cases s.curOp with
    | some op => exact resume_unread op s v rst dc
    | none => exact ⟨rst, dc, rfl⟩

/-- The countdown to a block reset reads `resets` alone. -/
theorem State.ticked_unread (s : State) (v : Bool) (rst : Level) (dc : DcLevel) :
    (s.unread v rst dc).ticked = s.ticked.unread v rst dc := by
  have hresets : (s.unread v rst dc).resets = s.resets := rfl
  unfold State.ticked
  rw [hresets]
  split <;> rfl

theorem step_unread {s : State} (hn : NoResetDue s) (v : Bool) (rst : Level) (dc : DcLevel) :
    UnreadApart v (step s) (step (s.unread v rst dc)) := by
  rw [step_of_noReset hn, step_of_noReset (s := s.unread v rst dc) hn, State.ticked_unread]
  exact advance_unread s.ticked v rst dc

/-- Settles O59: the two steps have the same outcome, a next state but for the fields nothing reads. -/
theorem nothingReadsTheInversionFlagOrThePins :
    Obligations.NothingReadsTheInversionFlagOrThePins := by
  intro s v rst dc hn
  obtain ⟨rst', dc', hstep⟩ := step_unread hn v rst dc
  refine ⟨fun t ht => ⟨rst', dc', ?_⟩, fun r hr => ?_⟩
  · rw [ht] at hstep; exact hstep
  · rw [hr] at hstep; exact hstep

end Sys2Proof.Machine
end

section
/-! PROOFS. 10_state.md R21: the transitions of `fsm` (O44), by what a driver operation, going on after a wait
and a wire command can leave. -/

namespace Sys2Proof.Machine

/-! ## Steps -/

/-- A driver operation that changes `fsm` is `INIT`, at one of its waits or its ends, or it failed. -/
theorem DriverEnd.fsm {i : Instr} {s t : State} (h : DriverEnd i s t) (hne : t.fsm ≠ s.fsm) :
    i = .init ∧ (t.fsm = .softwareReset ∨ t.fsm = .configuring ∨ t.fsm = .ready ∨
      t.fsm = .faulted) ∨ i ≠ .init ∧ t.fsm = .faulted := by
  by_cases hinit : i = .init
  · refine .inl ⟨hinit, ?_⟩
    cases h with
    | done _ ht =>
      subst hinit ht
      exact .inr (.inr (.inl (lastFsm_init s.cfg s.fsm)))
    | waitInit _ _ pos =>
      rcases pos with ⟨-, hf⟩ | ⟨-, hf⟩
      · exact .inl hf
      · exact .inr (.inl hf)
    | waitDisplay _ _ pos => exact absurd pos.2 hne
    | err k u _ ht => subst ht; exact .inr (.inr (.inr rfl))
    | abort _ _ _ _ _ _ ht => subst ht; exact absurd rfl hne
  · refine .inr ⟨hinit, ?_⟩
    cases h with
    | done _ ht => subst ht; exact absurd (lastFsm_driverProcedure hinit s.fsm) hne
    | waitInit hi _ _ => exact absurd hi hinit
    | waitDisplay _ _ pos => exact absurd pos.2 hne
    | err k u _ ht => subst ht; rfl
    | abort _ _ _ _ _ _ ht => subst ht; exact absurd rfl hne

/-- A host operation that changes `fsm` was a driver operation, admitted where 42_driver_ops.md R160 says. -/
theorem exec_host_fsm {i : Instr} {s t : State} (h : exec i s = .next t) (hw : i.isWire = false)
    (hc : s.cfg.Valid) (hne : t.fsm ≠ s.fsm) :
    (i = .init ∧ (s.fsm = .uninitialized ∨ s.fsm = .ready) ∧
      (t.fsm = .softwareReset ∨ t.fsm = .configuring ∨ t.fsm = .ready ∨ t.fsm = .faulted)) ∨
    (i.isDriver = true ∧ s.fsm = .ready ∧ t.fsm = .faulted) := by
  rcases instr_kinds i with ⟨hi, -⟩ | ⟨hi, -⟩ | ⟨hi, -⟩
  · obtain ⟨-, -, -, hadmitted⟩ := exec_driver_cases hi h
    rcases (exec_driver_end hc hi h).fsm hne with ⟨hinit, hf⟩ | ⟨hinit, hf⟩
    · exact .inl ⟨hinit, hadmitted.symm.imp_left And.right, hf⟩
    · exact .inr ⟨hi, hadmitted.resolve_right fun hu => hinit hu.1, hf⟩
  · rw [hw] at hi; cases hi
  · have hframe := (exec_framebuffer_cases hi h).2.frame
    exact absurd (by rw [hframe]) hne

/-- Going on after a wait: `INIT` goes on to its second wait, its end or a failure (42_driver_ops.md R161). -/
theorem ResumeEnd.fsm {op : Instr} {s t : State} (hs : SequencerPlace s) (hc : s.curOp = some op)
    (h : ResumeEnd op s t) (hne : t.fsm ≠ s.fsm) :
    s.fsm = .softwareReset ∧ (t.fsm = .configuring ∨ t.fsm = .ready ∨ t.fsm = .faulted) ∨
      s.fsm = .configuring ∧ t.fsm = .ready := by
  cases h with
  | waiting _ _ fsm _ =>
    obtain ⟨hsf, htf⟩ := fsm.resolve_left hne
    exact .inl ⟨hsf, .inl htf⟩
  | done _ _ fsm _ =>
    rcases hs.rest hc with ⟨-, -, hsf, -⟩ | ⟨-, -, hsf, -⟩ | ⟨-, -, hsf, -⟩
    · exact .inl ⟨hsf, .inr (.inl fsm)⟩
    · exact .inr ⟨hsf, fsm⟩
    · exact absurd (fsm.trans hsf.symm) hne
  | err k u _ ht _ fsm => subst ht; exact .inl ⟨fsm, .inr (.inr rfl)⟩

/-! ## Commands in a procedure -/

/-- How `fsm` may stand behind the last primitive before a command byte, and at the command byte. -/
def CommandFsm (before now : Fsm) : Prop :=
  before = .resetting ∧ now = .softwareReset ∨
  before = .softwareReset ∧ now = .configuring ∨
  now = before ∧ (before = .softwareReset ∨ before = .configuring ∨ before = .ready)

/-- Before a command byte `fsm` is one of the transient states or `Ready`. -/
theorem CommandFsm.before_cases {before now : Fsm} (h : CommandFsm before now) :
    before = .resetting ∨ before = .softwareReset ∨ before = .configuring ∨ before = .ready := by
  rcases h with ⟨hreset, -⟩ | ⟨hsoft, -⟩ | ⟨-, hrest⟩
  · exact .inl hreset
  · exact .inr (.inl hsoft)
  · exact .inr hrest

/-- A list of actions keeps to `CommandFsm` at each command byte, and has changed nothing since the last
primitive at a contract check, where `fsm` was `before` behind the last primitive and is `now`. -/
def CommandsInPlace : List Action → Fsm → Fsm → Prop
  | [], _, _ => True
  | .fsm f :: rest, before, _ => CommandsInPlace rest before f
  | .contract _ :: rest, before, now => now = before ∧ CommandsInPlace rest before now
  | .prim (.setDc .cmd) :: rest, before, now => CommandFsm before now ∧ CommandsInPlace rest now now
  | .prim (.setDc .data) :: rest, _, now => CommandsInPlace rest now now
  | .prim (.setRst _) :: rest, _, now => CommandsInPlace rest now now
  | .prim (.xfer _) :: rest, _, now => CommandsInPlace rest now now
  | .prim (.delay _) :: rest, _, now => CommandsInPlace rest now now
  | .prim .readBusy :: rest, _, now => CommandsInPlace rest now now

/-- Behind a primitive the list goes on from `fsm` as it is. -/
theorem CommandsInPlace.of_prim {p : Prim} {rest : List Action} {before now : Fsm}
    (h : CommandsInPlace (.prim p :: rest) before now) : CommandsInPlace rest now now := by
  cases p with
  | setDc level => cases level with
    | cmd => exact h.2
    | data => exact h
  | setRst level => exact h
  | xfer bytes => exact h
  | delay ms => exact h
  | readBusy => exact h

/-- What is left behind some primitives keeps to it as the whole does. -/
theorem CommandsInPlace.skipPrims {as : List Action} {f : Fsm} (h : CommandsInPlace as f f) (n : Nat) :
    CommandsInPlace (skipPrims n as) (fsmBefore n as f) (fsmBefore n as f) := by
  have key : ∀ (as : List Action) (n : Nat) (before now : Fsm), CommandsInPlace as before now →
      CommandsInPlace (Machine.skipPrims (n + 1) as) (fsmBefore (n + 1) as now)
        (fsmBefore (n + 1) as now) := by
    intro as
    induction as with
    | nil => intros; trivial
    | cons a rest ih =>
      intro n before now h
      cases a with
      | fsm g => exact ih n before g h
      | contract b => exact ih n before now h.2
      | prim p =>
        cases n with
        | zero => cases rest <;> exact h.of_prim
        | succ n => exact ih n now now h.of_prim
  cases n with
  | zero => cases as <;> exact h
  | succ n => exact key as n f f h

/-- Before a command stand only changes of `fsm` that the list of 10_state.md R21 has. -/
theorem CommandsInPlace.commandFsm {checks rest : List Action} {before now : Fsm}
    (h : CommandsInPlace (checks ++ .prim (.setDc .cmd) :: rest) before now) (hn : NoPrims checks) :
    CommandFsm before (lastFsm checks now) := by
  induction checks generalizing now with
  | nil => exact h.1
  | cons a checks ih =>
    cases a with
    | prim p => exact absurd (List.mem_cons_self ..) (hn p)
    | fsm f => exact ih h hn.tail
    | contract b => exact ih h.2 hn.tail

/-- A contract check before a command fails where `fsm` is as the last primitive left it. -/
theorem CommandsInPlace.abort_fsm {checks command rest : List Action} {before : Fsm} {s u : State}
    (h : CommandsInPlace (checks ++ rest) before s.fsm) (hn : NoPrims checks)
    (hcommand : ∀ b, .contract b ∉ command) (hr : run (checks ++ command) s = .abort u) :
    u.fsm = before := by
  induction checks generalizing s with
  | nil =>
    have he := run_endsAt command s
    rw [show run command s = .abort u from hr] at he
    cases he with
    | abort pre post hmem => exact absurd (by rw [hmem]; simp) (hcommand false)
  | cons a checks ih =>
    cases a with
    | prim p => exact absurd (List.mem_cons_self ..) (hn p)
    | fsm f => exact ih (s := { s with fsm := f }) h hn.tail hr
    | contract b =>
      obtain ⟨hsame, hrest⟩ := h
      cases b with
      | true => exact ih hrest hn.tail hr
      | false => cases hr; exact hsame

/-! ## The procedures -/

/-- A list of actions that leaves `fsm` where it was, wherever that was, does not change it on the way. -/
theorem fsm_not_mem_of_lastFsm {as : List Action} (h : ∀ f, lastFsm as f = f) (g : Fsm) :
    .fsm g ∉ as := by
  intro hm
  have hconst : ∀ f, lastFsm as f = lastFsm as g := by
    clear h
    induction as with
    | nil => cases hm
    | cons a rest ih =>
      intro f
      cases a with
      | fsm f' => rfl
      | prim p => exact ih ((List.mem_cons.mp hm).resolve_left (by simp)) f
      | contract b => exact ih ((List.mem_cons.mp hm).resolve_left (by simp)) f
  have hready := hconst .ready
  have hfaulted := hconst .faulted
  rw [h, h] at hready hfaulted
  rw [← hready] at hfaulted
  cases hfaulted

/-- A list of actions without a change of `fsm` keeps to `CommandFsm` where it starts at `Ready`. -/
theorem commandsInPlace_of_no_fsm {as : List Action} (h : ∀ g, .fsm g ∉ as) :
    CommandsInPlace as .ready .ready := by
  induction as with
  | nil => trivial
  | cons a rest ih =>
    have hrest := ih fun g hm => h g (List.mem_cons_of_mem _ hm)
    cases a with
    | fsm f => exact absurd (List.mem_cons_self ..) (h f)
    | contract b => exact ⟨rfl, hrest⟩
    | prim p =>
      cases p with
      | setDc level => cases level with
        | cmd => exact ⟨.inr (.inr ⟨rfl, .inr (.inr rfl)⟩), hrest⟩
        | data => exact hrest
      | setRst level => exact hrest
      | xfer bytes => exact hrest
      | delay ms => exact hrest
      | readBusy => exact hrest

/-- In `INIT` the command byte of `SW_RESET` comes behind the change to `SoftwareReset`, that of
`DRIVER_CONTROL` behind the change to `Configuring`, and the others change nothing (42_driver_ops.md R161). -/
theorem commandsInPlace_init (c : Config) : CommandsInPlace (initProcedure c) .ready .ready := by
  simp [initProcedure, resetPulse, emitSwReset, waitUntilIdle, emitDriverControl, emitDataMode,
    selectFullFrame, setRamWindow, setRamCursor, emitSetRamXPos, emitSetRamYPos, emitSetRamXCount,
    emitSetRamYCount, emitWriteBorder, emitTempControl, sendCommandWithData, sendCommand, sendData,
    CommandsInPlace, CommandFsm]

theorem commandsInPlace_driverProcedure (c : Config) (op : Instr) :
    CommandsInPlace (driverProcedure c op) .ready .ready := by
  by_cases h : op = .init
  · subst h; exact commandsInPlace_init c
  · exact commandsInPlace_of_no_fsm (fsm_not_mem_of_lastFsm (lastFsm_driverProcedure h))

/-! ## Wire commands -/

/-- A wire command run alone that changes `fsm` makes the change that comes right before it, or fails. -/
theorem exec_wire_fsm {i : Instr} {s t : State} (hi : i.isWire = true) (h : exec i s = .next t)
    (hne : t.fsm ≠ s.fsm) : ∃ now, CommandFsm s.fsm now ∧ (t.fsm = now ∨ t.fsm = .faulted) := by
  obtain ⟨-, -, op, checks, rest, -, hfsm, hrest, hn, he⟩ := exec_wire_end hi h
  obtain ⟨b, ps, hps, hsend⟩ := emission_eq hi s.cfg
  obtain ⟨-, -, hsamples, -, hkeeps⟩ := sends_pieces (ps := .setDc .cmd :: .xfer [b] :: ps)
    (by simpa [Prim.sends] using hsend)
  rw [← hps] at hsamples hkeeps
  have hplace : CommandsInPlace (checks ++ (emission s.cfg i ++ rest)) s.fsm s.fsm := by
    rw [← List.append_assoc, ← hrest, hfsm]
    exact (commandsInPlace_driverProcedure s.cfg op).skipPrims s.useq
  have hcmd : CommandFsm s.fsm (lastFsm checks s.fsm) := by
    rw [hps] at hplace
    exact hplace.commandFsm hn
  refine ⟨_, hcmd, ?_⟩
  cases he with
  | done _ ht =>
    subst ht
    refine .inl ?_
    show lastFsm (checks ++ emission s.cfg i) s.fsm = lastFsm checks s.fsm
    rw [lastFsm_append, hkeeps]
  | waiting hr =>
    exact absurd hr (run_ne_waiting (by rw [sampleCount_append, (checks_pieces hn).2.2.1, hsamples]))
  | err k u _ ht => subst ht; exact .inr rfl
  | abort u hr ht =>
    subst ht
    have hcontract : ∀ b, .contract b ∉ emission s.cfg i := by rw [hps]; simp
    exact absurd (hplace.abort_fsm hn hcontract hr) hne

/-- Settles O44: a step by what `INIT`, a failure or going on leaves, a wire command by its place in the
procedure of the operation in progress. -/
theorem fsmTransitionsFollowTheList : Obligations.FsmTransitionsFollowTheList := by
  refine ⟨fun s t hc hs hn hstep hne => ?_, fun s t i hi h hne => ?_⟩
  · rw [step_of_noReset hn, State.ticked_eq] at hstep
    rcases advance_cases hstep with ⟨op, hop, -, hres⟩ | ⟨f, s', i, hf, -, hd, he⟩ | ⟨-, -, rfl⟩
    · have hplace := hs.place.of_eq (t := { s with resets := s.ticked.resets }) rfl rfl rfl rfl
      have hend := resume_end (s := { s with resets := s.ticked.resets }) hc hplace hop hres
      have hmoves := hend.fsm hplace hop hne
      exact .inr (.inr hmoves)
    · rcases nextFrame_cases hf with ⟨_, _, -, hslot, -, -⟩ | ⟨b, rest, hcur, hreq, rfl, rfl⟩
      · exact absurd (hs.slot.symm.trans hslot) (by simp)
      · have hnext : nextFrame s = some (.host b, { s with requests := rest }) := by
          unfold nextFrame
          rw [show s.curOp = none from hcur, show s.requests = b :: rest from hreq]
        rcases exec_host_fsm he (isWire_of_decodeRequest hd) hc hne with
          ⟨rfl, hbefore, hafter⟩ | ⟨hi, hready, hfaulted⟩
        · exact .inl ⟨hbefore, ⟨_, _, hnext, hd⟩, hafter⟩
        · exact .inr (.inl ⟨hready, hfaulted, _, _, i, hnext, hd, hi⟩)
    · exact absurd rfl hne
  · obtain ⟨now, hcmd, hnow | hfaulted⟩ := exec_wire_fsm hi h hne
    · subst hnow
      rcases hcmd with hreset | hsoft | ⟨hsame, -⟩
      · exact .inl hreset
      · exact .inr (.inl hsoft)
      · exact absurd hsame hne
    · exact .inr (.inr ⟨hcmd.before_cases, hfaulted⟩)

end Sys2Proof.Machine
end

section
/-! PROOFS. 30_encoding.md R82, R91, R92, R101, R102: decoding and encoding are inverse to each other (O5
to O8), for host requests in any byte stream, for wire commands up to what their bytes drop. -/

namespace Sys2Proof

/-! ## Bytes -/

@[simp] theorem u16Bytes_u16 (l h : Byte) : u16Bytes (u16 l h) = [l, h] := by simp [u16Bytes]

/-- A buffer cut to the length its 16-bit field says has that length again (30_encoding.md R92). -/
theorem ofNat_length_take {n : U16} {bytes : List Byte} (h : n.toNat ≤ bytes.length) :
    BitVec.ofNat 16 (bytes.take n.toNat).length = n := by
  rw [List.length_take_of_le h, BitVec.ofNat_toNat, BitVec.setWidth_eq]

/-- What is read as an upload's operands are those bytes: the length, the buffer, and the rest. -/
theorem u16Bytes_take_append_drop {a b : Byte} {bytes : List Byte}
    (h : (u16 a b).toNat ≤ bytes.length) :
    u16Bytes (BitVec.ofNat 16 (bytes.take (u16 a b).toNat).length) ++ bytes.take (u16 a b).toNat
      ++ bytes.drop (u16 a b).toNat = a :: b :: bytes := by
  rw [ofNat_length_take h]
  simp

theorem fitsLength_take (n : U16) (bytes : List Byte) : fitsLength (bytes.take n.toNat) = true := by
  have hn := n.isLt
  have hlen := List.length_take_le n.toNat bytes
  simp only [fitsLength, decide_eq_true_eq]
  omega

@[simp] theorem fitsXByte_xOfByte (b : Byte) : fitsXByte (xOfByte b) = true :=
  decide_eq_true (toNat_xOfByte_lt b)

/-! ## Host requests -/

/-- The operand bytes of a host operation say their own length (30_encoding.md R92, R102). -/
theorem decodeOperands_operandBytes {c : Config} {i : Instr} {op : HostOp} (hop : i.op = .host op)
    (hw : i.wellFormed c = true) (rest : List Byte) :
    decodeOperands op (i.operandBytes c ++ rest) = some (i, rest) := by
  cases i <;> cases hop
  case updateBwFrame buffer | updateRedFrame buffer =>
    have hlen := toNat_length_field (buffer := buffer) (of_decide_eq_true hw)
    simp [Instr.operandBytes, decodeOperands, u16Bytes, hlen]
  all_goals simp [Instr.operandBytes, decodeOperands, u16Bytes]

theorem decodeFront_encode {c : Config} {i : Instr} {op : HostOp} (hop : i.op = .host op)
    (hw : i.wellFormed c = true) (rest : List Byte) :
    decodeFront (i.encode c ++ rest) = some (i, rest) := by
  simp [Instr.encode, hop, Op.firstByte, decodeFront, decodeOperands_operandBytes hop hw]

theorem op_of_not_isWire {i : Instr} (h : i.isWire = false) : ∃ op, i.op = .host op := by
  cases hop : i.op with
  | host op => exact ⟨op, rfl⟩
  | wire op => simp [Instr.isWire, hop] at h

theorem op_of_isWire {i : Instr} (h : i.isWire = true) : ∃ op, i.op = .wire op := by
  cases hop : i.op with
  | host op => simp [Instr.isWire, hop] at h
  | wire op => exact ⟨op, rfl⟩

/-- Settles O6: a selector names its operation, whose operand bytes say their own length; a request alone is
one that nothing follows. -/
theorem hostRequestRoundTrip : Obligations.HostRequestRoundTrip := by
  intro c i rest hi hw
  obtain ⟨op, hop⟩ := op_of_not_isWire hi
  refine ⟨decodeFront_encode hop hw rest, ?_⟩
  have halone := decodeFront_encode hop hw []
  rw [List.append_nil] at halone
  simp [decodeRequest, halone]

/-! ## Wire commands -/

/-- The payload of a wire command reads as the command's canonical form (log entry 14). -/
theorem decodePayload_operandBytes {c : Config} {i : Instr} {op : WireOp} (hop : i.op = .wire op)
    (hw : i.wellFormed c = true) :
    decodePayload c op (i.operandBytes c) = some (i.canonical c) := by
  cases i <;> cases hop
  case writeBwRam data | writeRedRam data => exact if_pos (Laws.EncodeLength.plane_length hw)
  all_goals simp [Instr.operandBytes, decodePayload, Instr.canonical, u16Bytes]

theorem decodeWire_encode {c : Config} {i : Instr} (hc : c.opcodes.toList.Nodup)
    (hi : i.isWire = true) (hw : i.wellFormed c = true) :
    decodeWire c (i.encode c) = some (i.canonical c) := by
  obtain ⟨op, hop⟩ := op_of_isWire hi
  simp [Instr.encode, hop, Op.firstByte, decodeWire, decodeOpcode_opcode hc,
    decodePayload_operandBytes hop hw]

/-- The canonical form is what the bytes say, so they say it again (20_memory.md R56, 30_encoding.md R88). -/
theorem encode_canonical (c : Config) (i : Instr) : (i.canonical c).encode c = i.encode c := by
  cases i with
  | setRamXPos x0 x1 => simp [Instr.canonical, Instr.encode, Instr.op, Instr.operandBytes]
  | setRamXCount x => simp [Instr.canonical, Instr.encode, Instr.op, Instr.operandBytes]
  | _ => rfl

/-- Settles O7: distinct opcodes name their command, whose payload reads as its canonical form. -/
theorem wireCommandRoundTrip : Obligations.WireCommandRoundTrip :=
  fun c i hc hi hw => ⟨decodeWire_encode hc.opcodes_nodup hi hw, encode_canonical c i⟩

/-! ## Exactness -/

/-- The operands read from the bytes after a selector are a well-formed operation of that selector, and the
bytes are its operand bytes and what is left over. -/
theorem decodeOperands_eq_some {op : HostOp} {bytes rest : List Byte} {i : Instr}
    (h : decodeOperands op bytes = some (i, rest)) (c : Config) :
    i.op = .host op ∧ i.wellFormed c = true ∧ bytes = i.operandBytes c ++ rest := by
  cases op with
  | setRamWindow | setRamCursor =>
    simp only [decodeOperands] at h
    split at h <;> cases h
    simp [Instr.op, Instr.wellFormed, Instr.operandBytes]
  | updateBwFrame | updateRedFrame =>
    simp only [decodeOperands] at h
    split at h
    · split at h <;> cases h
      rename_i hle
      exact ⟨rfl, fitsLength_take _ _, (u16Bytes_take_append_drop hle).symm⟩
    · cases h
  | fbClear | fbSetPixel =>
    simp only [decodeOperands] at h
    split at h
    · obtain ⟨color, hcolor, h⟩ := Option.map_eq_some_iff.mp h
      cases h
      exact ⟨rfl, rfl, by simp [Instr.operandBytes, decodeColor_eq_some hcolor]⟩
    · cases h
  | fbSetRotation =>
    simp only [decodeOperands] at h
    split at h
    · obtain ⟨r, hr, h⟩ := Option.map_eq_some_iff.mp h
      cases h
      exact ⟨rfl, rfl, by simp [Instr.operandBytes, decodeRotation_eq_some hr]⟩
    · cases h
  | _ => cases h; exact ⟨rfl, rfl, rfl⟩

/-- A payload that is read is the payload of a well-formed command of that opcode. -/
theorem decodePayload_eq_some {c : Config} {op : WireOp} {payload : List Byte} {i : Instr}
    (h : decodePayload c op payload = some i) :
    i.op = .wire op ∧ i.wellFormed c = true ∧ payload = i.operandBytes c := by
  cases op with
  | setRamXPos | setRamYPos | setRamXCount | setRamYCount =>
    simp only [decodePayload] at h
    split at h <;> cases h
    simp [Instr.op, Instr.wellFormed, Instr.operandBytes]
  | writeBwRam | writeRedRam =>
    simp only [decodePayload] at h
    split at h <;> cases h
    exact ⟨rfl, decide_eq_true ‹_›, rfl⟩
  | _ =>
    simp only [decodePayload] at h
    split at h <;> cases h
    exact ⟨rfl, rfl, ‹_›⟩

theorem decodeFront_eq_some {bytes rest : List Byte} {i : Instr}
    (h : decodeFront bytes = some (i, rest)) (c : Config) :
    ∃ op, i.op = .host op ∧ i.wellFormed c = true ∧ bytes = i.encode c ++ rest := by
  unfold decodeFront at h
  split at h
  · cases h
  · split at h
    · cases h
    · rename_i op hsel
      obtain ⟨hop, hw, hbytes⟩ := decodeOperands_eq_some h c
      exact ⟨op, hop, hw, by
        simp [Instr.encode, hop, Op.firstByte, decodeSelector_eq_some hsel, hbytes]⟩

/-- A request that is read is the encoding of a well-formed host operation, with nothing left over. -/
theorem decodeRequest_eq_some {bytes : List Byte} {i : Instr} (h : decodeRequest bytes = some i)
    (c : Config) : ∃ op, i.op = .host op ∧ i.wellFormed c = true ∧ i.encode c = bytes := by
  unfold decodeRequest at h
  split at h
  · rename_i hfront
    cases h
    obtain ⟨op, hop, hw, hbytes⟩ := decodeFront_eq_some hfront c
    exact ⟨op, hop, hw, by rw [hbytes, List.append_nil]⟩
  · cases h

theorem decodeWire_eq_some {c : Config} {bytes : List Byte} {i : Instr}
    (h : decodeWire c bytes = some i) :
    ∃ op, i.op = .wire op ∧ i.wellFormed c = true ∧ i.encode c = bytes := by
  unfold decodeWire at h
  split at h
  · cases h
  · split at h
    · cases h
    · rename_i op hopcode
      obtain ⟨hop, hw, hpayload⟩ := decodePayload_eq_some h
      exact ⟨op, hop, hw, by
        simp [Instr.encode, hop, Op.firstByte, decodeOpcode_eq_some hopcode, hpayload]⟩

/-- Settles O8: a frame of either space that is read is the encoding of what is read. -/
theorem decodingIsExact : Obligations.DecodingIsExact := by
  intro c f i h
  cases f with
  | host bytes =>
    obtain ⟨op, hop, hw, hbytes⟩ := decodeRequest_eq_some h c
    exact ⟨hw, by rw [Instr.frame, hop, hbytes]⟩
  | wire bytes =>
    obtain ⟨op, hop, hw, hbytes⟩ := decodeWire_eq_some h
    exact ⟨hw, by rw [Instr.frame, hop, hbytes]⟩

/-- Settles O5: the decoder read at thirteen written words. -/
theorem writtenWordsDecode : Obligations.WrittenWordsDecode := by
  unfold Obligations.WrittenWordsDecode
  decide

end Sys2Proof
end

section
/-! PROOFS. 60_exceptions.md R235: how a step meets the next frame. It runs what the frame decodes to (O4), and
refuses a frame that decodes to nothing, as every reserved request of 30_encoding.md R97 does (O9). -/

namespace Sys2Proof

/-! ## Reserved requests -/

/-- Selectors of 0x10 or more are reserved (30_encoding.md R97). -/
theorem decodeSelector_eq_none {b : Byte} (h : 0x10 ≤ b.toNat) : decodeSelector b = none := by
  refine Option.eq_none_iff_forall_ne_some.mpr fun op hop => ?_
  have hb := decodeSelector_eq_some hop
  subst hb
  cases op <;> exact absurd h (by decide)

/-- Colour codes above 2 are reserved (30_encoding.md R93). -/
theorem decodeColor_eq_none {b : Byte} (h : 3 ≤ b.toNat) : decodeColor b = none := by
  refine Option.eq_none_iff_forall_ne_some.mpr fun color hcolor => ?_
  have hb := decodeColor_eq_some hcolor
  subst hb
  cases color <;> exact absurd h (by decide)

/-- Rotation codes above 3 are reserved (30_encoding.md R94). -/
theorem decodeRotation_eq_none {b : Byte} (h : 4 ≤ b.toNat) : decodeRotation b = none := by
  refine Option.eq_none_iff_forall_ne_some.mpr fun r hr => ?_
  have hb := decodeRotation_eq_some hr
  subst hb
  cases r <;> exact absurd h (by decide)

/-- A request whose operands cannot be read is reserved. -/
theorem decodeRequest_of_operands {op : HostOp} {tail : List Byte}
    (h : decodeOperands op tail = none) : decodeRequest (op.selector :: tail) = none := by
  simp [decodeRequest, decodeFront, h]

/-- A selector names one operation. -/
theorem selector_injective {op op' : HostOp} (h : op.selector = op'.selector) : op = op' := by
  have hop := decodeSelector_selector op
  rw [h, decodeSelector_selector] at hop
  exact (Option.some.inj hop).symm

/-- A well-formed request is as long as it says (30_encoding.md R92). -/
theorem encode_length {c : Config} {i : Instr} {op : HostOp} (hop : i.op = .host op)
    (hw : i.wellFormed c = true) : (i.encode c).length = requestLength op (i.encode c) := by
  cases i <;> cases hop
  case updateBwFrame buffer => exact Laws.EncodeLength.updateBwFrame buffer c hw
  case updateRedFrame buffer => exact Laws.EncodeLength.updateRedFrame buffer c hw
  all_goals rfl

/-- A request of a length other than its selector says is reserved (30_encoding.md R97). -/
theorem decodeRequest_of_length_ne {op : HostOp} {tail : List Byte}
    (h : (op.selector :: tail).length ≠ requestLength op (op.selector :: tail)) :
    decodeRequest (op.selector :: tail) = none := by
  refine Option.eq_none_iff_forall_ne_some.mpr fun i hi => h ?_
  obtain ⟨op', hop, hw, hbytes⟩ := decodeRequest_eq_some hi Config.std
  have hsel : op'.selector = op.selector := by
    have hfirst := (List.cons.inj hbytes).1
    rwa [hop] at hfirst
  have hlen := encode_length hop hw
  rwa [hbytes, selector_injective hsel] at hlen

end Sys2Proof

namespace Sys2Proof.Machine

/-! ## Steps -/

theorem acceptFrame_of_decode {f : Frame} {s : State} {i : Instr} (hh : s.halted = false)
    (hd : decodeFrame s.cfg f = some i) : acceptFrame f s = exec i s := by
  simp [acceptFrame, hh, hd]

theorem acceptFrame_of_reserved {f : Frame} {s : State} (hh : s.halted = false)
    (hd : decodeFrame s.cfg f = none) : acceptFrame f s = .refused .reservedEncoding := by
  simp [acceptFrame, hh, hd]

theorem advance_of_frame {f : Frame} {s s' : State} (h : nextFrame s = some (f, s')) :
    advance s = acceptFrame f s' := by
  simp [advance, h]

theorem nextFrame_halted {f : Frame} {s s' : State} (h : nextFrame s = some (f, s')) :
    s'.halted = s.halted := by
  rcases nextFrame_cases h with ⟨_, _, -, -, -, rfl⟩ | ⟨_, _, -, -, -, rfl⟩ <;> rfl

/-- The frame taken next, and what is left behind it, do not depend on the block resets to come. -/
theorem nextFrame_resets {f : Frame} {s s' : State} (h : nextFrame s = some (f, s'))
    (resets : List ResetInput) :
    nextFrame { s with resets := resets } = some (f, { s' with resets := resets }) := by
  rcases nextFrame_cases h with ⟨_, _, hc, hw, rfl, rfl⟩ | ⟨_, _, hc, hr, rfl, rfl⟩
  · simp [nextFrame, hc, hw]
  · simp [nextFrame, hc, hr]

/-- The sequencer runs the instruction the next frame decodes to. -/
theorem advance_of_decode {f : Frame} {s s' : State} {i : Instr} (hh : s.halted = false)
    (hf : nextFrame s = some (f, s')) (hd : decodeFrame s.cfg f = some i) :
    advance s = exec i s' := by
  rw [advance_of_frame hf]
  exact acceptFrame_of_decode (by rw [nextFrame_halted hf, hh]) (by rw [(nextFrame_keeps hf).1, hd])

/-- Settles O4: `step` is the sequencer's beside the countdown, which is no part of the frame. -/
theorem stepRunsTheDecodedInstruction : Obligations.StepRunsTheDecodedInstruction := by
  refine ⟨fun s f s' i hh hf hd => ⟨fun hr => ?_, fun n u later hr => ?_⟩,
    fun s op hc hw hr => step_of_inProgress hr hw hc⟩
  · rw [step_of_noReset (noResetDue_of_nil hr), State.ticked_of_nil hr]
    exact advance_of_decode hh hf hd
  · have hstep : step s = advance { s with resets := ⟨n, u⟩ :: later } := by simp [step, hr]
    rw [hstep]
    exact advance_of_decode hh (nextFrame_resets hf _) hd

/-- A request that is reserved makes the step refuse. -/
theorem step_of_reserved {s : State} {bytes : List Byte} {more : List (List Byte)}
    (ha : Accepting s) (hr : s.resets = []) (hq : s.requests = bytes :: more)
    (hd : decodeRequest bytes = none) : step s = .refused .reservedEncoding := by
  have hf : nextFrame s = some (.host bytes, { s with requests := more }) := by
    simp [nextFrame, ha.2, hq]
  rw [step_of_noReset (noResetDue_of_nil hr), State.ticked_of_nil hr, advance_of_frame hf]
  exact acceptFrame_of_reserved ha.1 hd

/-- Settles O9: in each of the forms of 30_encoding.md R97 the request decodes to nothing. -/
theorem reservedEncodingsAreRefused : Obligations.ReservedEncodingsAreRefused := by
  intro s bytes more ha hr hq
  have hreserved := step_of_reserved ha hr hq
  refine ⟨?_, ?_, ?_, ?_, ?_, ?_⟩
  · rintro sel tail rfl hsel
    exact hreserved (by simp [decodeRequest, decodeFront, decodeSelector_eq_none hsel])
  · rintro k rfl hk
    exact hreserved (decodeRequest_of_operands (op := .fbClear)
      (by simp [decodeOperands, decodeColor_eq_none hk]))
  · rintro a b d e k rfl hk
    exact hreserved (decodeRequest_of_operands (op := .fbSetPixel)
      (by simp [decodeOperands, decodeColor_eq_none hk]))
  · rintro k rfl hk
    exact hreserved (decodeRequest_of_operands (op := .fbSetRotation)
      (by simp [decodeOperands, decodeRotation_eq_none hk]))
  · rintro op tail rfl hlen
    exact hreserved (decodeRequest_of_length_ne hlen)
  · rintro rfl
    exact hreserved rfl

end Sys2Proof.Machine
end

section
/-! PROOFS. 30_encoding.md R101: the trace of a driver operation or a wire command parses back into its wire
commands (O56): they are well formed, their emissions are all the trace sends, and each frame of it decodes to
the canonical form of its command. -/

namespace Sys2Proof.Machine

/-! ## Frames read back -/

theorem decodeCommands_map_encode {c : Config} {ws : List Instr} (hc : c.opcodes.toList.Nodup)
    (hw : ∀ w ∈ ws, w.isWire = true ∧ w.wellFormed c = true) :
    decodeCommands c (ws.map (Instr.encode c)) = some (ws.map (Instr.canonical c)) := by
  induction ws with
  | nil => rfl
  | cons w ws ih =>
    obtain ⟨hwire, hwf⟩ := hw w List.mem_cons_self
    have htail := ih fun v hv => hw v (List.mem_cons_of_mem w hv)
    simp [decodeCommands, decodeWire_encode hc hwire hwf, htail]

/-- A trace that sends what the emissions of wire commands send parses into their canonical forms. -/
theorem parseTrace_of_sentBytes {c : Config} {ws : List Instr} {d : DcLevel} {events : List Event}
    (hc : c.opcodes.toList.Nodup) (hw : ∀ w ∈ ws, w.isWire = true ∧ w.wellFormed c = true)
    (h : sentBytes d events = sentBytes d (ws.flatMap fun w => okEvents (emission c w))) :
    parseTrace c d events = some (ws.map (Instr.canonical c)) := by
  have hgroup := groupCommands_wires (c := c) (fun w hm => (hw w hm).1) d
  simp only [parseTrace, h, hgroup]
  exact decodeCommands_map_encode hc hw

/-! ## The commands of an operation -/

theorem fitsXByte_of_checkX {xs : List U16} (h : checkX xs = none) {x : U16} (hx : x ∈ xs) :
    fitsXByte x = true := by
  have hnarrow : ¬ xs.any tooWide = true := by
    intro hwide
    simp [checkX, hwide] at h
  by_contra hfits
  exact hnarrow (List.any_eq_true.mpr ⟨x, hx, by simpa [tooWide, fitsXByte] using hfits⟩)

/-- A wire command whose operands pass their check is one its bytes can carry. -/
theorem wellFormed_of_operandCheck {c : Config} {i : Instr} (hi : i.isWire = true)
    (h : operandCheck c i = none) : i.wellFormed c = true := by
  cases i with
  | setRamXPos x0 x1 =>
    exact Bool.and_eq_true_iff.mpr
      ⟨fitsXByte_of_checkX h (by simp), fitsXByte_of_checkX h (by simp)⟩
  | setRamXCount x => exact fitsXByte_of_checkX h (by simp)
  | writeBwRam data | writeRedRam data => exact wellFormed_of_checkPlane h
  | updateBwFrame buffer | updateRedFrame buffer => cases hi
  | _ => rfl

/-- A wire command run alone is the one command of its trace. -/
theorem wireCommands_wire {c : Config} {i : Instr} (hi : i.isWire = true) :
    wireCommands c i = [i] := by
  cases i with
  | init | setRamWindow x0 y0 x1 y1 | setRamCursor x y | selectFullFrame | updateBwFrame buffer
  | updateRedFrame buffer | clearBwFrame | clearRedFrame | displayFrame | fbClear color
  | fbSetPixel x y color | fbSetRotation r | fbRotation | fbSize | fbBlackData | fbRedData => cases hi
  | _ => rfl

/-- The commands of `selectFullFrame`: the last column is below 2048 (00_scope.md R6). -/
theorem fullFrameCommands_wellFormed {c : Config} (hc : c.Valid) :
    ∀ w ∈ wireCommands.fullFrameCommands c, w.isWire = true ∧ w.wellFormed c = true := by
  have hwidth := hc.width_le
  have hlast : fitsXByte (BitVec.ofNat 16 (c.width - 1)) = true := by
    simp [fitsXByte]
    omega
  have hfirst : fitsXByte 0#16 = true := rfl
  simp [wireCommands.fullFrameCommands, Instr.isWire, Instr.op, Instr.wellFormed, hfirst, hlast]

/-- The commands of a driver operation whose operands pass their check (42_driver_ops.md R161 to R169). -/
theorem wireCommands_wellFormed {c : Config} {i : Instr} (hc : c.Valid) (hi : i.isDriver = true)
    (h : operandCheck c i = none) :
    ∀ w ∈ wireCommands c i, w.isWire = true ∧ w.wellFormed c = true := by
  have hfull := fullFrameCommands_wellFormed hc
  cases i with
  | init =>
    have hbefore : ∀ w ∈ [Instr.swReset, .driverControl, .dataMode],
        w.isWire = true ∧ w.wellFormed c = true := by simp [Instr.isWire, Instr.op, Instr.wellFormed]
    have hafter : ∀ w ∈ [Instr.writeBorder, .tempControl],
        w.isWire = true ∧ w.wellFormed c = true := by simp [Instr.isWire, Instr.op, Instr.wellFormed]
    exact List.forall_mem_append.mpr ⟨List.forall_mem_append.mpr ⟨hbefore, hfull⟩, hafter⟩
  | setRamWindow x0 y0 x1 y1 =>
    have h0 := fitsXByte_of_checkX h (x := x0) (by simp)
    have h1 := fitsXByte_of_checkX h (x := x1) (by simp)
    simp [wireCommands, Instr.isWire, Instr.op, Instr.wellFormed, h0, h1]
  | setRamCursor x y =>
    have hx := fitsXByte_of_checkX h (x := x) (by simp)
    simp [wireCommands, Instr.isWire, Instr.op, Instr.wellFormed, hx]
  | selectFullFrame => exact hfull
  | updateBwFrame buffer | updateRedFrame buffer =>
    exact List.forall_mem_append.mpr
      ⟨hfull, List.forall_mem_singleton.mpr ⟨rfl, wellFormed_of_checkPlane h⟩⟩
  | clearBwFrame | clearRedFrame =>
    exact List.forall_mem_append.mpr ⟨hfull, List.forall_mem_singleton.mpr ⟨rfl, rfl⟩⟩
  | displayFrame => simp [wireCommands, Instr.isWire, Instr.op, Instr.wellFormed]
  | _ => cases hi

/-- The pulse on RST, the delays and the samples of BUSY send nothing: what a procedure sends is what the
emissions of its wire commands send. -/
theorem sentBytes_driverProcedure {c : Config} {i : Instr} (hi : i.isDriver = true) (d : DcLevel) :
    sentBytes d (okEvents (driverProcedure c i)) =
      sentBytes d ((wireCommands c i).flatMap fun w => okEvents (emission c w)) := by
  cases i with
  | init =>
    simp [driverProcedure, initProcedure, selectFullFrame, wireCommands, wireCommands.fullFrameCommands,
      emission, okEvents, cmd, dat, sentBytes]
  | displayFrame =>
    simp [driverProcedure, displayProcedure, wireCommands, emission, cmd, dat, sentBytes]
  | setRamWindow x0 y0 x1 y1 | setRamCursor x y => simp [driverProcedure, wireCommands, emission]
  | selectFullFrame | updateBwFrame buffer | updateRedFrame buffer | clearBwFrame | clearRedFrame =>
    simp [driverProcedure, selectFullFrame, wireCommands, wireCommands.fullFrameCommands, emission]
  | _ => cases hi

/-! ## Fault-free ends -/

/-- An end that is no abort, with no failure and an idle panel, is the end of the actions. -/
theorem Ends.eq_of_noTransportFault {atEnd : State → State} {actions : List Action} {s t : State}
    (h : Ends atEnd actions s t) (hp : NoTransportFault s) (hb : IdleFor (sampleCount actions) s)
    (hh : t.halted = false) : t = atEnd (s.afterOk actions) := by
  have he := run_endsAt actions s
  cases h with
  | done _ ht => exact ht
  | waiting hr =>
    rw [hr] at he
    cases he with
    | waiting pre post hactions hbusy =>
      have hidle := hb (sampleCount pre) (by rw [hactions]; simp [sampleCount])
      exact absurd (hidle.symm.trans hbusy) (by simp)
  | err k u hr _ =>
    rw [hr] at he
    cases he with
    | err pre post p k u _ hperform =>
      obtain ⟨-, -, -, -, -, -, -, hfail⟩ := perform_err_inv hperform
      exact absurd (hp.of_drop (t := s.afterOk pre) (answerCount pre) rfl).head hfail
  | abort u _ ht => subst ht; cases hh

theorem sampleCount_driverProcedure_le (c : Config) (i : Instr) :
    sampleCount (driverProcedure c i) ≤ 2 := by
  by_cases hinit : i = .init
  · subst hinit; simp [driverProcedure, initProcedure_eq, sampleCount]
  by_cases hdisplay : i = .displayFrame
  · subst hdisplay; simp [driverProcedure, displayProcedure_eq]
  rw [sampleCount_driverProcedure hinit hdisplay]
  omega

/-- What a fault-free driver operation that does not abort adds to the trace. -/
theorem exec_driver_events {i : Instr} {s t : State} (hi : i.isDriver = true)
    (h : exec i s = .next t) (hp : NoTransportFault s) (hb : IdleFor 2 s) (hh : t.halted = false) :
    t.events = s.events ++ okEvents (driverProcedure s.cfg i) := by
  obtain ⟨-, -, he, -⟩ := exec_driver_cases hi h
  have hidle : IdleFor (sampleCount (driverProcedure s.cfg i)) (s.started i) :=
    (hb.mono (sampleCount_driverProcedure_le s.cfg i)).of_eq rfl
  rw [he.eq_of_noTransportFault (hp.of_drop 0 rfl) hidle hh]
  simp

/-- What a fault-free wire command that does not abort adds to the trace. -/
theorem exec_wire_events {i : Instr} {s t : State} (hi : i.isWire = true)
    (h : exec i s = .next t) (hp : NoTransportFault s) (hh : t.halted = false) :
    t.events = s.events ++ okEvents (emission s.cfg i) := by
  obtain ⟨-, -, op, checks, rest, -, -, -, hn, he⟩ := exec_wire_end hi h
  obtain ⟨b, ps, hps, hsend⟩ := emission_eq hi s.cfg
  obtain ⟨-, -, hsamples, -, -⟩ := sends_pieces (ps := .setDc .cmd :: .xfer [b] :: ps)
    (by simpa [Prim.sends] using hsend)
  obtain ⟨hevents, -, hnosample, -, -⟩ := checks_pieces hn
  have hidle : IdleFor (sampleCount (checks ++ emission s.cfg i)) s := by
    rw [sampleCount_append, hnosample, hps, hsamples]
    intro k hk
    simp at hk
  rw [he.eq_of_noTransportFault hp hidle hh]
  simp [hevents]

/-- Settles O56: the events added send what the emissions of the operation's wire commands send. -/
theorem traceParsesBackIntoCommands : Obligations.TraceParsesBackIntoCommands := by
  intro s t i hc hp hb hi h hh
  rcases hi with hi | hi
  · obtain ⟨-, ho, -, -⟩ := exec_driver_cases hi h
    exact ⟨_, exec_driver_events hi h hp hb hh, parseTrace_of_sentBytes hc.opcodes_nodup
      (wireCommands_wellFormed hc hi ho) (sentBytes_driverProcedure hi s.pinDc)⟩
  · obtain ⟨-, ho, -⟩ := exec_wire_cases hi h
    refine ⟨_, exec_wire_events hi h hp hh, ?_⟩
    rw [wireCommands_wire hi]
    exact parseTrace_of_sentBytes hc.opcodes_nodup
      (List.forall_mem_singleton.mpr ⟨hi, wellFormed_of_operandCheck hi ho⟩) (by simp)

end Sys2Proof.Machine
end

section
/-! PROOFS. 30_encoding.md R96, 60_exceptions.md R221, R222: the status codes and which of them a step can
answer (O42), by the primitives that can raise each. -/

namespace Sys2Proof.Machine

/-- `t` answers nothing that `s` did not, or one response more: status 0x00 with a result, or one of the four
error codes alone (60_exceptions.md R222). -/
def AnswersAtMostOne (s t : State) : Prop :=
  t.responses = s.responses ∨ ∃ status result, t.responses = s.responses ++ [status :: result] ∧
    (status = 0x00 ∨ (result = [] ∧
      (status = 0x02 ∨ status = 0x03 ∨ status = 0x04 ∨ status = 0x05)))

/-- The codes of the errors a primitive can raise (30_encoding.md R96). -/
theorem Prim.raises_code {p : Prim} {kind : ErrorKind} (h : p.raises kind) :
    kind.code = 0x02 ∨ kind.code = 0x03 ∨ kind.code = 0x04 ∨ kind.code = 0x05 := by
  cases p with
  | setRst level => cases h; exact .inr (.inr (.inr rfl))
  | setDc level => cases h; exact .inr (.inl rfl)
  | xfer bytes =>
    rcases h with rfl | rfl
    · exact .inl rfl
    · exact .inr (.inr (.inl rfl))
  | delay ms | readBusy => exact h.elim

/-- `RSError` is raised by the writes of RST alone (60_exceptions.md R221). -/
theorem Prim.eq_setRst_of_raises {p : Prim} {kind : ErrorKind} (h : p.raises kind)
    (hcode : kind.code = 0x05) : ∃ level, p = .setRst level := by
  cases p with
  | setRst level => exact ⟨level, rfl⟩
  | setDc level => cases h; cases hcode
  | xfer bytes => rcases h with rfl | rfl <;> cases hcode
  | delay ms | readBusy => exact h.elim

/-! ## Runs of actions -/

/-- What follows an operation's last action: nothing, or the answer `Ok`. -/
def AnswersOk (atEnd : State → State) : Prop :=
  ∀ u, (atEnd u).trace = u.trace ∧
    ((atEnd u).responses = u.responses ∨ (atEnd u).responses = u.responses ++ [[0x00]])

theorem answersOk_respond : AnswersOk (respond []) := fun _ => ⟨rfl, .inr rfl⟩
theorem answersOk_id : AnswersOk id := fun _ => ⟨rfl, .inl rfl⟩

theorem Ends.answersAtMostOne {atEnd : State → State} {actions : List Action} {s t : State}
    (h : Ends atEnd actions s t) (ha : AnswersOk atEnd) : AnswersAtMostOne s t := by
  rcases (h.adds ha).2 with hsame | hok | ⟨p, kind, -, hraises, herr, -⟩
  · exact .inl hsame
  · exact .inr ⟨_, _, hok, .inl rfl⟩
  · exact .inr ⟨_, _, herr, .inr ⟨rfl, Prim.raises_code hraises⟩⟩

/-- Actions that answer 0x05 write RST. -/
theorem Ends.setRst_mem {atEnd : State → State} {actions : List Action} {s t : State}
    (h : Ends atEnd actions s t) (ha : AnswersOk atEnd)
    (ht : t.responses = s.responses ++ [[0x05]]) : ∃ level, .prim (.setRst level) ∈ actions := by
  rcases (h.adds ha).2 with hsame | hok | ⟨p, kind, hmem, hraises, herr, -⟩
  · simp [hsame] at ht
  · simp [hok] at ht
  · have hcode : kind.code = 0x05 := by simpa [herr] using ht
    obtain ⟨level, rfl⟩ := Prim.eq_setRst_of_raises hraises hcode
    exact ⟨level, hmem⟩

/-! ## Instructions -/

/-- A framebuffer operation answers status 0x00. -/
theorem Drawn.responses {i : Instr} {s t : State} (h : Drawn s t i) :
    ∃ result, t.responses = s.responses ++ [0x00 :: result] := by
  cases h <;> subst t <;> exact ⟨_, rfl⟩

theorem exec_answersAtMostOne {i : Instr} {s t : State} (h : exec i s = .next t) :
    AnswersAtMostOne s t := by
  rcases instr_kinds i with ⟨hi, -⟩ | ⟨hi, -⟩ | ⟨hi, -⟩
  · obtain ⟨-, -, he, -⟩ := exec_driver_cases hi h
    exact he.answersAtMostOne (s := s.started i) answersOk_respond
  · obtain ⟨-, -, actions, -, he⟩ := exec_wire_cases hi h
    exact he.answersAtMostOne answersOk_id
  · obtain ⟨result, hresp⟩ := (exec_framebuffer_cases hi h).2.responses
    exact .inr ⟨_, result, hresp, .inl rfl⟩

theorem advance_answersAtMostOne {s t : State} (h : advance s = .next t) : AnswersAtMostOne s t := by
  rcases advance_cases h with ⟨op, -, -, hres⟩ | ⟨f, s', i, hf, -, -, hexec⟩ | ⟨-, -, rfl⟩
  · exact (finish_cases hres).answersAtMostOne answersOk_respond
  · have hanswers := exec_answersAtMostOne hexec
    rcases nextFrame_cases hf with ⟨_, _, -, -, -, rfl⟩ | ⟨_, _, -, -, -, rfl⟩ <;> exact hanswers
  · exact .inl rfl

/-- No part of a wire command's run writes RST, not even inside `INIT`. -/
theorem setRst_not_mem_wire {i : Instr} (hi : i.isWire = true) (c : Config) {checks : List Action}
    (hn : NoPrims checks) (level : Level) : .prim (.setRst level) ∉ checks ++ emission c i := by
  obtain ⟨b, ps, hps, hsend⟩ := emission_eq hi c
  intro hm
  rcases List.mem_append.mp hm with hm | hm
  · exact hn _ hm
  · rw [hps] at hm
    have hmem : .setRst level ∈ ps := by simpa using hm
    exact hsend _ hmem

/-- 60_exceptions.md R222: `RSError` is `INIT`'s alone. -/
theorem eq_init_of_rsError {i : Instr} {s t : State} (h : exec i s = .next t)
    (ht : t.responses = s.responses ++ [[0x05]]) : i = .init := by
  rcases instr_kinds i with ⟨hi, -⟩ | ⟨hi, -⟩ | ⟨hi, -⟩
  · obtain ⟨-, -, he, -⟩ := exec_driver_cases hi h
    obtain ⟨level, hmem⟩ := he.setRst_mem (s := s.started i) answersOk_respond ht
    by_contra hne
    exact no_setRst_driverProcedure hne level hmem
  · obtain ⟨-, -, op, checks, rest, -, -, -, hn, he⟩ := exec_wire_end hi h
    obtain ⟨level, hmem⟩ := he.setRst_mem answersOk_id ht
    exact absurd hmem (setRst_not_mem_wire hi s.cfg hn level)
  · obtain ⟨result, hresp⟩ := (exec_framebuffer_cases hi h).2.responses
    simp [hresp] at ht

/-- Settles O42: a step answers by the end of a run of actions or by a framebuffer operation. -/
theorem statusCodesThatCanOccur : Obligations.StatusCodesThatCanOccur := by
  refine ⟨rfl, fun s t hn hstep => ?_, fun s t i h ht => eq_init_of_rsError h ht,
    fun s t i hi h => ?_⟩
  · rw [step_of_noReset hn, State.ticked_eq] at hstep
    exact advance_answersAtMostOne (s := { s with resets := s.ticked.resets }) hstep
  · have hdrawn := (exec_framebuffer_cases hi h).2
    exact ⟨by rw [hdrawn.frame], hdrawn.responses⟩

end Sys2Proof.Machine
end

section
/-! PROOFS. 40_transport.md R120 to R126: the transport procedures, and how each ends at its first failure
(O10 to O13); a waiting operation at a busy panel (O51). -/

namespace Sys2Proof.Machine

/-! ## Runs up to a given answer -/

@[simp] theorem idleFor_zero (s : State) : IdleFor 0 s := fun k hk => absurd hk k.not_lt_zero

/-- A primitive that fails has taken an answer. -/
theorem answerCount_of_perform_err {p : Prim} {s t : State} {k : ErrorKind}
    (h : perform p s = .err k t) (rest : List Action) :
    answerCount (.prim p :: rest) = answerCount rest + 1 := by
  have hraises := (perform_err_inv h).1
  cases p with
  | setRst level | setDc level | xfer bytes => rfl
  | delay ms | readBusy => exact hraises.elim

/-- `run_ok` from the answers and samples that the actions take, whatever the environment says after them. -/
theorem run_done_of_okFor {actions : List Action} {s : State} (hs : Sound actions)
    (hok : OkFor (answerCount actions) s) (hidle : IdleFor (sampleCount actions) s) :
    run actions s = .done (s.afterOk actions) := by
  have hends := run_endsAt actions s
  generalize run actions s = e at hends
  cases hends with
  | done => rfl
  | waiting pre post h hbusy =>
    have hnext : (s.afterOk pre).busyFeed.head = .idle :=
      hidle (sampleCount pre) (by simp [h, sampleCount])
    rw [hnext] at hbusy
    cases hbusy
  | err pre post p k t h hp =>
    have hnext : (s.afterOk pre).portFeed.head = .ok :=
      hok (answerCount pre) (by simp [h, answerCount_of_perform_err hp])
    obtain ⟨-, -, -, -, -, -, -, hne⟩ := perform_err_inv hp
    exact absurd hnext hne
  | abort pre post h => exact absurd (h ▸ hs).of_append_cons.1 (by simp)
  | bad pre post h => exact absurd rfl (h ▸ hs).of_append_cons.1

/-- The first failure ends a run, with what was done before it (40_transport.md R126). -/
theorem run_err_of_okFor {pre : List Action} {p : Prim} {s t : State} {k : ErrorKind} {f : PortFault}
    (hs : Sound pre) (hok : OkFor (answerCount pre) s) (hidle : IdleFor (sampleCount pre) s)
    (hf : FailsAfter (answerCount pre) f s)
    (hp : (s.afterOk pre).portFeed.head = .fail f → perform p (s.afterOk pre) = .err k t)
    (post : List Action) : run (pre ++ .prim p :: post) s = .err k t := by
  rw [run_append, run_done_of_okFor hs hok hidle]
  exact run_prim_err (hp hf) post

/-! ## The pin, then bytes -/

/-- The pin write that each transport procedure but `reset()` starts with: its failure comes before anything
is on the bus. -/
theorem run_setDc_fail {s : State} {f : PortFault} (h : FailsAfter 0 f s) (level : DcLevel)
    (rest : List Action) : run (.prim (.setDc level) :: rest) s = .err .dcError { s with
      pinDc := f.dcAfter, portFeed := s.portFeed.drop 1, trace := .dcFail level :: s.trace } :=
  run_prim_err (perform_setDc_fail h level) rest

/-- The ends of a procedure that drives DC and sends (40_transport.md R120, R121). -/
theorem run_setDc_xfer (s : State) (level : DcLevel) {bytes : List Byte} (hne : bytes ≠ []) :
    (OkFor 2 s → run [.prim (.setDc level), .prim (.xfer bytes)] s = .done { s with
      pinDc := level, useq := s.useq + 2, portFeed := s.portFeed.drop 2,
      trace := .xfer bytes :: .dc level :: s.trace }) ∧
    (∀ f, FailsAfter 0 f s →
      run [.prim (.setDc level), .prim (.xfer bytes)] s = .err .dcError { s with
        pinDc := f.dcAfter, portFeed := s.portFeed.drop 1, trace := .dcFail level :: s.trace }) ∧
    (∀ f, OkFor 1 s → FailsAfter 1 f s →
      run [.prim (.setDc level), .prim (.xfer bytes)] s = .err f.xfer.kind { s with
        pinDc := level, useq := s.useq + 1, portFeed := s.portFeed.drop 2,
        trace := .xferFail bytes f.xfer.kind :: .dc level :: s.trace }) := by
  refine ⟨fun hok => run_done_of_okFor ⟨hne, trivial⟩ hok (idleFor_zero s),
    fun f hf => run_setDc_fail hf level _, fun f hok hf => ?_⟩
  have hpin : Sound [.prim (.setDc level)] := trivial
  rw [← List.singleton_append, run_err_of_okFor hpin hok (idleFor_zero s) hf
    (fun hfail => perform_xfer_fail hfail hne)]
  simp [State.afterOk, State.answered, State.failed, okEvents, answerCount, sampleCount, lastFsm,
    lastRst, lastDc, Prim.event]

/-- Settles O10: `sendCommand` and `sendData` are DC driven to a level and bytes sent at it. -/
theorem sendsDriveThePinThenTheBytes : Obligations.SendsDriveThePinThenTheBytes :=
  ⟨fun s opcode => run_setDc_xfer s .cmd (List.cons_ne_nil opcode []),
    fun s _ hne => run_setDc_xfer s .data hne⟩

/-- Settles O11: running two parts of a procedure is running the first and then the second. -/
theorem sendCommandWithDataIsBothInOrder : Obligations.SendCommandWithDataIsBothInOrder := by
  intro s opcode bytes
  have hboth : run (sendCommandWithData opcode bytes) s =
      (run (sendCommand opcode) s).andThen (sendData bytes) := run_append _ _ s
  exact ⟨fun u h => by rw [hboth, h]; rfl, fun k u h => by rw [hboth, h]; rfl⟩

/-! ## `repeatByte` -/

/-- The transfer numbered `k` of `repeatByte`, counted from 0, comes behind `k` repetitions. -/
theorem repeatByte_eq_append (v : Byte) {k n : Nat} (h : k < n) :
    ∃ post, repeatByte v n = repeatByte v k ++ .prim (.xfer [v]) :: post := by
  obtain ⟨m, rfl⟩ := Nat.exists_eq_add_of_lt h
  refine ⟨List.replicate m (.prim (.xfer [v])), ?_⟩
  rw [repeatByte, Nat.add_assoc, List.replicate_add, List.replicate_succ]
  rfl

theorem flatten_repeatByte (v : Byte) {n : Nat} (hn : 1 ≤ n) :
    flatten (.dc .data :: List.replicate n (.xfer [v])) = dat (List.replicate n v) := by
  simp [flatten, flatten_replicate v hn, dat]

/-- Settles O12: the failing transfer `k + 1` comes behind `repeatByte` of `k` copies, all done. -/
theorem repeatByteSendsTheByteNTimes : Obligations.RepeatByteSendsTheByteNTimes := by
  intro s v n hn
  refine ⟨fun hok => ?_, flatten_repeatByte v hn, fun f hf => run_setDc_fail hf .data _,
    fun f k hk hok hf => ?_⟩
  · rw [run_done_of_okFor (Sound_repeatByte v n) (by simpa using hok) (by simp)]
    simp [State.afterOk]
  · obtain ⟨post, hpost⟩ := repeatByte_eq_append v hk
    rw [hpost, run_err_of_okFor (Sound_repeatByte v k) (by simpa using hok) (by simp)
      (by simpa using hf) (fun hfail => perform_xfer_fail hfail (List.cons_ne_nil v [])) post]
    simp [State.afterOk, State.answered, State.failed]

/-! ## `reset()` -/

/-- Settles O13: the second write of RST comes behind the first and its hold. -/
theorem resetPulsesTheLine : Obligations.ResetPulsesTheLine := by
  intro s
  refine ⟨fun hok => ?_, fun f hf => run_prim_err (perform_setRst_fail hf .low) _,
    fun f hok hf => ?_⟩
  · rw [run_done_of_okFor (Sound_resetPulse s.cfg) (by simpa using hok) (by simp)]
    simp [State.afterOk]
  · have hlow : Sound [.prim (.setRst .low), .prim (.delay s.cfg.resetHoldMs)] := trivial
    refine (run_err_of_okFor hlow hok (idleFor_zero s) hf
      (fun hfail => perform_setRst_fail hfail .high) _).trans ?_
    simp [State.afterOk, State.answered, State.failed, okEvents, answerCount, sampleCount, lastFsm,
      lastDc, Prim.event]

/-! ## `waitUntilIdle` -/

/-- Settles O51: a step goes on with the operation, and at a busy sample that is one round of its wait. -/
theorem busyRoundIsOneSampleAndOneDelay : Obligations.BusyRoundIsOneSampleAndOneDelay := by
  intro s i hs hcur hresets hbusy
  rw [step_of_sequencerOk hs hcur (noResetDue_of_nil hresets), State.ticked_of_nil hresets,
    resume_busy hs.place hcur hbusy, State.waited_succ, State.waited_zero]

end Sys2Proof.Machine
end

section
/-! PROOFS. 41_wire_commands.md R140 to R153: what each wire command sends where the driver procedure in progress
goes on with it (O21), and that one is emitted nowhere else (O22). -/

namespace Sys2Proof.Machine

/-! ## Operands -/

theorem checkX_of_fitsXByte {xs : List U16} (h : ∀ x ∈ xs, fitsXByte x = true) : checkX xs = none := by
  have hnarrow : ¬ xs.any tooWide = true := by
    intro hwide
    obtain ⟨x, hx, hw⟩ := List.any_eq_true.mp hwide
    have hfits := h x hx
    simp only [fitsXByte, tooWide, decide_eq_true_eq] at hfits hw
    omega
  rw [checkX, if_neg hnarrow]

theorem checkPlane_of_wellFormed {c : Config} {d : PlaneData} (h : d.wellFormed c = true) :
    checkPlane c d = none := by
  rw [checkPlane, if_pos h]

/-- A wire command its bytes can carry passes its operand check. -/
theorem operandCheck_of_wellFormed {c : Config} {i : Instr} (hi : i.isWire = true)
    (h : i.wellFormed c = true) : operandCheck c i = none := by
  cases i with
  | setRamXPos x0 x1 =>
    obtain ⟨h0, h1⟩ := Bool.and_eq_true_iff.mp h
    exact checkX_of_fitsXByte (by simp [h0, h1])
  | setRamXCount x => exact checkX_of_fitsXByte (List.forall_mem_singleton.mpr h)
  | writeBwRam data | writeRedRam data => exact checkPlane_of_wellFormed h
  | setRamWindow x0 y0 x1 y1 | setRamCursor x y | updateBwFrame buffer | updateRedFrame buffer => cases hi
  | _ => rfl

/-! ## Where a wire command is emitted -/

theorem nextEmission_of_none {command : List Action} {s : State} (h : s.curOp = none) :
    nextEmission command s = none := by
  rw [nextEmission, h]

/-- With no operation in progress there is no procedure that a wire command is a part of. -/
theorem exec_wire_between {i : Instr} {s : State} (hi : i.isWire = true)
    (hw : i.wellFormed s.cfg = true) (hh : s.halted = false) (hc : s.curOp = none) :
    exec i s = .refused .notInProcedure := by
  rw [exec_eq_runWire hi, operandCheck_of_wellFormed hi hw, runWire]
  simp [hh, nextEmission_of_none hc]

/-- Where a wire command is emitted, `fsm` stands as it may before a command byte of a driver procedure. -/
theorem exec_wire_commandFsm {i : Instr} {s t : State} (hi : i.isWire = true)
    (h : exec i s = .next t) : ∃ now, CommandFsm s.fsm now := by
  obtain ⟨-, -, op, checks, rest, -, hfsm, hrest, hn, -⟩ := exec_wire_end hi h
  obtain ⟨b, ps, hps, -⟩ := emission_eq hi s.cfg
  have hplace : CommandsInPlace (s.rest op) s.fsm s.fsm := by
    rw [hfsm]
    exact (commandsInPlace_driverProcedure s.cfg op).skipPrims s.useq
  rw [hrest, hps, List.append_assoc] at hplace
  exact ⟨_, hplace.commandFsm hn⟩

/-! ## The obligations -/

/-- Settles O21: each clause is the one result of a fault-free wire command, with the events and the level of
its own emission. -/
theorem wireCommandsSendTheirBytes : Obligations.WireCommandsSendTheirBytes := by
  intro s op hp
  have sends : ∀ i : Instr, i.isWire = true → i.wellFormed s.cfg = true →
      GoesOnWith s op (emission s.cfg i) →
      exec i s = .next (s.emitted op (okEvents (emission s.cfg i))
        (lastDc (emission s.cfg i) s.pinDc)) :=
    fun i hi hw hg => exec_wire_ok hi (operandCheck_of_wellFormed hi hw) hg hp
  refine ⟨sends .swReset rfl rfl, sends .driverControl rfl rfl, sends .dataMode rfl rfl,
    fun x0 x1 h0 h1 => sends (.setRamXPos x0 x1) rfl (by simp [Instr.wellFormed, fitsXByte, h0, h1]),
    fun y0 y1 => sends (.setRamYPos y0 y1) rfl rfl,
    fun x h => sends (.setRamXCount x) rfl (decide_eq_true h),
    fun y => sends (.setRamYCount y) rfl rfl,
    sends .writeBorder rfl rfl, sends .tempControl rfl rfl,
    fun buffer h => ⟨sends (.writeBwRam (.buffer buffer)) rfl (decide_eq_true h),
      sends (.writeRedRam (.buffer buffer)) rfl (decide_eq_true h)⟩,
    fun hg => ?bwClear, fun hg => ?redClear, sends .dispCtrl2 rfl rfl, sends .masterActivate rfl rfl⟩
  case bwClear => simpa [emission, planeEvents] using sends (.writeBwRam .clear) rfl rfl hg
  case redClear => simpa [emission, planeEvents] using sends (.writeRedRam .clear) rfl rfl hg

/-- Settles O22: a request decodes to no wire command, none runs between operations, and one that runs is a
part of the procedure in progress, which goes on or has ended as it would have. -/
theorem wireCommandsRunInsideDriverProcedures : Obligations.WireCommandsRunInsideDriverProcedures := by
  refine ⟨fun _ _ => isWire_of_decodeRequest, fun _ _ => exec_wire_between, fun s t i hi h => ?_⟩
  obtain ⟨op, hc, hdriver, hresume⟩ := resume_of_wire hi h
  obtain ⟨now, hfsm⟩ := exec_wire_commandFsm hi h
  have hlive : s.fsm ≠ .uninitialized ∧ s.fsm ≠ .faulted := by
    rcases hfsm.before_cases with h | h | h | h <;> simp [h]
  exact ⟨op, hc, hdriver, hlive.1, hlive.2, hresume⟩

end Sys2Proof.Machine
end

section
/-! PROOFS. 42_driver_ops.md R171, 20_memory.md R64: every step leaves the sequencer between operations or at
one of the three waits, and an operation in progress with operand values it runs with (O49). -/

namespace Sys2Proof.Machine

/-! ## Where a driver operation leaves the sequencer -/

/-- A driver operation that is over leaves `fsm` at `Ready`: `INIT` by its last action, and the others
where they were admitted. -/
theorem lastFsm_of_admitted {i : Instr} {s : State}
    (h : s.fsm = .ready ∨ (i = .init ∧ s.fsm = .uninitialized)) :
    lastFsm (driverProcedure s.cfg i) s.fsm = .ready := by
  by_cases hinit : i = .init
  · subst hinit; exact lastFsm_init s.cfg s.fsm
  · rw [lastFsm_driverProcedure hinit]
    exact h.resolve_right fun hu => hinit hu.1

/-- A driver operation is over, in `Ready`, `Faulted` or halted, or is at one of the three waits. -/
theorem SequencerPlace.of_exec_driver {i : Instr} {s t : State} (hc : s.cfg.Valid)
    (hi : i.isDriver = true) (h : exec i s = .next t) : SequencerPlace t := by
  obtain ⟨⟨hlive, -⟩, -, -, hadmitted⟩ := exec_driver_cases hi h
  have hready : i ≠ .init → s.fsm = .ready := fun hne => hadmitted.resolve_right fun hu => hne hu.1
  cases exec_driver_end hc hi h with
  | done _ ht =>
    have hfsm : t.fsm = .ready := by subst ht; exact lastFsm_of_admitted hadmitted
    subst ht
    exact .between rfl rfl (by rw [hfsm]; rfl)
  | waitInit hinit hr pos =>
    subst hinit
    have hport := run_portOnly (s := s.started .init) (t := t) (by rw [hr]; rfl)
    rcases pos with ⟨hu, hf⟩ | ⟨hu, hf⟩
    · exact .initReset hport.curOp hu hf (hport.halted.trans hlive)
    · exact .initEnd hport.curOp hu hf (hport.halted.trans hlive)
  | waitDisplay hdisplay hr pos =>
    subst hdisplay
    have hport := run_portOnly (s := s.started .displayFrame) (t := t) (by rw [hr]; rfl)
    obtain ⟨hu, hf⟩ := pos
    exact .display hport.curOp hu (hf.trans (hready (by simp))) (hport.halted.trans hlive)
  | err k u _ ht => subst ht; exact .between rfl rfl rfl
  | abort _ _ _ _ hwindow _ ht =>
    have hfsm : s.fsm = .ready := hready (by simp [hwindow])
    subst ht
    exact .between rfl rfl (by rw [takeAbort_fsm, State.started_fsm, hfsm]; rfl)

/-- A host operation taken between operations leaves the sequencer at one of its places. -/
theorem SequencerPlace.of_exec_host {i : Instr} {s t : State} (hs : SequencerPlace s)
    (hc : s.cfg.Valid) (hcur : s.curOp = none) (hw : i.isWire = false) (h : exec i s = .next t) :
    SequencerPlace t := by
  rcases instr_kinds i with ⟨hi, -⟩ | ⟨hi, -⟩ | ⟨hi, -⟩
  · exact .of_exec_driver hc hi h
  · rw [hw] at hi; cases hi
  · rw [(exec_framebuffer_cases hi h).2.frame]
    exact .between rfl rfl (hs.persistent hcur)

/-! ## Steps keep the sequencer legal -/

/-- No instruction fills the wire slot. -/
theorem exec_wireSlot {i : Instr} {s t : State} (h : exec i s = .next t) :
    t.wireSlot = s.wireSlot := by
  rcases exec_kept_or_drawn h with ⟨hk, -⟩ | hd
  · exact hk.wireSlot
  · rw [hd.frame]

theorem SequencerOk.advance {s t : State} (hs : SequencerOk s) (hc : s.cfg.Valid)
    (h : advance s = .next t) : SequencerOk t := by
  rcases advance_cases h with ⟨op, hcur, -, hres⟩ | ⟨f, s', i, hf, -, hd, hexec⟩ | ⟨-, -, rfl⟩
  · exact ⟨(resume_end hc hs.place hcur hres).place,
      (resume_kept_onlyAdds hres).1.wireSlot.trans hs.slot⟩
  · rcases nextFrame_cases hf with ⟨_, _, -, hslot, -, -⟩ | ⟨b, rest, hcur, -, rfl, rfl⟩
    · rw [hs.slot] at hslot; cases hslot
    · have hplace : SequencerPlace { s with requests := rest } := hs.place.of_eq rfl rfl rfl rfl
      exact ⟨hplace.of_exec_host hc hcur (isWire_of_decodeRequest hd) hexec,
        (exec_wireSlot hexec).trans hs.slot⟩
  · exact hs

theorem SequencerOk.ticked {s : State} (hs : SequencerOk s) : SequencerOk s.ticked :=
  ⟨hs.place.ticked, by rw [State.ticked_eq]; exact hs.slot⟩

/-! ## Steps keep the operands of the operation in progress -/

/-- A run leaves the operation it belongs to in progress, or none. -/
theorem Ends.curOp {atEnd : State → State} {actions : List Action} {s t : State}
    (h : Ends atEnd actions s t)
    (ha : ∀ u, (atEnd u).curOp = u.curOp ∨ (atEnd u).curOp = none) :
    t.curOp = s.curOp ∨ t.curOp = none := by
  cases h with
  | done _ ht => subst ht; exact ha (s.afterOk actions)
  | waiting hr => exact .inl (run_portOnly (by rw [hr]; rfl)).curOp
  | err k u _ ht => subst ht; exact .inr rfl
  | abort u _ ht => subst ht; exact .inr rfl

/-- A driver operation stays in progress only at a wait, and the two that wait have no operands. -/
theorem InProgressOk.of_exec_driver {i : Instr} {s t : State} (hi : i.isDriver = true)
    (h : exec i s = .next t) : InProgressOk t := by
  obtain ⟨-, -, he, -⟩ := exec_driver_cases hi h
  cases he with
  | done _ ht => subst ht; exact inProgressOk_of_none rfl
  | waiting hr =>
    have hport := run_portOnly (s := s.started i) (t := t) (by rw [hr]; rfl)
    intro op hop
    obtain rfl : i = op := Option.some.inj (hport.curOp.symm.trans hop)
    by_cases hinit : i = .init
    · subst hinit; trivial
    by_cases hdisplay : i = .displayFrame
    · subst hdisplay; trivial
    exact absurd hr (run_ne_waiting (sampleCount_driverProcedure hinit hdisplay))
  | err k u _ ht => subst ht; exact inProgressOk_of_none rfl
  | abort u _ ht => subst ht; exact inProgressOk_of_none rfl

/-- What leaves the parameters, and the operation in progress or none, keeps the operands. -/
theorem InProgressOk.of_eq_or_none {s t : State} (hs : InProgressOk s) (hcfg : t.cfg = s.cfg)
    (hcur : t.curOp = s.curOp ∨ t.curOp = none) : InProgressOk t :=
  hcur.elim (hs.of_eq hcfg) inProgressOk_of_none

theorem InProgressOk.exec {i : Instr} {s t : State} (hs : InProgressOk s) (h : exec i s = .next t) :
    InProgressOk t := by
  rcases instr_kinds i with ⟨hi, -⟩ | ⟨hi, -⟩ | ⟨hi, -⟩
  · exact .of_exec_driver hi h
  · obtain ⟨-, -, actions, -, he⟩ := exec_wire_cases hi h
    exact hs.of_eq_or_none (exec_onlyAdds h).1 (he.curOp fun _ => .inl rfl)
  · exact inProgressOk_of_none (by rw [(exec_framebuffer_cases hi h).2.frame])

theorem InProgressOk.advance {s t : State} (hs : InProgressOk s) (h : advance s = .next t) :
    InProgressOk t := by
  rcases advance_cases h with ⟨op, -, -, hres⟩ | ⟨f, s', i, hf, -, -, hexec⟩ | ⟨-, -, rfl⟩
  · exact hs.of_eq_or_none (resume_kept_onlyAdds hres).1.cfg
      ((finish_cases hres).curOp fun _ => .inr rfl)
  · obtain ⟨hcfg, hcur⟩ := nextFrame_keeps hf
    exact (hs.of_eq hcfg hcur).exec hexec
  · exact hs

theorem InProgressOk.ticked {s : State} (hs : InProgressOk s) : InProgressOk s.ticked := by
  rw [State.ticked_eq]
  exact hs.of_eq rfl rfl

/-- Settles O49: a block reset leaves no operation in progress, and the sequencer's step keeps both
invariants by what a driver operation and going on after a wait can leave. -/
theorem stepKeepsTheSequencerLegal : Obligations.StepKeepsTheSequencerLegal := by
  refine ⟨fun s t hc hs hstep => ?_, fun s t hs hstep => ?_⟩
  · rcases step_cases hstep with ⟨u, rest, -, rfl⟩ | ⟨-, hadv⟩
    · exact ⟨.between rfl rfl rfl, rfl⟩
    · exact hs.ticked.advance (by rw [State.ticked_eq]; exact hc) hadv
  · rcases step_cases hstep with ⟨u, rest, -, rfl⟩ | ⟨-, hadv⟩
    · exact inProgressOk_of_none rfl
    · exact hs.ticked.advance hadv

end Sys2Proof.Machine
end

section
/-! PROOFS. 42_driver_ops.md R161 to R169: what each driver operation sends, and what it leaves, when no
primitive fails and the panel is idle (O14 to O20, O57). -/

namespace Sys2Proof.Machine

/-! ## Fault-free operations -/

theorem DriverReady.admitDriver {s : State} (h : DriverReady s) (isInit : Bool) :
    admitDriver isInit s = none :=
  admitDriver_eq_none.mpr ⟨h.accepting, .inl h.ready⟩

theorem InitReady.admitDriver {s : State} (h : InitReady s) : admitDriver true s = none :=
  admitDriver_eq_none.mpr ⟨h.accepting, h.admitted.elim (fun hf => .inr ⟨rfl, hf⟩) .inl⟩

/-- What `Ok` answers behind the actions of an operation (30_encoding.md R95): the primitives' work, the
response 0x00, and `fsm` and RST as the actions leave them. -/
theorem respond_afterOk (s : State) (actions : List Action) : respond [] (s.afterOk actions) =
    { (s.sent (okEvents actions) (lastDc actions s.pinDc) (answerCount actions)
        (sampleCount actions)).replied [0x00] with
      fsm := lastFsm actions s.fsm, pinRst := lastRst actions s.pinRst } := rfl

/-- The one result of an admitted operation with operands in order that meets no failure and an idle
panel. -/
theorem exec_driver_afterOk (i : Instr) {s : State} (hi : i.isDriver = true)
    (hadmit : admitDriver (decide (i = .init)) s = none) (hc : s.cfg.Valid)
    (hops : operandsOk s.cfg i) (hport : NoTransportFault s)
    (hidle : IdleFor (sampleCount (driverProcedure s.cfg i)) s) :
    exec i s = .next (respond [] (s.afterOk (driverProcedure s.cfg i))) := by
  obtain ⟨hcheck, horder⟩ := operandCheck_of_operandsOk hi hops
  exact exec_driver_ok hi hadmit hcheck (Sound_driverProcedure hc hcheck horder) hport hidle

/-- Every driver operation but `INIT`, where it is admitted and meets no failure and an idle panel: its
procedure's primitives, the response 0x00, and nothing else. -/
theorem exec_driver_sent (i : Instr) {s : State} (hi : i.isDriver = true) (hne : i ≠ .init)
    (hready : DriverReady s) (hport : NoTransportFault s) (hops : operandsOk s.cfg i)
    (hidle : IdleFor (sampleCount (driverProcedure s.cfg i)) s) :
    exec i s = .next ((s.sent (okEvents (driverProcedure s.cfg i))
      (lastDc (driverProcedure s.cfg i) s.pinDc) (answerCount (driverProcedure s.cfg i))
      (sampleCount (driverProcedure s.cfg i))).replied [0x00]) := by
  rw [exec_driver_afterOk i hi (hready.admitDriver _) hready.valid hops hport hidle, respond_afterOk,
    lastFsm_driverProcedure hne, lastRst_of_no_setRst (no_setRst_driverProcedure hne)]
  rfl

/-- The same for the operations that do not sample BUSY. -/
theorem exec_driver_sent_of_no_sample (i : Instr) {s : State} (hi : i.isDriver = true)
    (hinit : i ≠ .init) (hdisplay : i ≠ .displayFrame) (hready : DriverReady s)
    (hport : NoTransportFault s) (hops : operandsOk s.cfg i) :
    exec i s = .next ((s.sent (okEvents (driverProcedure s.cfg i))
      (lastDc (driverProcedure s.cfg i) s.pinDc) (answerCount (driverProcedure s.cfg i)) 0).replied
        [0x00]) := by
  have hsamples := sampleCount_driverProcedure (c := s.cfg) hinit hdisplay
  rw [exec_driver_sent i hi hinit hready hport hops (by simp [hsamples]), hsamples]

/-! ## The procedures' pieces -/

theorem okEvents_initProcedure {c : Config} (hc : c.Valid) : okEvents (initProcedure c) =
    [Event.rst .low, .dly c.resetHoldMs, .rst .high, .dly c.resetHoldMs]
      ++ cmd c.opcodes.swReset ++ [Event.poll .idle]
      ++ cmd c.opcodes.driverControl ++ dat [BitVec.ofNat 8 (c.height - 1), 0x00, 0x00]
      ++ cmd c.opcodes.dataMode ++ dat [c.flagEntryXincYinc]
      ++ sff c
      ++ cmd c.opcodes.writeBorder ++ dat [c.flagBorder]
      ++ cmd c.opcodes.tempControl ++ dat [c.flagInternalTemp]
      ++ [Event.poll .idle] := by
  simp [initProcedure, okEvents, okEvents_selectFullFrame hc]

@[simp] theorem answerCount_initProcedure (c : Config) : answerCount (initProcedure c) = 36 := by
  simp [initProcedure, answerCount]

@[simp] theorem sampleCount_initProcedure (c : Config) : sampleCount (initProcedure c) = 2 := by
  simp [initProcedure, sampleCount]

@[simp] theorem lastRst_initProcedure (c : Config) (l : Level) :
    lastRst (initProcedure c) l = .high := by
  simp [initProcedure, lastRst]

@[simp] theorem lastDc_initProcedure (c : Config) (d : DcLevel) :
    lastDc (initProcedure c) d = .data := by
  simp [initProcedure, lastDc]

@[simp] theorem okEvents_displayProcedure (c : Config) : okEvents (displayProcedure c) =
    cmd c.opcodes.dispCtrl2 ++ dat [c.flagDisplayMode1] ++ cmd c.opcodes.masterActivate
      ++ [Event.poll .idle] := by
  simp [displayProcedure]

@[simp] theorem answerCount_displayProcedure (c : Config) :
    answerCount (displayProcedure c) = 6 := by
  simp [displayProcedure]

@[simp] theorem sampleCount_displayProcedure (c : Config) :
    sampleCount (displayProcedure c) = 1 := by
  simp [displayProcedure]

@[simp] theorem lastDc_displayProcedure (c : Config) (d : DcLevel) :
    lastDc (displayProcedure c) d = .cmd := by
  simp [displayProcedure]

/-! ## The operations -/

/-- Settles O14: the one result of an admitted `INIT` that meets no failure and an idle panel. -/
theorem initConfiguresThePanel : Obligations.InitConfiguresThePanel := by
  intro s hready hport hidle
  have hproc : driverProcedure s.cfg .init = initProcedure s.cfg := rfl
  have hsamples : IdleFor (sampleCount (initProcedure s.cfg)) s := by simpa using hidle
  rw [exec_driver_afterOk .init rfl hready.admitDriver hready.valid trivial hport hsamples, hproc,
    respond_afterOk, okEvents_initProcedure hready.valid, lastFsm_init]
  simp

/-- Settles O15: the window's procedure, whose contract check holds. -/
theorem setRamWindowSendsTheBounds : Obligations.SetRamWindowSendsTheBounds := by
  intro s x0 y0 x1 y1 hready hport hx0 hx1 hx hy
  rw [exec_driver_sent_of_no_sample (.setRamWindow x0 y0 x1 y1) rfl (by simp) (by simp) hready hport
    ⟨hx0, hx1, hx, hy⟩]
  simp [driverProcedure]

/-- Settles O16: the cursor's procedure. -/
theorem setRamCursorSendsTheCursor : Obligations.SetRamCursorSendsTheCursor := by
  intro s x y hready hport hx
  rw [exec_driver_sent_of_no_sample (.setRamCursor x y) rfl (by simp) (by simp) hready hport hx]
  simp [driverProcedure]

/-- Settles O17: the full frame of a configuration that meets 00_scope.md R6 is sent as `SFF`. -/
theorem selectFullFrameSendsTheFullFrame : Obligations.SelectFullFrameSendsTheFullFrame := by
  intro s hready hport
  rw [exec_driver_sent_of_no_sample .selectFullFrame rfl (by simp) (by simp) hready hport trivial]
  simp [driverProcedure, okEvents_selectFullFrame hready.valid]

/-- Settles O18: the full frame, then the plane's command with the buffer in one transfer. -/
theorem uploadsSendTheBuffer : Obligations.UploadsSendTheBuffer := by
  intro s buffer hready hport hlen
  constructor
  · rw [exec_driver_sent_of_no_sample (.updateBwFrame buffer) rfl (by simp) (by simp) hready hport hlen]
    simp [driverProcedure, okEvents_selectFullFrame hready.valid, planeEvents, planeAnswers]
  · rw [exec_driver_sent_of_no_sample (.updateRedFrame buffer) rfl (by simp) (by simp) hready hport hlen]
    simp [driverProcedure, okEvents_selectFullFrame hready.valid, planeEvents, planeAnswers]

/-- Settles O19: the full frame, then the plane's command with a transfer for each byte of the fill. -/
theorem clearsSendTheClearByte : Obligations.ClearsSendTheClearByte := by
  intro s hready hport
  have hanswers : 16 + (2 + (s.cfg.planeBytes + 1)) = 19 + s.cfg.planeBytes := by omega
  constructor
  · rw [exec_driver_sent_of_no_sample .clearBwFrame rfl (by simp) (by simp) hready hport trivial]
    simp [driverProcedure, okEvents_selectFullFrame hready.valid, planeEvents, planeAnswers,
      hanswers]
  · rw [exec_driver_sent_of_no_sample .clearRedFrame rfl (by simp) (by simp) hready hport trivial]
    simp [driverProcedure, okEvents_selectFullFrame hready.valid, planeEvents, planeAnswers,
      hanswers]

/-- Settles O20: the two commands, and the sample that ends the wait. -/
theorem displayFrameTriggersTheRefresh : Obligations.DisplayFrameTriggersTheRefresh := by
  intro s hready hport hidle
  rw [exec_driver_sent .displayFrame rfl (by simp) hready hport trivial
    (by simpa [driverProcedure] using hidle)]
  simp [driverProcedure]

/-! ## A clear and the upload of its bytes -/

/-- The events that the primitives of an operation add, read off the trace it leaves. -/
theorem drop_events_sent (s : State) (events : List Event) (dc : DcLevel) (answers samples : Nat)
    (response : List Byte) :
    (((s.sent events dc answers samples).replied response).events).drop s.events.length =
      events := by
  simp [State.sent, State.replied, State.events]

/-- After the same events, a fill's transfers and one transfer of as many bytes flatten to the same
(40_transport.md R123). -/
theorem flatten_fill_eq_upload (before : List Event) (v : Byte) {n : Nat} (hn : 1 ≤ n) :
    flatten (before ++ Event.dc .data :: List.replicate n (.xfer [v])) =
      flatten (before ++ dat (List.replicate n v)) :=
  flatten_dc_congr before .data (flatten_replicate v hn)

/-- Settles O57: both operations complete, and their events differ in the cut of the payload alone. -/
theorem clearLooksLikeAnUploadOfTheClearByte :
    Obligations.ClearLooksLikeAnUploadOfTheClearByte := by
  intro s hready hport
  obtain ⟨hclearBw, hclearRed⟩ := clearsSendTheClearByte s hready hport
  have huploads := fun v => uploadsSendTheBuffer s (List.replicate s.cfg.planeBytes v) hready hport
    List.length_replicate
  refine ⟨_, _, _, _, hclearBw, (huploads _).1, hclearRed, (huploads _).2, ?_, ?_⟩
  · rw [drop_events_sent, drop_events_sent]
    exact flatten_fill_eq_upload _ _ (planeBytes_pos hready.valid)
  · rw [drop_events_sent, drop_events_sent]
    exact flatten_fill_eq_upload _ _ (planeBytes_pos hready.valid)

end Sys2Proof.Machine
end

section
/-! PROOFS. 42_driver_ops.md R160, R170, 60_exceptions.md R231, R234: who is turned away and with which reason
(O33, O34), the window out of order (O35), and what `CONSTRUCT` leaves (O58). -/

namespace Sys2Proof.Machine

/-! ## Refusals of admission -/

theorem admitAny_of_halted {s : State} (h : s.halted = true) : admitAny s = some .halted := by
  simp [admitAny, h]

/-- An operation that can be issued at all is admitted as the table of 42_driver_ops.md R160 says. -/
theorem admitDriver_of_accepting {s : State} (h : Accepting s) (isInit : Bool) :
    admitDriver isInit s = admitFsm isInit s.fsm := by
  rw [admitDriver, admitAny_eq_none.mpr h]

theorem admitDriver_of_halted {s : State} (h : s.halted = true) (isInit : Bool) :
    admitDriver isInit s = some .halted := by
  rw [admitDriver, admitAny_of_halted h]

/-- A driver operation that is not admitted is refused, whatever its operands. -/
theorem exec_driver_of_admit_some {i : Instr} {s : State} {r : Refusal} (hi : i.isDriver = true)
    (h : admitDriver (decide (i = .init)) s = some r) : exec i s = .refused r := by
  rw [exec_eq_runDriver hi]
  simp [runDriver, h]

/-- An admitted driver operation is refused by its operand check, before its procedure. -/
theorem exec_driver_of_operandCheck_some {i : Instr} {s : State} {r : Refusal}
    (hi : i.isDriver = true) (hadmit : admitDriver (decide (i = .init)) s = none)
    (h : operandCheck s.cfg i = some r) : exec i s = .refused r := by
  rw [exec_eq_runDriver hi, h]
  simp [runDriver, hadmit]

/-- A wire command is refused by its operand check, whatever the operation in progress. -/
theorem exec_wire_of_operandCheck_some {i : Instr} {s : State} {r : Refusal} (hi : i.isWire = true)
    (hlive : s.halted = false) (h : operandCheck s.cfg i = some r) : exec i s = .refused r := by
  rw [exec_eq_runWire hi, h]
  simp [runWire, hlive]

theorem runFramebuffer_of_admit_some {effect : State → Host.Outcome State Fault Refusal} {s : State}
    {r : Refusal} (h : admitAny s = some r) : runFramebuffer effect s = .refused r := by
  rw [runFramebuffer, h]

/-- A framebuffer operation is admission, then an effect. -/
theorem exists_exec_eq_runFramebuffer {i : Instr} (hi : i.isFramebuffer = true) :
    ∃ effect, ∀ s, exec i s = runFramebuffer effect s := by
  cases i with
  | fbClear color => exact ⟨_, fun _ => rfl⟩
  | fbSetPixel x y color => exact ⟨_, fun _ => rfl⟩
  | fbSetRotation r => exact ⟨_, fun _ => rfl⟩
  | fbRotation => exact ⟨_, fun _ => rfl⟩
  | fbSize => exact ⟨_, fun _ => rfl⟩
  | fbBlackData => exact ⟨_, fun _ => rfl⟩
  | fbRedData => exact ⟨_, fun _ => rfl⟩
  | _ => cases hi

/-- A halted block refuses every instruction (10_state.md R22). -/
theorem exec_of_halted (i : Instr) {s : State} (h : s.halted = true) :
    exec i s = .refused .halted := by
  rcases instr_kinds i with ⟨hi, -⟩ | ⟨hi, -⟩ | ⟨hi, -⟩
  · exact exec_driver_of_admit_some hi (admitDriver_of_halted h _)
  · rw [exec_eq_runWire hi]
    simp [runWire, h]
  · obtain ⟨effect, heffect⟩ := exists_exec_eq_runFramebuffer hi
    rw [heffect, runFramebuffer_of_admit_some (admitAny_of_halted h)]

/-- Behind a failure every driver operation is refused (60_exceptions.md R233). -/
theorem exec_driver_of_faulted {i : Instr} {s : State} (hi : i.isDriver = true) (ha : Accepting s)
    (hf : s.fsm = .faulted) : exec i s = .refused .useAfterFault :=
  exec_driver_of_admit_some hi (by rw [admitDriver_of_accepting ha, hf]; rfl)

/-! ## Admitted operations -/

/-- Sound actions end an operation with a next state, however the environment answers. -/
theorem exists_finish_next {atEnd : State → State} {actions : List Action} (hs : Sound actions)
    (s : State) : ∃ t, finish atEnd (run actions s) = .next t := by
  rcases run_sound (s := s) hs with hr | ⟨u, hr⟩ | ⟨k, u, hr⟩ <;> rw [hr] <;> exact ⟨_, rfl⟩

/-- An admitted operation with operands in order gives a next state, however the environment answers. -/
theorem exists_exec_driver_next {i : Instr} {s : State} (hi : i.isDriver = true) (hc : s.cfg.Valid)
    (hadmit : admitDriver (decide (i = .init)) s = none) (hops : operandsOk s.cfg i) :
    ∃ t, exec i s = .next t := by
  obtain ⟨hcheck, horder⟩ := operandCheck_of_operandsOk hi hops
  rw [exec_eq_runDriver hi, hcheck, runDriver_of_admitted hadmit]
  exact exists_finish_next (Sound_driverProcedure hc hcheck horder) _

/-- Settles O33: admission asks `halted` first, then the `fsm` table, and an admitted operation's procedure is
sound. -/
theorem admissionFollowsTheTable : Obligations.AdmissionFollowsTheTable := by
  intro s i hcur
  refine ⟨exec_of_halted i, fun hlive hi hne hf => ?_,
    fun hlive hi hf => exec_driver_of_faulted hi ⟨hlive, hcur⟩ hf,
    fun hlive hc hi hops hf => exists_exec_driver_next hi hc ?_ hops⟩
  · have hadmit : admitDriver (decide (i = .init)) s = some .beforeInit := by
      rw [admitDriver_of_accepting ⟨hlive, hcur⟩, hf, decide_eq_false hne]
      rfl
    exact exec_driver_of_admit_some hi hadmit
  · refine admitDriver_eq_none.mpr ⟨⟨hlive, hcur⟩, hf.imp_right fun ⟨hfsm, hinit⟩ => ?_⟩
    exact ⟨decide_eq_true hinit, hfsm⟩

/-! ## Operands out of range -/

theorem checkX_of_wide {xs : List U16} {x : U16} (hx : x ∈ xs) (h : 2048 ≤ x.toNat) :
    checkX xs = some .operandTooWide :=
  if_pos (List.any_eq_true.mpr ⟨x, hx, decide_eq_true h⟩)

/-- The two X operands of a window or of `SET_RAMXPOS`. -/
theorem checkX_pair_of_wide {x0 x1 : U16} (h : 2048 ≤ x0.toNat ∨ 2048 ≤ x1.toNat) :
    checkX [x0, x1] = some .operandTooWide := by
  rcases h with h | h
  · exact checkX_of_wide (by simp) h
  · exact checkX_of_wide (by simp) h

theorem checkPlane_of_length_ne {c : Config} {buffer : List Byte}
    (h : buffer.length ≠ c.planeBytes) : checkPlane c (.buffer buffer) = some .bufferLength := by
  simp [checkPlane, PlaneData.wellFormed, h]

theorem exec_fbSetPixel_of_not_inRange {s : State} {x y : U16} {color : Color} (ha : Accepting s)
    (h : ¬ InRange s.cfg s.rot x.toNat y.toNat) :
    exec (.fbSetPixel x y color) s = .refused .pixelOutOfRange := by
  simp only [exec, execFbSetPixel]
  rw [runFramebuffer_of_accepting ha, if_neg h]

/-- Settles O34: the operand check of each instruction, before its procedure or its place in the one in
progress. -/
theorem operandRefusalsComeBeforeTheProcedure :
    Obligations.OperandRefusalsComeBeforeTheProcedure := by
  refine ⟨fun s hready => ?driver, fun s hlive => ?wire⟩
  case driver =>
    have refuses : ∀ {i : Instr} {r : Refusal}, i.isDriver = true →
        operandCheck s.cfg i = some r → exec i s = .refused r :=
      fun hi => exec_driver_of_operandCheck_some hi (hready.admitDriver _)
    exact ⟨fun _ _ _ _ hx => refuses rfl (checkX_pair_of_wide hx),
      fun _ _ hx => refuses rfl (checkX_of_wide (List.mem_singleton_self _) hx),
      fun _ hlen => ⟨refuses rfl (checkPlane_of_length_ne hlen),
        refuses rfl (checkPlane_of_length_ne hlen)⟩,
      fun _ _ _ => exec_fbSetPixel_of_not_inRange hready.accepting⟩
  case wire =>
    have refuses : ∀ {i : Instr} {r : Refusal}, i.isWire = true →
        operandCheck s.cfg i = some r → exec i s = .refused r :=
      fun hi => exec_wire_of_operandCheck_some hi hlive
    exact ⟨fun _ _ hx => refuses rfl (checkX_pair_of_wide hx),
      fun _ hx => refuses rfl (checkX_of_wide (List.mem_singleton_self _) hx),
      fun _ hlen => ⟨refuses rfl (checkPlane_of_length_ne hlen),
        refuses rfl (checkPlane_of_length_ne hlen)⟩⟩

/-- Settles O35: the operand check passes and the contract check, before the first primitive, does not. -/
theorem misorderedWindowAborts : Obligations.MisorderedWindowAborts := by
  intro s x0 y0 x1 y1 hready hx0 hx1 hmis
  have hfits : ∀ x ∈ [x0, x1], fitsXByte x = true := by simp [fitsXByte, hx0, hx1]
  have hcheck : operandCheck s.cfg (.setRamWindow x0 y0 x1 y1) = none := checkX_of_fitsXByte hfits
  have hproc : driverProcedure s.cfg (.setRamWindow x0 y0 x1 y1) = setRamWindow s.cfg x0 y0 x1 y1 :=
    rfl
  rw [exec_eq_runDriver rfl, hcheck, runDriver_of_admitted (hready.admitDriver _), runOp, hproc,
    run_misordered _ (by omega)]
  simp [finish, takeAbort, State.started, State.ended, hready.accepting.2]

/-! ## `CONSTRUCT` -/

theorem State.afterOk_fsm (s : State) (actions : List Action) :
    (s.afterOk actions).fsm = lastFsm actions s.fsm := rfl

theorem initReady_blockReset {s : State} (hc : s.cfg.Valid) (u : PowerUp) :
    InitReady (blockReset u s) :=
  ⟨⟨rfl, rfl⟩, .inl rfl, hc⟩

/-- Settles O58: `INIT` is admitted right after a block reset, and ends as a driver operation can. -/
theorem constructGivesAReadyDriverOrAnError : Obligations.ConstructGivesAReadyDriverOrAnError := by
  intro s u hc
  have hready := initReady_blockReset hc u
  obtain ⟨t, ht⟩ := exists_exec_driver_next (i := .init) rfl hready.valid hready.admitDriver trivial
  refine ⟨t, ht, ?_⟩
  cases exec_driver_end hready.valid rfl ht with
  | done _ ht =>
    subst ht
    refine .inl ⟨rfl, ?_, rfl⟩
    rw [respond_fsm, State.afterOk_fsm]
    exact lastFsm_of_admitted (.inr ⟨rfl, rfl⟩)
  | waitInit _ hr _ =>
    have hport := run_portOnly (s := (blockReset u s).started .init) (t := t) (by rw [hr]; rfl)
    exact .inr (.inr ⟨hport.responses, hport.curOp⟩)
  | waitDisplay hi _ _ => cases hi
  | err kind v hr ht =>
    have hport := run_portOnly (s := (blockReset u s).started .init) (t := v) (by rw [hr]; rfl)
    subst ht
    refine .inr (.inl ⟨kind, ?_, rfl, fun i hi => exec_driver_of_faulted hi ⟨hport.halted, rfl⟩ rfl⟩)
    rw [takeErr_responses, hport.responses]
    rfl
  | abort _ _ _ _ hi _ _ => cases hi

end Sys2Proof.Machine
end

section
/-! PROOFS. 42_driver_ops.md R161 to R169, 60_exceptions.md R228: what a driver operation, a wire command and
going on after a wait leave unchanged (O45), by the actions that their runs are made of. -/

namespace Sys2Proof.Machine

/-! ## What a run leaves that lacks an action -/

/-- A run without a change of `fsm` leaves it, however it ends. -/
theorem run_fsm {actions : List Action} {s t : State} (hn : ∀ f, .fsm f ∉ actions)
    (h : (run actions s).state? = some t) : t.fsm = s.fsm := by
  induction actions generalizing s with
  | nil => cases h; rfl
  | cons a rest ih =>
    have hrest : ∀ f, .fsm f ∉ rest := fun f hm => hn f (List.mem_cons_of_mem _ hm)
    cases a with
    | fsm f => exact absurd List.mem_cons_self (hn f)
    | contract b =>
      cases b with
      | true => exact ih hrest h
      | false => cases h; rfl
    | prim p =>
      have hprim : ∀ u, (perform p s).state? = some u → u.fsm = s.fsm :=
        fun u hu => (perform_portOnly hu).2
      cases hp : perform p s with
      | ok u =>
        rw [run_prim_ok hp] at h
        exact (ih hrest h).trans (hprim u (by rw [hp]; rfl))
      | busy u =>
        rw [run_prim_busy hp] at h
        cases h
        exact hprim _ (by rw [hp]; rfl)
      | err k u =>
        rw [run_prim_err hp] at h
        cases h
        exact hprim _ (by rw [hp]; rfl)
      | bad f => simp only [run, hp] at h; cases h

/-- A run without a sample takes none of BUSY, however it ends. -/
theorem run_busyFeed {actions : List Action} {s t : State} (hn : sampleCount actions = 0)
    (h : (run actions s).state? = some t) : t.busyFeed = s.busyFeed := by
  have before : ∀ pre post, actions = pre ++ post → (s.afterOk pre).busyFeed = s.busyFeed := by
    intro pre post hsplit
    have hpre : sampleCount pre = 0 := by
      rw [hsplit, sampleCount_append] at hn
      omega
    show s.busyFeed.drop (sampleCount pre) = s.busyFeed
    rw [hpre, Feed.drop_zero]
  have hends := run_endsAt actions s
  generalize run actions s = e at hends h
  cases hends with
  | done => cases h; exact before actions [] (List.append_nil _).symm
  | waiting pre post hsplit _ => rw [hsplit] at hn; simp [sampleCount] at hn
  | err pre post p k u hsplit hp =>
    cases h
    obtain ⟨-, -, -, -, -, -, hbusy, -⟩ := perform_err_inv hp
    exact hbusy.trans (before pre _ hsplit)
  | abort pre post hsplit => cases h; exact before pre _ hsplit
  | bad => cases h

/-- A run without a contract check that fails does not abort. -/
theorem run_ne_abort {actions : List Action} {s u : State} (hn : .contract false ∉ actions) :
    run actions s ≠ .abort u := by
  intro h
  have hends := run_endsAt actions s
  rw [h] at hends
  cases hends with
  | abort pre post hsplit => exact hn (by simp [hsplit])

/-! ## What an operation's end leaves -/

/-- What follows the last action of a run leaves `fsm`, `halted`, RST and the samples to come. -/
structure EndsOnly (atEnd : State → State) : Prop where
  fsm : ∀ u, (atEnd u).fsm = u.fsm
  halted : ∀ u, (atEnd u).halted = u.halted
  pinRst : ∀ u, (atEnd u).pinRst = u.pinRst
  busyFeed : ∀ u, (atEnd u).busyFeed = u.busyFeed

theorem endsOnly_respond : EndsOnly (respond []) := by constructor <;> intro u <;> rfl
theorem endsOnly_id : EndsOnly id := by constructor <;> intro u <;> rfl

section
variable {atEnd : State → State} {actions : List Action} {s t : State}

/-- What every end of a run leaves, and what follows the run leaves too, the operation leaves. -/
theorem Ends.of_run {P : State → Prop} (h : Ends atEnd actions s t)
    (hrun : ∀ u, (run actions s).state? = some u → P u) (hend : ∀ u, P u → P (atEnd u))
    (herr : ∀ k u, P u → P (takeErr k u)) (habort : ∀ u, P u → P (takeAbort u)) : P t := by
  cases h with
  | done hr ht => subst ht; exact hend _ (hrun _ (by rw [hr]; rfl))
  | waiting hr => exact hrun _ (by rw [hr]; rfl)
  | err k u hr ht => subst ht; exact herr k u (hrun u (by rw [hr]; rfl))
  | abort u hr ht => subst ht; exact habort u (hrun u (by rw [hr]; rfl))

theorem Ends.pinRst (h : Ends atEnd actions s t) (ha : EndsOnly atEnd)
    (hn : ∀ l, .prim (.setRst l) ∉ actions) : t.pinRst = s.pinRst :=
  h.of_run (P := fun u => u.pinRst = s.pinRst) (fun _ => run_pinRst hn)
    (fun u => (ha.pinRst u).trans) (fun _ _ => id) (fun _ => id)

theorem Ends.busyFeed (h : Ends atEnd actions s t) (ha : EndsOnly atEnd)
    (hn : sampleCount actions = 0) : t.busyFeed = s.busyFeed :=
  h.of_run (P := fun u => u.busyFeed = s.busyFeed) (fun _ => run_busyFeed hn)
    (fun u => (ha.busyFeed u).trans) (fun _ _ => id) (fun _ => id)

theorem Ends.fsm (h : Ends atEnd actions s t) (ha : EndsOnly atEnd) (hn : ∀ f, .fsm f ∉ actions) :
    t.fsm = s.fsm ∨ t.fsm = .faulted :=
  h.of_run (P := fun u => u.fsm = s.fsm ∨ u.fsm = .faulted) (fun _ hr => .inl (run_fsm hn hr))
    (fun u => (ha.fsm u).symm ▸ id) (fun _ _ _ => .inr rfl) (fun _ => id)

theorem Ends.halted (h : Ends atEnd actions s t) (ha : EndsOnly atEnd)
    (hn : .contract false ∉ actions) : t.halted = s.halted := by
  have hrun : ∀ u, (run actions s).state? = some u → u.halted = s.halted :=
    fun _ hr => (run_portOnly hr).halted
  cases h with
  | done hr ht => subst ht; exact (ha.halted _).trans (hrun _ (by rw [hr]; rfl))
  | waiting hr => exact hrun _ (by rw [hr]; rfl)
  | err k u hr ht => subst ht; exact hrun u (by rw [hr]; rfl)
  | abort u hr _ => exact absurd hr (run_ne_abort hn)

/-- An operation still in progress has given no response and set no `halted`. -/
theorem Ends.portOnly_of_inProgress (h : Ends atEnd actions s t)
    (ha : ∀ u, (atEnd u).curOp = none ∨ atEnd u = u) (hcur : t.curOp ≠ none) : PortOnly s t := by
  cases h with
  | done hr ht =>
    subst ht
    rw [(ha _).resolve_left hcur]
    exact run_portOnly (by rw [hr]; rfl)
  | waiting hr => exact run_portOnly (by rw [hr]; rfl)
  | err k u _ ht => subst ht; exact absurd rfl hcur
  | abort u _ ht => subst ht; exact absurd rfl hcur

end

/-! ## The procedures' actions -/

/-- Only `INIT` has changes of `fsm`. -/
theorem fsm_not_mem_driverProcedure {c : Config} {i : Instr} (h : i ≠ .init) (f : Fsm) :
    .fsm f ∉ driverProcedure c i :=
  fsm_not_mem_of_lastFsm (lastFsm_driverProcedure h) f

/-- Actions that are sound have no contract check that fails. -/
theorem Sound.contract_not_mem {actions : List Action} (h : Sound actions) :
    .contract false ∉ actions := by
  intro hm
  obtain ⟨pre, post, rfl⟩ := List.append_of_mem hm
  exact absurd h.of_append_cons.1 (by simp)

/-- A wire command's emission has no contract check, whatever its operands. -/
theorem contract_not_mem_emission {c : Config} {i : Instr} (hi : i.isWire = true) (b : Bool) :
    .contract b ∉ emission c i := by
  obtain ⟨byte, ps, hps, -⟩ := emission_eq hi c
  rw [hps]
  simp

/-- In a configuration that meets 00_scope.md R6 only `SET_RAM_WINDOW` has a contract check that can fail,
whatever the operands. -/
theorem contract_not_mem_driverProcedure {c : Config} (hc : c.Valid) {i : Instr}
    (h : ∀ x0 y0 x1 y1, i ≠ .setRamWindow x0 y0 x1 y1) : .contract false ∉ driverProcedure c i := by
  have hfull := (Sound_selectFullFrame hc).contract_not_mem
  have sound : operandCheck c i = none → inOrder i → .contract false ∉ driverProcedure c i :=
    fun hcheck horder => (Sound_driverProcedure hc hcheck horder).contract_not_mem
  have upload : ∀ w : Instr, w.isWire = true →
      .contract false ∉ selectFullFrame c ++ emission c w := fun w hw hm =>
    (List.mem_append.mp hm).elim hfull (contract_not_mem_emission hw false)
  cases i with
  | init => exact sound rfl trivial
  | setRamWindow x0 y0 x1 y1 => exact absurd rfl (h x0 y0 x1 y1)
  | setRamCursor x y => exact (Sound_setRamCursor c x y).contract_not_mem
  | selectFullFrame => exact hfull
  | updateBwFrame buffer => exact upload (.writeBwRam (.buffer buffer)) rfl
  | updateRedFrame buffer => exact upload (.writeRedRam (.buffer buffer)) rfl
  | clearBwFrame => exact sound rfl trivial
  | clearRedFrame => exact sound rfl trivial
  | displayFrame => exact sound rfl trivial
  | _ => exact List.not_mem_nil

theorem mem_of_mem_skipPrims {a : Action} {n : Nat} {actions : List Action}
    (h : a ∈ skipPrims n actions) : a ∈ actions := by
  induction actions generalizing n with
  | nil => cases n <;> exact h
  | cons b rest ih =>
    cases n with
    | zero => exact h
    | succ n => cases b <;> exact List.mem_cons_of_mem _ (ih h)

/-! ## The frame -/

/-- An operation that sends keeps to the frame, whatever block resets are to come. -/
theorem Kept.portFrame {s t : State} {resets : List ResetInput}
    (h : Kept { s with resets := resets } t) : PortFrame s t := by
  cases t
  obtain ⟨rfl, rfl, rfl, rfl, rfl, rfl, rfl, -⟩ := h
  exact ⟨rfl, fun _ => ⟨rfl, rfl⟩⟩

theorem kept_started (s : State) (i : Instr) : Kept s (s.started i) := by constructor <;> rfl

theorem exec_driver_frame {i : Instr} {s t : State} (hc : s.cfg.Valid) (hi : i.isDriver = true)
    (h : exec i s = .next t) : PortFrame s t ∧ t.resets = s.resets ∧
    (i ≠ .init → t.pinRst = s.pinRst ∧ (t.fsm = s.fsm ∨ t.fsm = .faulted)) ∧
    ((∀ x0 y0 x1 y1, i ≠ .setRamWindow x0 y0 x1 y1) → t.halted = s.halted) ∧
    (i ≠ .init → i ≠ .displayFrame → t.curOp = none ∧ t.busyFeed = s.busyFeed) ∧
    (t.curOp ≠ none → t.responses = s.responses) := by
  obtain ⟨-, -, he, -⟩ := exec_driver_cases hi h
  have hkept : Kept s t := (kept_started s i).trans (he.kept (kept_respond []))
  refine ⟨hkept.portFrame, hkept.resets, fun hinit => ?_, fun hwindow => ?_,
    fun hinit hdisplay => ?_, fun hcur => ?_⟩
  · exact ⟨he.pinRst endsOnly_respond (no_setRst_driverProcedure hinit),
      he.fsm endsOnly_respond (fsm_not_mem_driverProcedure hinit)⟩
  · exact he.halted endsOnly_respond (contract_not_mem_driverProcedure hc hwindow)
  · have hsamples := sampleCount_driverProcedure (c := s.cfg) hinit hdisplay
    refine ⟨?_, he.busyFeed endsOnly_respond hsamples⟩
    cases he with
    | done _ ht => subst ht; rfl
    | waiting hr => exact absurd hr (run_ne_waiting hsamples)
    | err k u _ ht => subst ht; rfl
    | abort u _ ht => subst ht; rfl
  · exact (he.portOnly_of_inProgress (fun _ => .inl rfl) hcur).responses

theorem exec_wire_frame {i : Instr} {s t : State} (hc : s.cfg.Valid) (hi : i.isWire = true)
    (h : exec i s = .next t) : PortFrame s t ∧ t.resets = s.resets ∧ t.pinRst = s.pinRst ∧
    t.busyFeed = s.busyFeed ∧ (t.curOp = s.curOp ∨ t.curOp = none) ∧
    (s.curOp ≠ some .init → t.fsm = s.fsm ∨ t.fsm = .faulted) ∧
    ((∀ x0 y0 x1 y1, s.curOp ≠ some (.setRamWindow x0 y0 x1 y1)) → t.halted = s.halted) ∧
    (t.curOp ≠ none → t.responses = s.responses ∧ t.halted = s.halted) := by
  obtain ⟨-, -, op, checks, rest, hop, -, hrest, hn, he⟩ := exec_wire_end hi h
  obtain ⟨b, ps, hps, hsend⟩ := emission_eq hi s.cfg
  have hsamples : sampleCount (checks ++ emission s.cfg i) = 0 := by
    obtain ⟨-, -, hchecks, -, -⟩ := checks_pieces hn
    obtain ⟨-, -, hemission, -, -⟩ := sends_pieces (ps := .setDc .cmd :: .xfer [b] :: ps)
      (by simpa [Prim.sends] using hsend)
    rw [sampleCount_append, hchecks, hps, hemission]
  have hmem : ∀ a ∈ checks ++ emission s.cfg i, a ∈ driverProcedure s.cfg op := fun a ha =>
    mem_of_mem_skipPrims (n := s.useq) (by
      rw [show skipPrims s.useq (driverProcedure s.cfg op) = s.rest op from rfl, hrest]
      exact List.mem_append_left rest ha)
  have hkept : Kept s t := he.kept kept_id
  refine ⟨hkept.portFrame, hkept.resets, he.pinRst endsOnly_id (setRst_not_mem_wire hi s.cfg hn),
    he.busyFeed endsOnly_id hsamples, he.curOp fun _ => .inl rfl, fun hinit => ?_,
    fun hwindow => ?_, fun hcur => ?_⟩
  · have hne : op ≠ .init := fun hop' => hinit (hop' ▸ hop)
    exact he.fsm endsOnly_id fun f hf => fsm_not_mem_driverProcedure hne f (hmem _ hf)
  · have hne : ∀ x0 y0 x1 y1, op ≠ .setRamWindow x0 y0 x1 y1 :=
      fun x0 y0 x1 y1 hop' => hwindow x0 y0 x1 y1 (hop' ▸ hop)
    exact he.halted endsOnly_id fun hf => contract_not_mem_driverProcedure hc hne (hmem _ hf)
  · have hport := he.portOnly_of_inProgress (fun _ => .inr rfl) hcur
    exact ⟨hport.responses, hport.halted⟩

/-- Behind each of the three waits no write of RST is left. -/
theorem SequencerPlace.setRst_not_mem_rest {s : State} {op : Instr} (h : SequencerPlace s)
    (hop : s.curOp = some op) (l : Level) : .prim (.setRst l) ∉ s.rest op := by
  have hfull : .prim (.setRst l) ∉ selectFullFrame s.cfg :=
    no_setRst_driverProcedure (i := .selectFullFrame) (by simp) l
  rcases h.rest hop with ⟨-, -, -, -, hr⟩ | ⟨-, -, -, -, hr⟩ | ⟨-, -, -, -, hr⟩ <;> rw [hr] <;>
    simp [hfull, waitUntilIdle, initMiddle, emitDriverControl, emitDataMode,
      emitWriteBorder, emitTempControl, sendCommandWithData, sendCommand, sendData]

theorem resume_frame {op : Instr} {s t : State} (hc : s.cfg.Valid) (hs : SequencerPlace s)
    (hop : s.curOp = some op) (h : resume op s = .next t) :
    Kept s t ∧ t.pinRst = s.pinRst ∧ t.halted = s.halted ∧
    (t.curOp = some op ∧ t.responses = s.responses ∨ t.curOp = none) ∧
    (op = .displayFrame → t.fsm = s.fsm ∧ t.pinDc = s.pinDc ∧ t.portFeed = s.portFeed) := by
  have he := finish_cases h
  refine ⟨he.kept (kept_respond []), he.pinRst endsOnly_respond (hs.setRst_not_mem_rest hop),
    he.halted endsOnly_respond (Sound_rest hc hs hop).contract_not_mem, ?_, ?_⟩
  · cases resume_end hc hs hop h with
    | waiting _ kept _ _ => exact .inl ⟨kept.curOp.trans hop, kept.responses⟩
    | done _ ht _ _ => subst ht; exact .inr rfl
    | err k u _ ht _ _ => subst ht; exact .inr rfl
  · intro hdisplay
    cases resume_end hc hs hop h with
    | waiting _ _ _ display => exact display hdisplay
    | done _ _ _ display => exact display hdisplay
    | err k u _ _ hinit _ => subst hinit; cases hdisplay

/-- Settles O45: an instruction's frame by the actions of its run, and a step that goes on is going on beside
the countdown. -/
theorem driverAndWireFrame : Obligations.DriverAndWireFrame := by
  refine ⟨fun s t i => exec_driver_frame, fun s t i => exec_wire_frame,
    fun s t op hc hs hop hn hstep => ?_⟩
  rw [step_of_sequencerOk hs hop hn] at hstep
  have hplace := hs.place.ticked
  rw [State.ticked_eq] at hstep hplace
  obtain ⟨hkept, hframe⟩ := resume_frame (s := { s with resets := s.ticked.resets }) hc hplace hop hstep
  exact ⟨hkept.portFrame, hframe⟩

end Sys2Proof.Machine
end

section
/-! PROOFS. 42_driver_ops.md R165, 20_memory.md R66: what sends does not read `rot` or the planes (O60). From a
state that differs in these alone, each operation that sends ends as it would have ended, in states that differ
in these alone. -/

namespace Sys2Proof.Machine

/-- `s` with another framebuffer. -/
def State.withFb (s : State) (rot : Rotation) (black red : Memory) : State :=
  { s with rot := rot, black := black, red := red }

section
variable (rot : Rotation) (black red : Memory)

/-- A primitive does not read the framebuffer. -/
theorem perform_withFb (p : Prim) (s : State) :
    perform p (s.withFb rot black red) = (perform p s).map (·.withFb rot black red) := by
  cases p with
  | setRst level =>
    cases hf : s.portFeed.head with
    | ok => rw [perform_setRst_ok hf, perform_setRst_ok (s := s.withFb rot black red) hf]; rfl
    | fail f => rw [perform_setRst_fail hf, perform_setRst_fail (s := s.withFb rot black red) hf]; rfl
  | setDc level =>
    cases hf : s.portFeed.head with
    | ok => rw [perform_setDc_ok hf, perform_setDc_ok (s := s.withFb rot black red) hf]; rfl
    | fail f => rw [perform_setDc_fail hf, perform_setDc_fail (s := s.withFb rot black red) hf]; rfl
  | xfer bytes =>
    by_cases hne : bytes = []
    · subst hne; rfl
    · cases hf : s.portFeed.head with
      | ok => rw [perform_xfer_ok hf hne, perform_xfer_ok (s := s.withFb rot black red) hf hne]; rfl
      | fail f =>
        rw [perform_xfer_fail hf hne, perform_xfer_fail (s := s.withFb rot black red) hf hne]; rfl
  | delay ms => rfl
  | readBusy =>
    rcases BusySample.cases s.busyFeed.head with hb | hb
    · rw [perform_readBusy_busy hb, perform_readBusy_busy (s := s.withFb rot black red) hb]; rfl
    · rw [perform_readBusy_idle hb, perform_readBusy_idle (s := s.withFb rot black red) hb]; rfl

theorem run_withFb (actions : List Action) (s : State) :
    run actions (s.withFb rot black red) = (run actions s).map (·.withFb rot black red) := by
  induction actions generalizing s with
  | nil => rfl
  | cons a rest ih =>
    cases a with
    | fsm f => exact ih { s with fsm := f }
    | contract holds =>
      cases holds with
      | true => exact ih s
      | false => rfl
    | prim p =>
      simp only [run, perform_withFb]
      cases perform p s with
      | ok s' => exact ih s'
      | busy s' => rfl
      | err kind s' => rfl
      | bad f => rfl

/-- The end of an operation, if what follows its last action does not read the framebuffer either. -/
theorem finish_withFb {atEnd : State → State}
    (ha : ∀ u : State, atEnd (u.withFb rot black red) = (atEnd u).withFb rot black red)
    (actions : List Action) (s : State) :
    finish atEnd (run actions (s.withFb rot black red)) =
      mapNext (·.withFb rot black red) (finish atEnd (run actions s)) := by
  rw [run_withFb]
  cases run actions s with
  | done t => exact congrArg Host.Outcome.next (ha t)
  | waiting t => rfl
  | err kind t => rfl
  | abort t => rfl
  | bad f => rfl

/-- Admission and the operand check do not read the framebuffer. -/
theorem exec_driver_withFb {i : Instr} (hi : i.isDriver = true) (s : State) :
    exec i (s.withFb rot black red) = mapNext (·.withFb rot black red) (exec i s) := by
  have hadmit : ∀ b, admitDriver b (s.withFb rot black red) = admitDriver b s := fun _ => rfl
  have hcfg : (s.withFb rot black red).cfg = s.cfg := rfl
  rw [exec_eq_runDriver hi, exec_eq_runDriver hi, hcfg]
  unfold runDriver
  rw [hadmit]
  cases admitDriver (decide (i = .init)) s with
  | some r => rfl
  | none =>
    cases operandCheck s.cfg i with
    | some r => rfl
    | none => exact finish_withFb rot black red (fun _ => rfl) (driverProcedure s.cfg i) (s.started i)

/-- The next part of the operation in progress is found without the framebuffer. -/
theorem exec_wire_withFb {i : Instr} (hi : i.isWire = true) (s : State) :
    exec i (s.withFb rot black red) = mapNext (·.withFb rot black red) (exec i s) := by
  have hhalted : (s.withFb rot black red).halted = s.halted := rfl
  have hcfg : (s.withFb rot black red).cfg = s.cfg := rfl
  have hnext : ∀ command, nextEmission command (s.withFb rot black red) = nextEmission command s :=
    fun _ => rfl
  rw [exec_eq_runWire hi, exec_eq_runWire hi, hcfg]
  unfold runWire
  rw [hhalted, hnext]
  cases s.halted with
  | true => rfl
  | false =>
    cases operandCheck s.cfg i with
    | some r => rfl
    | none =>
      cases nextEmission (emission s.cfg i) s with
      | none => rfl
      | some actions => exact finish_withFb rot black red (fun _ => rfl) actions s

end

/-- Settles O60: the same outcome, in states that differ in the framebuffer alone. -/
theorem driverDoesNotReadTheFramebuffer : Obligations.DriverDoesNotReadTheFramebuffer := by
  intro s t i rot black red hi h
  have hsame : exec i (s.withFb rot black red) = mapNext (·.withFb rot black red) (exec i s) :=
    hi.elim (exec_driver_withFb rot black red · s) (exec_wire_withFb rot black red · s)
  rw [h] at hsame
  exact hsame

end Sys2Proof.Machine
end

section
/-! PROOFS. 43_framebuffer_ops.md R197: at every rotation the address mapper is the coordinate rotation followed
by the unrotated addressing, and both are bijections (O29). -/

namespace Sys2Proof.Machine

/-! ## Masks -/

/-- A mask counted from bit 0 (R194, R195) is one counted from bit 7 (20_memory.md R52). -/
theorem mask_from_lsb {k : Nat} (h : k < 8) : 0x01#8 <<< k = 0x80#8 >>> (7 - k) := by
  revert k; decide

theorem mask_ne_zero {k : Nat} (h : k < 8) : 0x80#8 >>> k ≠ 0 := by
  revert k; decide

/-- The masks of two bits of a byte have no bit in common. -/
theorem mask_and_mask {j k : Nat} (hj : j < 8) (hk : k < 8) (hne : j ≠ k) :
    (0x80#8 >>> j) &&& (0x80#8 >>> k) = 0 := by
  have hall : ∀ j < 8, ∀ k < 8, j ≠ k → (0x80#8 >>> j) &&& (0x80#8 >>> k) = 0 := by decide
  exact hall j hj k hk hne

theorem mask_injective {j k : Nat} (hj : j < 8) (hk : k < 8) (h : 0x80#8 >>> j = 0x80#8 >>> k) :
    j = k := by
  by_contra hne
  have hand := mask_and_mask hj hk hne
  rw [h, BitVec.and_self] at hand
  exact mask_ne_zero hk hand

/-! ## The unrotated addressing (20_memory.md R51, R52) -/

theorem width_eq_rowBytes {c : Config} (hc : c.Valid) : c.width = 8 * c.rowBytes := by
  have := hc.width_mod
  unfold Config.rowBytes
  omega

theorem physicalAddress_injective {c : Config} (hc : c.Valid) {px py px' py' : Nat}
    (hx : px < c.width) (hx' : px' < c.width)
    (h : physicalAddress c px py = physicalAddress c px' py') : px = px' ∧ py = py' := by
  have hw := width_eq_rowBytes hc
  obtain ⟨hindex, hmask⟩ := Prod.mk.inj h
  have hcol : px / 8 < c.rowBytes := by omega
  have hcol' : px' / 8 < c.rowBytes := by omega
  have hmod : px % 8 = px' % 8 := mask_injective (by omega) (by omega) hmask
  have hdiv : px / 8 = px' / 8 := by
    simpa [Nat.add_mul_mod_self_left, Nat.mod_eq_of_lt, hcol, hcol'] using
      congrArg (· % c.rowBytes) hindex
  have hpos : 0 < c.rowBytes := by omega
  rw [hdiv] at hindex
  exact ⟨by omega, Nat.eq_of_mul_eq_mul_left hpos (Nat.add_left_cancel hindex)⟩

theorem exists_physicalAddress {c : Config} (hc : c.Valid) {i k : Nat} (hi : i < c.planeBytes)
    (hk : k < 8) :
    ∃ px py, px < c.width ∧ py < c.height ∧ physicalAddress c px py = (i, 0x80#8 >>> k) := by
  have hw := width_eq_rowBytes hc
  have hpos : 0 < c.rowBytes := by have := hc.width_ge; omega
  have hcol : i % c.rowBytes < c.rowBytes := Nat.mod_lt i hpos
  refine ⟨8 * (i % c.rowBytes) + k, i / c.rowBytes, by omega, Nat.div_lt_of_lt_mul hi, ?_⟩
  have hdiv : (8 * (i % c.rowBytes) + k) / 8 = i % c.rowBytes := by omega
  have hmod : (8 * (i % c.rowBytes) + k) % 8 = k := by omega
  rw [physicalAddress, hdiv, hmod, Nat.mod_add_div]

/-! ## The coordinate rotation -/

theorem physical_lt {c : Config} {r : Rotation} {x y : Nat} (h : InRange c r x y) :
    (physical c r x y).1 < c.width ∧ (physical c r x y).2 < c.height := by
  cases r <;> simp only [InRange, logicalSize, physical] at h ⊢ <;> omega

theorem physical_injective {c : Config} {r : Rotation} {x y x' y' : Nat} (h : InRange c r x y)
    (h' : InRange c r x' y') (he : physical c r x y = physical c r x' y') : x = x' ∧ y = y' := by
  cases r <;> simp only [InRange, logicalSize, physical, Prod.mk.injEq] at h h' he <;> omega

/-- The rotation turned back. -/
theorem exists_physical {c : Config} (r : Rotation) {px py : Nat} (hx : px < c.width)
    (hy : py < c.height) : ∃ x y, InRange c r x y ∧ physical c r x y = (px, py) := by
  cases r <;> simp only [InRange, logicalSize, physical, Prod.mk.injEq]
  case r0 => exact ⟨px, py, by omega⟩
  case r90 => exact ⟨py, c.width - 1 - px, by omega⟩
  case r180 => exact ⟨c.width - 1 - px, c.height - 1 - py, by omega⟩
  case r270 => exact ⟨c.height - 1 - py, px, by omega⟩

/-! ## The mapper -/

/-- Columns counted from the right end of a row run through its bytes and the bits of each the other way. -/
theorem mirrored_column {c : Config} (hc : c.Valid) {y : Nat} (h : y < c.width) :
    (c.width - 1 - y) / 8 = c.rowBytes - 1 - y / 8 ∧ (c.width - 1 - y) % 8 = 7 - y % 8 := by
  have hw := width_eq_rowBytes hc
  omega

/-- The byte at the same distance from the end of the plane is the mirrored column of the mirrored row. -/
theorem mirrored_index {c : Config} {a y : Nat} (ha : a < c.rowBytes) (hy : y < c.height) :
    c.planeBytes - 1 - (a + c.rowBytes * y) =
      c.rowBytes - 1 - a + c.rowBytes * (c.height - 1 - y) := by
  obtain ⟨d, hd⟩ : ∃ d, c.height = y + 1 + d := ⟨c.height - (y + 1), by omega⟩
  have hrows : c.rowBytes * (y + 1 + d) = c.rowBytes * y + c.rowBytes + c.rowBytes * d := by ring
  have hd' : y + 1 + d - 1 - y = d := by omega
  rw [Config.planeBytes, hd, hd', hrows]
  omega

theorem mapPixel_eq_physicalAddress {c : Config} (hc : c.Valid) {r : Rotation} {x y : Nat}
    (h : InRange c r x y) :
    mapPixel c r x y = physicalAddress c (physical c r x y).1 (physical c r x y).2 := by
  cases r with
  | r0 => rfl
  | r90 =>
    obtain ⟨hdiv, hmod⟩ := mirrored_column hc h.2
    simp only [mapPixel, physical, physicalAddress, hdiv, hmod]
    rw [mask_from_lsb (Nat.mod_lt y (by decide))]
  | r180 =>
    obtain ⟨hx, hy⟩ : x < c.width ∧ y < c.height := h
    have hw := width_eq_rowBytes hc
    obtain ⟨hdiv, hmod⟩ := mirrored_column hc hx
    simp only [mapPixel, physical, physicalAddress, hdiv, hmod]
    rw [mask_from_lsb (Nat.mod_lt x (by decide)), mirrored_index (by omega) hy]
  | r270 => simp only [mapPixel, physical, physicalAddress, Nat.mul_comm]

/-- The mask of a pixel has one bit. -/
theorem mapPixel_mask {c : Config} (hc : c.Valid) {r : Rotation} {x y : Nat} (h : InRange c r x y) :
    ∃ k < 8, (mapPixel c r x y).2 = 0x80#8 >>> k := by
  rw [mapPixel_eq_physicalAddress hc h]
  exact ⟨_, Nat.mod_lt _ (by decide), rfl⟩

theorem mapPixel_injective {c : Config} (hc : c.Valid) {r : Rotation} {x y x' y' : Nat}
    (h : InRange c r x y) (h' : InRange c r x' y') (he : mapPixel c r x y = mapPixel c r x' y') :
    x = x' ∧ y = y' := by
  rw [mapPixel_eq_physicalAddress hc h, mapPixel_eq_physicalAddress hc h'] at he
  obtain ⟨hx, hy⟩ := physicalAddress_injective hc (physical_lt h).1 (physical_lt h').1 he
  exact physical_injective h h' (Prod.ext hx hy)

theorem exists_mapPixel {c : Config} (hc : c.Valid) (r : Rotation) {i k : Nat}
    (hi : i < c.planeBytes) (hk : k < 8) :
    ∃ x y, InRange c r x y ∧ mapPixel c r x y = (i, 0x80#8 >>> k) := by
  obtain ⟨px, py, hx, hy, haddr⟩ := exists_physicalAddress hc hi hk
  obtain ⟨x, y, hin, hp⟩ := exists_physical r hx hy
  exact ⟨x, y, hin, by rw [mapPixel_eq_physicalAddress hc hin, hp, haddr]⟩

/-- Settles O29: a composition of two bijections; with `WIDTH = 12` a row has one byte, so that column 8 is in
the next row's. -/
theorem mapperIsABijection : Obligations.MapperIsABijection := by
  refine ⟨fun c hc r => ⟨fun x y hin => ?_, fun _ _ _ _ => mapPixel_injective hc,
    fun _ _ => exists_mapPixel hc r⟩, fun c hw => ?_⟩
  · exact ⟨mapPixel_lt hc hin, mapPixel_mask hc hin, (physical_lt hin).1, (physical_lt hin).2,
      mapPixel_eq_physicalAddress hc hin⟩
  · have hrow : c.rowBytes = 1 := by rw [Config.rowBytes, hw]
    simp [mapPixel, hrow]

end Sys2Proof.Machine
end

section
/-! PROOFS. 43_framebuffer_ops.md R199, R207: what `FB_SET_PIXEL` and a batch of them make of the bits of each
pixel (O24, O30, O32). -/

namespace Sys2Proof.Machine

/-! ## One byte -/

/-- The bits of the mask are written, the others kept. -/
theorem getLsbD_putBits (b mask : Byte) (bit : Bool) {i : Nat} (h : i < 8) :
    (putBits b mask bit).getLsbD i = if mask.getLsbD i then bit else b.getLsbD i := by
  cases bit <;> cases hm : mask.getLsbD i <;> simp_all [putBits]

theorem putBits_and_mask (b mask : Byte) (bit : Bool) :
    putBits b mask bit &&& mask = if bit then mask else 0 := by
  apply BitVec.eq_of_getLsbD_eq
  intro i hi
  rw [BitVec.getLsbD_and, getLsbD_putBits _ _ _ hi]
  cases bit <;> cases hmask : mask.getLsbD i <;> simp [hmask]

theorem putBits_and_of_disjoint {mask other : Byte} (h : mask &&& other = 0) (b : Byte)
    (bit : Bool) : putBits b mask bit &&& other = b &&& other := by
  apply BitVec.eq_of_getLsbD_eq
  intro i hi
  have hdisjoint : (mask.getLsbD i && other.getLsbD i) = false := by
    simpa using congrArg (·.getLsbD i) h
  rw [BitVec.getLsbD_and, BitVec.getLsbD_and, getLsbD_putBits _ _ _ hi]
  cases hmask : mask.getLsbD i with
  | false => simp
  | true =>
    have hother : other.getLsbD i = false := by simpa [hmask] using hdisjoint
    simp [hother]

theorem bitSet_putBits_self {mask : Byte} (h : mask ≠ 0) (b : Byte) (bit : Bool) :
    bitSet (putBits b mask bit) mask = bit := by
  cases bit with
  | false => simp [bitSet, putBits_and_mask]
  | true => simpa [bitSet, putBits_and_mask] using h

theorem bitSet_putBits_of_disjoint {mask other : Byte} (h : mask &&& other = 0) (b : Byte)
    (bit : Bool) : bitSet (putBits b mask bit) other = bitSet b other := by
  rw [bitSet, putBits_and_of_disjoint h, bitSet]

/-! ## One plane -/

/-- The read-modify-write of one plane (43_framebuffer_ops.md R199). -/
def Memory.putBits (m : Memory) (i : Nat) (mask : Byte) (bit : Bool) : Memory :=
  m.set i (Machine.putBits (m.get i) mask bit)

theorem Memory.get_putBits_self {m : Memory} (h : m.wf) (i : Nat) (mask : Byte) (bit : Bool) :
    (m.putBits i mask bit).get i = Machine.putBits (m.get i) mask bit :=
  Memory.get_set_self h i _

theorem Memory.get_putBits_of_ne {i j : Nat} (hne : j ≠ i) (m : Memory) (mask : Byte) (bit : Bool) :
    (m.putBits i mask bit).get j = m.get j :=
  Memory.get_set_of_ne hne _

theorem readByte_putBits_self {c : Config} {m : Memory} {i : Nat} {b : Byte} (h : m.wf)
    (hb : readByte c m i = some b) (mask : Byte) (bit : Bool) :
    readByte c (m.putBits i mask bit) i = some (putBits b mask bit) := by
  unfold readByte at hb ⊢
  split at hb
  · cases hb
    rw [if_pos ‹_›, Memory.get_putBits_self h]
  · cases hb

theorem readByte_putBits_of_ne {i a : Nat} (hne : a ≠ i) (c : Config) (m : Memory) (mask : Byte)
    (bit : Bool) : readByte c (m.putBits i mask bit) a = readByte c m a := by
  rw [readByte, Memory.get_putBits_of_ne hne, readByte]

/-! ## `FB_SET_PIXEL` -/

theorem State.drawn_eq (s : State) (x y : U16) (color : Color) {p : Nat × Byte}
    (h : mapPixel s.cfg s.rot x.toNat y.toNat = p) : s.drawn x y color = { s with
      black := s.black.putBits p.1 p.2 (planeBits color).1
      red := s.red.putBits p.1 p.2 (planeBits color).2 } := by
  simp only [State.drawn, Memory.putBits, h]

/-- An operation that is admitted has none in progress before it either. -/
theorem respond_of_accepting {s : State} (ha : Accepting s) (result : List Byte) :
    respond result s = { s with useq := 0, responses := s.responses ++ [0x00 :: result] } := by
  obtain ⟨-, hop⟩ := ha
  rw [respond, State.ended, ← hop]
  rfl

/-- Settles O24: one read-modify-write of each plane, at the mapper's address. -/
theorem setPixelWritesOneBitOfEachPlane : Obligations.SetPixelWritesOneBitOfEachPlane := by
  intro s x y color ha hc hplanes hin
  refine ⟨_, exec_fbSetPixel ha hc hin,
    respond_of_accepting (s := s.drawn x y color) ha [], fun i mask hmap => ?_⟩
  rw [State.drawn_eq s x y color hmap]
  refine ⟨fun b hb => ?black, fun r hr => ?red, fun a hne => ?others⟩
  case black =>
    refine (readByte_putBits_self hplanes.black.1 hb mask _).trans ?_
    cases color <;> rfl
  case red =>
    refine (readByte_putBits_self hplanes.red.1 hr mask _).trans ?_
    cases color <;> rfl
  case others => exact ⟨readByte_putBits_of_ne hne _ _ _ _, readByte_putBits_of_ne hne _ _ _ _⟩

/-- Two pixels are in different bytes or have masks without a bit in common. -/
theorem mapPixel_disjoint {c : Config} (hc : c.Valid) {r : Rotation} {x y x' y' : Nat}
    (h : InRange c r x y) (h' : InRange c r x' y') (hne : (x', y') ≠ (x, y)) :
    (mapPixel c r x' y').1 ≠ (mapPixel c r x y).1 ∨
      (mapPixel c r x y).2 &&& (mapPixel c r x' y').2 = 0 := by
  obtain ⟨j, hj, hmask⟩ := mapPixel_mask hc h
  obtain ⟨k, hk, hmask'⟩ := mapPixel_mask hc h'
  by_cases hjk : j = k
  · refine .inl fun hindex => hne ?_
    obtain ⟨rfl, rfl⟩ := mapPixel_injective hc h' h (Prod.ext hindex (by rw [hmask, hmask', hjk]))
    rfl
  · exact .inr (by rw [hmask, hmask', mask_and_mask hj hk hjk])

theorem Memory.bitSet_putBits_of_disjoint {m : Memory} (h : m.wf) {i j : Nat} {mask other : Byte}
    (hd : j ≠ i ∨ mask &&& other = 0) (bit : Bool) :
    bitSet ((m.putBits i mask bit).get j) other = bitSet (m.get j) other := by
  by_cases hne : j = i
  · subst hne
    rw [Memory.get_putBits_self h, Machine.bitSet_putBits_of_disjoint (hd.resolve_left (· rfl))]
  · rw [Memory.get_putBits_of_ne hne]

theorem pixelBits_drawn_self {s : State} {x y : U16} (hc : s.cfg.Valid) (hp : PlanesOk s)
    (h : InRange s.cfg s.rot x.toNat y.toNat) (color : Color) :
    pixelBits (s.drawn x y color) x.toNat y.toNat = planeBits color := by
  obtain ⟨k, hk, hmask⟩ := mapPixel_mask hc h
  have hne : (mapPixel s.cfg s.rot x.toNat y.toNat).2 ≠ 0 := hmask ▸ mask_ne_zero hk
  rw [State.drawn_eq s x y color rfl]
  simp only [pixelBits, Memory.get_putBits_self hp.black.1, Memory.get_putBits_self hp.red.1,
    bitSet_putBits_self hne]

theorem pixelBits_drawn_of_ne {s : State} {x y : U16} {x' y' : Nat} (hc : s.cfg.Valid)
    (hp : PlanesOk s) (h : InRange s.cfg s.rot x.toNat y.toNat) (h' : InRange s.cfg s.rot x' y')
    (hne : (x', y') ≠ (x.toNat, y.toNat)) (color : Color) :
    pixelBits (s.drawn x y color) x' y' = pixelBits s x' y' := by
  have hd := mapPixel_disjoint hc h h' hne
  rw [State.drawn_eq s x y color rfl]
  simp only [pixelBits, Memory.bitSet_putBits_of_disjoint hp.black.1 hd,
    Memory.bitSet_putBits_of_disjoint hp.red.1 hd]

/-- Settles O30: the mask of a pixel has a bit, and none of another pixel's in the same byte. -/
theorem setPixelChangesThatPixelAlone : Obligations.SetPixelChangesThatPixelAlone := by
  intro s t x y color hc hp h
  obtain ⟨-, hin, rfl, -⟩ := fbSetPixel_cases h
  exact ⟨pixelBits_drawn_self hc hp hin color,
    fun _ _ hin' hne => pixelBits_drawn_of_ne hc hp hin hin' hne color⟩

/-! ## `FB_DRAW` -/

@[simp] theorem pixelBits_respond (result : List Byte) (s : State) (x y : Nat) :
    pixelBits (respond result s) x y = pixelBits s x y := rfl

/-- The bits of a pixel after a batch: those of the last pair at that point, or those it had. -/
def bitsAfter (pairs : List (U16 × U16 × Color)) (s : State) (x y : Nat) : Bool × Bool :=
  match pairs.reverse.find? fun p => p.1.toNat = x ∧ p.2.1.toNat = y with
  | some p => planeBits p.2.2
  | none => pixelBits s x y

/-- The first pair of a batch counts where no later pair is. -/
theorem bitsAfter_cons {s : State} {p : U16 × U16 × Color} {x y : Nat} (hc : s.cfg.Valid)
    (hp : PlanesOk s) (h : InRange s.cfg s.rot p.1.toNat p.2.1.toNat) (h' : InRange s.cfg s.rot x y)
    (rest : List (U16 × U16 × Color)) :
    bitsAfter rest (respond [] (s.drawn p.1 p.2.1 p.2.2)) x y = bitsAfter (p :: rest) s x y := by
  simp only [bitsAfter, List.reverse_cons, List.find?_append]
  cases rest.reverse.find? fun p => p.1.toNat = x ∧ p.2.1.toNat = y with
  | some q => rfl
  | none =>
    by_cases hat : p.1.toNat = x ∧ p.2.1.toNat = y
    · obtain ⟨rfl, rfl⟩ := hat
      simpa using pixelBits_drawn_self hc hp h p.2.2
    · have hne : (x, y) ≠ (p.1.toNat, p.2.1.toNat) := fun he => by
        obtain ⟨rfl, rfl⟩ := Prod.mk.inj he
        exact hat ⟨rfl, rfl⟩
      simpa [hat] using pixelBits_drawn_of_ne hc hp h h' hne p.2.2

theorem fbDraw_cons_of_next {s t : State} {p : U16 × U16 × Color}
    (h : exec (.fbSetPixel p.1 p.2.1 p.2.2) s = .next t) (rest : List (U16 × U16 × Color)) :
    fbDraw (p :: rest) s = fbDraw rest t := by
  simp only [fbDraw, List.map_cons, execAll, h]

theorem fbDraw_append_of_next {pairs : List (U16 × U16 × Color)} {s t : State}
    (h : fbDraw pairs s = .next t) (rest : List (U16 × U16 × Color)) :
    fbDraw (pairs ++ rest) s = fbDraw rest t := by
  induction pairs generalizing s with
  | nil => cases h; rfl
  | cons p pairs ih =>
    cases hexec : exec (.fbSetPixel p.1 p.2.1 p.2.2) s with
    | next u =>
      rw [fbDraw_cons_of_next hexec] at h
      rw [List.cons_append, fbDraw_cons_of_next hexec, ih h]
    | fault f => simp [fbDraw, execAll, hexec] at h
    | refused r => simp [fbDraw, execAll, hexec] at h

/-- A batch in range is drawn, and leaves a state that accepts operations at the same rotation. -/
theorem exists_fbDraw_next {pairs : List (U16 × U16 × Color)} {s : State} (ha : Accepting s)
    (hc : s.cfg.Valid) (hp : PlanesOk s)
    (h : ∀ p ∈ pairs, InRange s.cfg s.rot p.1.toNat p.2.1.toNat) :
    ∃ t, fbDraw pairs s = .next t ∧ Accepting t ∧ t.cfg = s.cfg ∧ t.rot = s.rot ∧
      ∀ x y, InRange s.cfg s.rot x y → pixelBits t x y = bitsAfter pairs s x y := by
  induction pairs generalizing s with
  | nil => exact ⟨s, rfl, ha, rfl, rfl, fun _ _ _ => rfl⟩
  | cons p rest ih =>
    obtain ⟨hin, hrest⟩ := List.forall_mem_cons.mp h
    have hdrawn := PlanesOk.drawn (color := p.2.2) hp (mapPixel_lt hc hin)
    obtain ⟨t, ht, hat, hcfg, hrot, hbits⟩ :=
      ih (s := respond [] (s.drawn p.1 p.2.1 p.2.2)) ⟨ha.1, rfl⟩ hc hdrawn hrest
    refine ⟨t, ?_, hat, hcfg, hrot, fun x y hxy => ?_⟩
    · rw [fbDraw_cons_of_next (exec_fbSetPixel ha hc hin), ht]
    · rw [hbits x y hxy, bitsAfter_cons hc hp hin hxy]

/-- Settles O32: by induction on the batch; a pair out of range is refused in the state the pairs before it
leave. -/
theorem drawAppliesThePairsInOrder : Obligations.DrawAppliesThePairsInOrder := by
  intro s pairs ha hc hp h
  obtain ⟨t, ht, hat, hcfg, hrot, hbits⟩ := exists_fbDraw_next ha hc hp h
  refine ⟨⟨t, ht, hrot, hbits⟩, fun p rest hout => ?_⟩
  rw [← hcfg, ← hrot] at hout
  rw [fbDraw_append_of_next ht]
  simp only [fbDraw, List.map_cons, execAll, exec_fbSetPixel_of_not_inRange hat hout]

end Sys2Proof.Machine
end

section
/-! PROOFS. 43_framebuffer_ops.md R200 to R206: what each of the other framebuffer operations writes and answers
(O23, O25 to O28), and what a framebuffer operation leaves unchanged (O46). -/

namespace Sys2Proof.Machine

/-! ## Writes -/

theorem fillByte_black (color : Color) :
    fillByte (planeBits color).1 = if color = .black then 0x00 else 0xFF := by
  cases color <;> rfl

theorem fillByte_red (color : Color) :
    fillByte (planeBits color).2 = if color = .red then 0xFF else 0x00 := by
  cases color <;> rfl

theorem readByte_fill {c : Config} {i : Nat} (h : i < c.planeBytes) (v : Byte) :
    readByte c (Memory.fill c.planeBytes v) i = some v := by
  rw [readByte_of_lt h, Memory.get_fill, if_pos h]

/-- Settles O23: the fill depends on the colour and `PLANE_BYTES` alone, so a second one writes the same. -/
theorem fbClearFillsBothPlanes : Obligations.FbClearFillsBothPlanes := by
  refine ⟨rfl, rfl, rfl, fun s color ha => ?_⟩
  refine ⟨_, exec_fbClear ha, respond_of_accepting (s := s.filled color) ha [], fun i hi => ⟨?_, ?_⟩,
    _, exec_fbClear ⟨ha.1, rfl⟩, rfl, rfl⟩
  · exact (readByte_fill hi _).trans (congrArg some (fillByte_black color))
  · exact (readByte_fill hi _).trans (congrArg some (fillByte_red color))

/-- Settles O25: the operation's effect is on `rot`. -/
theorem setRotationWritesRotAlone : Obligations.SetRotationWritesRotAlone := by
  intro s r ha
  rw [exec_fbSetRotation ha]
  exact congrArg Host.Outcome.next (respond_of_accepting (s := { s with rot := r }) ha [])

/-! ## Reads -/

/-- Settles O26: the answer is the rotation's code. -/
theorem rotationAnswersTheCode : Obligations.RotationAnswersTheCode := by
  refine ⟨rfl, fun s ha => ⟨0, ?_⟩⟩
  rw [exec_fbRotation ha, respond_of_accepting ha]
  cases s.rot <;> rfl

/-- The logical extent fits its 16-bit fields (30_encoding.md R95). -/
theorem logicalSize_lt {c : Config} (hc : c.Valid) (r : Rotation) :
    (logicalSize c r).1 < 2 ^ 16 ∧ (logicalSize c r).2 < 2 ^ 16 := by
  have hw := hc.width_le
  have hh := hc.height_le
  cases r <;> simp only [logicalSize] <;> omega

/-- Settles O27: the extent fits, so its fields read as it. -/
theorem sizeAnswersTheLogicalExtent : Obligations.SizeAnswersTheLogicalExtent := by
  refine ⟨rfl, fun s ha hc => ?_⟩
  obtain ⟨hwidth, hheight⟩ := logicalSize_lt hc s.rot
  refine ⟨_, _, 0, by rw [exec_fbSize ha, respond_of_accepting ha]; rfl, ?_⟩
  rw [BitVec.toNat_ofNat, BitVec.toNat_ofNat, Nat.mod_eq_of_lt hwidth, Nat.mod_eq_of_lt hheight]
  cases s.rot <;> simp [logicalSize]

theorem readPlane_getElem? {c : Config} {i : Nat} (h : i < c.planeBytes) (m : Memory) :
    (readPlane c m)[i]? = readByte c m i := by
  rw [readByte_of_lt h, readPlane, List.getElem?_map, List.getElem?_range h, Option.map_some]

/-- Settles O28: the answer is the plane read byte by byte. -/
theorem planeReadsAnswerThePlane : Obligations.PlaneReadsAnswerThePlane := by
  refine ⟨rfl, rfl, fun s ha => ⟨readPlane s.cfg s.black, readPlane s.cfg s.red, 0, 0, ?_, ?_,
    readPlane_length _ _, readPlane_length _ _, fun i hi =>
      ⟨readPlane_getElem? hi _, readPlane_getElem? hi _⟩⟩⟩
  · rw [exec_fbBlackData ha, respond_of_accepting ha]
  · rw [exec_fbRedData ha, respond_of_accepting ha]

/-! ## The frame -/

/-- The two operations that write a plane, and the others. -/
theorem Drawn.planes_cases {i : Instr} {s t : State} (h : Drawn s t i) :
    (∃ color, i = .fbClear color ∧ t = respond [] (s.filled color)) ∨
    (∃ x y color, i = .fbSetPixel x y color ∧ t = respond [] (s.drawn x y color)) ∨
    t.black = s.black ∧ t.red = s.red := by
  cases h with
  | clear color ht => exact .inl ⟨color, rfl, ht⟩
  | setPixel x y color _ _ ht => exact .inr (.inl ⟨x, y, color, rfl, ht⟩)
  | setRotation r ht => subst ht; exact .inr (.inr ⟨rfl, rfl⟩)
  | rotation ht => subst ht; exact .inr (.inr ⟨rfl, rfl⟩)
  | size ht => subst ht; exact .inr (.inr ⟨rfl, rfl⟩)
  | blackData ht => subst ht; exact .inr (.inr ⟨rfl, rfl⟩)
  | redData ht => subst ht; exact .inr (.inr ⟨rfl, rfl⟩)

theorem Drawn.rot {i : Instr} {s t : State} (h : Drawn s t i) (hi : ∀ r, i ≠ .fbSetRotation r) :
    t.rot = s.rot := by
  cases h with
  | setRotation r _ => exact absurd rfl (hi r)
  | clear color ht => subst ht; rfl
  | setPixel x y color _ _ ht => subst ht; rfl
  | rotation ht => subst ht; rfl
  | size ht => subst ht; rfl
  | blackData ht => subst ht; rfl
  | redData ht => subst ht; rfl

/-- Settles O46: by what each operation can leave; none was in progress before. -/
theorem framebufferFrame : Obligations.FramebufferFrame := by
  intro s t i hi h
  obtain ⟨⟨-, hop⟩, hd⟩ := exec_framebuffer_cases hi h
  have hfields := hd.frame
  rw [← hop] at hfields
  refine ⟨hfields, hd.rot, fun hclear hpixel a => ?_, ?_⟩
  · have hcfg : t.cfg = s.cfg := by rw [hfields]
    rcases hd.planes_cases with ⟨color, rfl, -⟩ | ⟨x, y, color, rfl, -⟩ | ⟨hblack, hred⟩
    · exact absurd rfl (hclear color)
    · exact absurd rfl (hpixel x y color)
    · rw [hcfg, hblack, hred]
      exact ⟨rfl, rfl⟩
  · rintro x y color rfl a hne
    obtain ⟨-, -, rfl, -⟩ := fbSetPixel_cases h
    exact ⟨readByte_putBits_of_ne hne _ _ _ _, readByte_putBits_of_ne hne _ _ _ _⟩

end Sys2Proof.Machine
end

section
/-! PROOFS. 43_framebuffer_ops.md R190, R208: no colour has its red bit set and its black bit clear, and so no
instruction and no step makes such a pixel (O31). -/

namespace Sys2Proof.Machine

/-! ## One byte -/

theorem fillByte_red_without_black (color : Color) :
    fillByte (planeBits color).2 &&& ~~~fillByte (planeBits color).1 = 0 := by
  cases color <;> decide

/-- The bits of the mask are a colour's, and the others are as they were. -/
theorem putBits_red_without_black {red black : Byte} (h : red &&& ~~~black = 0) (mask : Byte)
    (color : Color) :
    putBits red mask (planeBits color).2 &&& ~~~putBits black mask (planeBits color).1 = 0 := by
  apply BitVec.eq_of_getLsbD_eq
  intro i hi
  have hold : (red.getLsbD i && !black.getLsbD i) = false := by
    simpa [hi] using congrArg (·.getLsbD i) h
  simp only [BitVec.getLsbD_and, BitVec.getLsbD_not, getLsbD_putBits _ _ _ hi, hi]
  cases mask.getLsbD i with
  | true => cases color <;> simp [planeBits]
  | false => simpa using hold

/-! ## States -/

/-- The invariant is about the parameters and the planes alone. -/
theorem NoRedWithoutBlackBit.of_eq {s t : State} (h : NoRedWithoutBlackBit s) (hcfg : t.cfg = s.cfg)
    (hblack : t.black = s.black) (hred : t.red = s.red) : NoRedWithoutBlackBit t := by
  intro i hi
  rw [hcfg] at hi
  rw [hblack, hred]
  exact h i hi

theorem noRedWithoutBlackBit_filled (s : State) (color : Color) :
    NoRedWithoutBlackBit (s.filled color) := by
  intro i hi
  have hi : i < s.cfg.planeBytes := hi
  simp only [State.filled, Memory.get_fill, if_pos hi]
  exact fillByte_red_without_black color

theorem NoRedWithoutBlackBit.drawn {s : State} (h : NoRedWithoutBlackBit s) (hp : PlanesOk s)
    (x y : U16) (color : Color) : NoRedWithoutBlackBit (s.drawn x y color) := by
  intro i hi
  rw [State.drawn_eq s x y color rfl]
  by_cases hne : i = (mapPixel s.cfg s.rot x.toNat y.toNat).1
  · simp only [← hne, Memory.get_putBits_self hp.black.1, Memory.get_putBits_self hp.red.1]
    exact putBits_red_without_black (h i hi) _ color
  · simp only [Memory.get_putBits_of_ne hne]
    exact h i hi

/-! ## Instructions and steps -/

theorem NoRedWithoutBlackBit.exec {i : Instr} {s t : State} (h : NoRedWithoutBlackBit s)
    (hp : PlanesOk s) (he : exec i s = .next t) : NoRedWithoutBlackBit t := by
  rcases exec_kept_or_drawn he with ⟨hk, -⟩ | hd
  · exact h.of_eq hk.cfg hk.black hk.red
  · rcases hd.planes_cases with ⟨color, -, rfl⟩ | ⟨x, y, color, -, rfl⟩ | ⟨hblack, hred⟩
    · exact (noRedWithoutBlackBit_filled s color).of_eq rfl rfl rfl
    · exact (h.drawn hp x y color).of_eq rfl rfl rfl
    · exact h.of_eq (by rw [hd.frame]) hblack hred

/-- Taking a frame touches no plane. -/
theorem NoRedWithoutBlackBit.nextFrame {f : Frame} {s s' : State} (h : NoRedWithoutBlackBit s)
    (hf : nextFrame s = some (f, s')) : NoRedWithoutBlackBit s' := by
  rcases nextFrame_cases hf with ⟨_, _, -, -, -, rfl⟩ | ⟨_, _, -, -, -, rfl⟩ <;>
    exact h.of_eq rfl rfl rfl

theorem NoRedWithoutBlackBit.advance {s t : State} (h : NoRedWithoutBlackBit s) (hp : PlanesOk s)
    (ha : advance s = .next t) : NoRedWithoutBlackBit t := by
  rcases advance_cases ha with ⟨op, -, -, hres⟩ | ⟨f, s', i, hf, -, -, hexec⟩ | ⟨-, -, rfl⟩
  · have hk := (resume_kept_onlyAdds hres).1
    exact h.of_eq hk.cfg hk.black hk.red
  · exact (h.nextFrame hf).exec (hp.nextFrame hf) hexec
  · exact h

/-- Settles O31: `FB_CLEAR` fills with a colour's bits, `FB_SET_PIXEL` writes a colour's bits, and nothing else
but a block reset writes a plane. -/
theorem noInstructionMakesRedWithoutBlackBit : Obligations.NoInstructionMakesRedWithoutBlackBit := by
  refine ⟨fun s t color h => ?_, fun s t i hp h => h.exec hp, fun s t hp h hn hstep => ?_⟩
  · rw [exec_fbClear (accepting_of_framebuffer rfl h)] at h
    cases h
    exact (noRedWithoutBlackBit_filled s color).of_eq rfl rfl rfl
  · rw [step_of_noReset hn] at hstep
    have hticked : NoRedWithoutBlackBit s.ticked :=
      h.of_eq (by rw [State.ticked_eq]) (by rw [State.ticked_eq]) (by rw [State.ticked_eq])
    exact hticked.advance hp.ticked hstep

end Sys2Proof.Machine
end

section
/-! PROOFS. 60_exceptions.md R232, R233: what sets `halted` (O36), and what ends it and `Faulted` (O43). A step
from a legal sequencer state is a block reset, going on after a wait, a host request or nothing. -/

namespace Sys2Proof.Machine

/-! ## Steps from a legal sequencer state -/

@[simp] theorem State.ticked_cfg (s : State) : s.ticked.cfg = s.cfg := by rw [State.ticked_eq]
@[simp] theorem State.ticked_fsm (s : State) : s.ticked.fsm = s.fsm := by rw [State.ticked_eq]
@[simp] theorem State.ticked_halted (s : State) : s.ticked.halted = s.halted := by
  rw [State.ticked_eq]
@[simp] theorem State.ticked_curOp (s : State) : s.ticked.curOp = s.curOp := by rw [State.ticked_eq]
@[simp] theorem State.ticked_requests (s : State) : s.ticked.requests = s.requests := by
  rw [State.ticked_eq]
@[simp] theorem State.ticked_events (s : State) : s.ticked.events = s.events := by
  rw [State.ticked_eq]; rfl
@[simp] theorem State.ticked_responses (s : State) : s.ticked.responses = s.responses := by
  rw [State.ticked_eq]

/-- Where no wire command is to be emitted alone, a step that is no block reset goes on with the operation in
progress, runs the operation of the next request, or does nothing, beside the countdown. -/
theorem SequencerOk.step_cases {s t : State} (hs : SequencerOk s) (hn : NoResetDue s)
    (h : step s = .next t) :
    (∃ op, s.curOp = some op ∧ resume op s.ticked = .next t) ∨
    (∃ request rest i, s.curOp = none ∧ s.requests = request :: rest ∧ s.halted = false ∧
      decodeRequest request = some i ∧ exec i { s.ticked with requests := rest } = .next t) ∨
    t = s.ticked := by
  rw [step_of_noReset hn] at h
  rcases advance_cases h with ⟨op, hop, -, hres⟩ | ⟨f, s', i, hf, hlive, hd, hexec⟩ | ⟨-, -, rfl⟩
  · exact .inl ⟨op, by simpa using hop, hres⟩
  · rcases nextFrame_cases hf with ⟨_, _, -, hslot, -, -⟩ | ⟨request, rest, hcur, hreq, rfl, rfl⟩
    · rw [hs.ticked.slot] at hslot; cases hslot
    · exact .inr (.inl ⟨request, rest, i, by simpa using hcur, by simpa using hreq,
        by simpa using hlive, hd, hexec⟩)
  · exact .inr (.inr rfl)

/-- An operation in progress neither failed nor aborted. -/
theorem SequencerPlace.curOp_eq_none {s : State} (h : SequencerPlace s)
    (hstopped : s.fsm = .faulted ∨ s.halted = true) : s.curOp = none := by
  cases h with
  | between op _ _ => exact op
  | initReset _ _ fsm live => simp [fsm, live] at hstopped
  | initEnd _ _ fsm live => simp [fsm, live] at hstopped
  | display _ _ fsm live => simp [fsm, live] at hstopped

/-! ## What sets `halted` -/

/-- A host operation that sets `halted` is a window out of order (60_exceptions.md R231, R232). -/
theorem exec_host_halted {i : Instr} {s t : State} (hc : s.cfg.Valid) (hw : i.isWire = false)
    (h : exec i s = .next t) (hlive : s.halted = false) (hhalted : t.halted = true) :
    ∃ x0 y0 x1 y1, i = .setRamWindow x0 y0 x1 y1 ∧
      (x1.toNat ≤ x0.toNat ∨ y1.toNat ≤ y0.toNat) := by
  have changed : t.halted ≠ s.halted := by simp [hlive, hhalted]
  rcases instr_kinds i with ⟨hi, -⟩ | ⟨hi, -⟩ | ⟨hi, -⟩
  · cases exec_driver_end hc hi h with
    | done _ ht => subst ht; exact absurd rfl changed
    | waitInit _ hr _ =>
      exact absurd (run_portOnly (s := s.started i) (by rw [hr]; rfl)).halted changed
    | waitDisplay _ hr _ =>
      exact absurd (run_portOnly (s := s.started i) (by rw [hr]; rfl)).halted changed
    | err k u hr ht =>
      subst ht
      exact absurd (run_portOnly (s := s.started i) (t := u) (by rw [hr]; rfl)).halted changed
    | abort x0 y0 x1 y1 hi hx _ => exact ⟨x0, y0, x1, y1, hi, hx⟩
  · rw [hw] at hi; cases hi
  · exact absurd (by rw [(exec_framebuffer_cases hi h).2.frame]) changed

/-- Settles O36: a block reset clears `halted`, going on after a wait and an idle step keep it, and of the
operations a request can hold only a window out of order sets it. -/
theorem onlyAMisorderedWindowAborts : Obligations.OnlyAMisorderedWindowAborts := by
  intro s t hc hs hlive hstep hhalted
  have changed : t.halted ≠ s.ticked.halted := by simp [hlive, hhalted]
  rcases step_cases hstep with ⟨u, later, -, rfl⟩ | ⟨hn, -⟩
  · cases hhalted
  rcases hs.step_cases hn hstep with
    ⟨op, hop, hres⟩ | ⟨request, rest, i, hcur, hreq, -, hd, hexec⟩ | rfl
  · obtain ⟨-, -, hkeeps, -⟩ :=
      resume_frame (by simpa using hc) hs.place.ticked (by simpa using hop) hres
    exact absurd hkeeps changed
  · obtain ⟨x0, y0, x1, y1, rfl, hx⟩ := exec_host_halted (by simpa using hc)
      (isWire_of_decodeRequest hd) hexec (by simpa using hlive) hhalted
    exact ⟨hcur, .host request, { s with requests := rest }, x0, y0, x1, y1,
      by simp [nextFrame, hcur, hreq], hd, hx⟩
  · exact absurd rfl changed

/-! ## What ends `halted` and `Faulted` -/

/-- Behind a failure only framebuffer operations run, and they leave `fsm` (60_exceptions.md R233). -/
theorem exec_host_faulted {i : Instr} {s t : State} (hw : i.isWire = false) (ha : Accepting s)
    (hf : s.fsm = .faulted) (h : exec i s = .next t) : t.fsm = .faulted := by
  rcases instr_kinds i with ⟨hi, -⟩ | ⟨hi, -⟩ | ⟨hi, -⟩
  · rw [exec_driver_of_faulted hi ha hf] at h; cases h
  · rw [hw] at hi; cases hi
  · rw [(exec_framebuffer_cases hi h).2.frame]; exact hf

/-- Settles O43: no operation is in progress in a block that failed or aborted, a halted one runs no request,
and a block reset writes the table of 10_state.md R35. -/
theorem onlyBlockResetRecovers : Obligations.OnlyBlockResetRecovers := by
  intro s t hs hstep
  refine ⟨fun hn hfault => ?fault, fun hn hhalted => ?halt, fun hc hdue => ?reset⟩
  case fault =>
    have hnone := hs.place.curOp_eq_none (.inl hfault)
    rcases hs.step_cases hn hstep with ⟨op, hop, -⟩ | ⟨_, _, i, -, -, hlive, hd, hexec⟩ | rfl
    · rw [hnone] at hop; cases hop
    · exact exec_host_faulted (isWire_of_decodeRequest hd) ⟨by simpa using hlive, by simpa using hnone⟩
        (by simpa using hfault) hexec
    · simpa using hfault
  case halt =>
    have hnone := hs.place.curOp_eq_none (.inr hhalted)
    rcases hs.step_cases hn hstep with ⟨op, hop, -⟩ | ⟨_, _, _, -, -, hlive, -⟩ | rfl
    · rw [hnone] at hop; cases hop
    · rw [hhalted] at hlive; cases hlive
    · simpa using hhalted
  case reset =>
    rcases step_cases hstep with ⟨u, later, -, rfl⟩ | ⟨hn, -⟩
    · exact ⟨initReady_blockReset (s := { s with resets := later }) hc u, rfl⟩
    · exact absurd hn hdue

end Sys2Proof.Machine
end

section
/-! PROOFS. 60_exceptions.md R234, R235: the order of the checks an arriving frame meets (O37), and the reasons
it can be refused with (O38). -/

namespace Sys2Proof.Machine

/-! ## The order of checks -/

/-- An admitted window out of order, with X operands that fit, aborts (60_exceptions.md R231). -/
theorem exec_misordered {s : State} {x0 y0 x1 y1 : U16} (ha : Accepting s) (hf : s.fsm = .ready)
    (hx0 : x0.toNat < 2048) (hx1 : x1.toNat < 2048)
    (hmis : x1.toNat ≤ x0.toNat ∨ y1.toNat ≤ y0.toNat) :
    exec (.setRamWindow x0 y0 x1 y1) s =
      .next (takeAbort (s.started (.setRamWindow x0 y0 x1 y1))) := by
  have hfits : ∀ x ∈ [x0, x1], fitsXByte x = true := by simp [fitsXByte, hx0, hx1]
  have hcheck : operandCheck s.cfg (.setRamWindow x0 y0 x1 y1) = none := checkX_of_fitsXByte hfits
  have hproc : driverProcedure s.cfg (.setRamWindow x0 y0 x1 y1) = setRamWindow s.cfg x0 y0 x1 y1 :=
    rfl
  rw [exec_eq_runDriver rfl, hcheck, runDriver_of_admitted (admitDriver_eq_none.mpr ⟨ha, .inl hf⟩),
    runOp, hproc, run_misordered _ (by omega)]
  rfl

/-- Settles O37: `halted` is asked before the encoding, `fsm` before the operands, and their widths before
the window's contract. -/
theorem checksComeInTheirOrder : Obligations.ChecksComeInTheirOrder := by
  intro s f hcur
  refine ⟨fun hhalted => if_pos hhalted, acceptFrame_of_reserved,
    fun i hlive hd hi => ⟨fun hf hne => ?beforeInit, fun hf => ?useAfterFault⟩,
    fun x0 y0 x1 y1 hlive hf hd => ⟨fun hwide => ?tooWide, fun hx0 hx1 hmis => ?abort⟩⟩
  all_goals rw [acceptFrame_of_decode hlive hd]
  case beforeInit =>
    refine exec_driver_of_admit_some hi ?_
    rw [admitDriver_of_accepting ⟨hlive, hcur⟩, hf, decide_eq_false hne]
    rfl
  case useAfterFault => exact exec_driver_of_faulted hi ⟨hlive, hcur⟩ hf
  case tooWide =>
    exact exec_driver_of_operandCheck_some rfl (admitDriver_eq_none.mpr ⟨⟨hlive, hcur⟩, .inl hf⟩)
      (checkX_pair_of_wide hwide)
  case abort => exact ⟨_, exec_misordered ⟨hlive, hcur⟩ hf hx0 hx1 hmis, rfl, rfl⟩

/-! ## The reasons -/

theorem checkX_eq_some {xs : List U16} {r : Refusal} (h : checkX xs = some r) :
    r = .operandTooWide ∧ ∃ x ∈ xs, 2048 ≤ x.toNat := by
  unfold checkX at h
  split at h
  · rename_i hany
    obtain ⟨x, hx, hwide⟩ := List.any_eq_true.mp hany
    cases h
    exact ⟨rfl, x, hx, of_decide_eq_true hwide⟩
  · cases h

theorem checkPlane_buffer_eq_some {c : Config} {buffer : List Byte} {r : Refusal}
    (h : checkPlane c (.buffer buffer) = some r) :
    r = .bufferLength ∧ buffer.length ≠ c.planeBytes := by
  by_cases hlen : buffer.length = c.planeBytes
  · rw [checkPlane_of_wellFormed (d := .buffer buffer) (decide_eq_true hlen)] at h
    cases h
  · rw [checkPlane_of_length_ne hlen] at h
    cases h
    exact ⟨rfl, hlen⟩

/-- The reasons of a driver operation's operand check (42_driver_ops.md R162, R163, R165, R166). -/
theorem operandCheck_driver_eq_some {c : Config} {i : Instr} {r : Refusal} (hi : i.isDriver = true)
    (h : operandCheck c i = some r) :
    (r = .operandTooWide ∧
      ((∃ x0 y0 x1 y1, i = .setRamWindow x0 y0 x1 y1 ∧ (2048 ≤ x0.toNat ∨ 2048 ≤ x1.toNat)) ∨
      ∃ x y, i = .setRamCursor x y ∧ 2048 ≤ x.toNat)) ∨
    (r = .bufferLength ∧ ∃ buffer, (i = .updateBwFrame buffer ∨ i = .updateRedFrame buffer) ∧
      buffer.length ≠ c.planeBytes) := by
  cases i with
  | setRamWindow x0 y0 x1 y1 =>
    obtain ⟨hr, x, hx, hwide⟩ := checkX_eq_some h
    refine .inl ⟨hr, .inl ⟨x0, y0, x1, y1, rfl, ?_⟩⟩
    rcases List.mem_pair.mp hx with rfl | rfl
    · exact .inl hwide
    · exact .inr hwide
  | setRamCursor x y =>
    obtain ⟨hr, x', hx, hwide⟩ := checkX_eq_some h
    obtain rfl := List.mem_singleton.mp hx
    exact .inl ⟨hr, .inr ⟨_, y, rfl, hwide⟩⟩
  | updateBwFrame buffer =>
    obtain ⟨hr, hlen⟩ := checkPlane_buffer_eq_some h
    exact .inr ⟨hr, buffer, .inl rfl, hlen⟩
  | updateRedFrame buffer =>
    obtain ⟨hr, hlen⟩ := checkPlane_buffer_eq_some h
    exact .inr ⟨hr, buffer, .inr rfl, hlen⟩
  | init | selectFullFrame | clearBwFrame | clearRedFrame | displayFrame => cases h
  | _ => cases hi

/-- The end of a run is no refusal. -/
theorem finish_ne_refused {atEnd : State → State} {e : RunEnd} {r : Refusal} :
    finish atEnd e ≠ .refused r := by
  cases e <;> simp [finish]

/-- Between operations the table of 42_driver_ops.md R160 has two reasons. -/
theorem admitFsm_eq_some {isInit : Bool} {f : Fsm} {r : Refusal} (hp : f.persistent = true)
    (h : admitFsm isInit f = some r) :
    (r = .beforeInit ∧ isInit = false ∧ f = .uninitialized) ∨
      (r = .useAfterFault ∧ f = .faulted) := by
  cases f with
  | uninitialized =>
    cases isInit with
    | true => cases h
    | false => cases h; exact .inl ⟨rfl, rfl, rfl⟩
  | ready => cases h
  | faulted => cases h; exact .inr ⟨rfl, rfl⟩
  | resetting | softwareReset | configuring => cases hp

/-- A driver operation issued between operations is refused by the table of 42_driver_ops.md R160 or by its
operands. -/
theorem exec_driver_refused {i : Instr} {s : State} {r : Refusal} (hi : i.isDriver = true)
    (ha : Accepting s) (hp : s.fsm.persistent = true) (h : exec i s = .refused r) :
    (r = .beforeInit ∧ i ≠ .init ∧ s.fsm = .uninitialized) ∨
    (r = .useAfterFault ∧ s.fsm = .faulted) ∨ operandCheck s.cfg i = some r := by
  cases hadmit : admitDriver (decide (i = .init)) s with
  | some r' =>
    rw [exec_driver_of_admit_some hi hadmit] at h
    cases h
    rw [admitDriver_of_accepting ha] at hadmit
    rcases admitFsm_eq_some hp hadmit with ⟨hr, hne, hf⟩ | hfaulted
    · exact .inl ⟨hr, of_decide_eq_false hne, hf⟩
    · exact .inr (.inl hfaulted)
  | none =>
    cases hcheck : operandCheck s.cfg i with
    | some r' =>
      rw [exec_driver_of_operandCheck_some hi hadmit hcheck] at h
      cases h
      exact .inr (.inr rfl)
    | none =>
      rw [exec_eq_runDriver hi, hcheck, runDriver_of_admitted hadmit] at h
      exact absurd h finish_ne_refused

/-- Of the framebuffer operations only `FB_SET_PIXEL` is refused where operations are accepted. -/
theorem exec_framebuffer_refused {i : Instr} {s : State} {r : Refusal} (hi : i.isFramebuffer = true)
    (ha : Accepting s) (h : exec i s = .refused r) :
    r = .pixelOutOfRange ∧
      ∃ x y color, i = .fbSetPixel x y color ∧ ¬ InRange s.cfg s.rot x.toNat y.toNat := by
  cases i with
  | fbSetPixel x y color =>
    by_cases hin : InRange s.cfg s.rot x.toNat y.toNat
    · simp only [exec, execFbSetPixel] at h
      rw [runFramebuffer_of_accepting ha, if_pos hin] at h
      split at h <;> cases h
    · rw [exec_fbSetPixel_of_not_inRange ha hin] at h
      cases h
      exact ⟨rfl, x, y, color, rfl, hin⟩
  | fbClear color => rw [exec_fbClear ha] at h; cases h
  | fbSetRotation r => rw [exec_fbSetRotation ha] at h; cases h
  | fbRotation => rw [exec_fbRotation ha] at h; cases h
  | fbSize => rw [exec_fbSize ha] at h; cases h
  | fbBlackData => rw [exec_fbBlackData ha] at h; cases h
  | fbRedData => rw [exec_fbRedData ha] at h; cases h
  | _ => cases hi

/-- A wire command that a frame decodes to is one its bytes can carry. -/
theorem wellFormed_of_decodeFrame {c : Config} {f : Frame} {i : Instr} (hi : i.isWire = true)
    (h : decodeFrame c f = some i) : i.wellFormed c = true := by
  cases f with
  | host bytes => exact absurd hi (by rw [isWire_of_decodeRequest h]; simp)
  | wire bytes =>
    obtain ⟨-, -, hw, -⟩ := decodeWire_eq_some h
    exact hw

/-- Settles O38: by the kind of the instruction the frame decodes to. -/
theorem everyRefusalHasItsReason : Obligations.EveryRefusalHasItsReason := by
  intro s f r hcur hp h
  cases hlive : s.halted with
  | true =>
    rw [acceptFrame, if_pos hlive] at h
    cases h
    exact .inl ⟨rfl, rfl⟩
  | false =>
    have ha : Accepting s := ⟨hlive, hcur⟩
    refine .inr ?_
    cases hd : decodeFrame s.cfg f with
    | none =>
      rw [acceptFrame_of_reserved hlive hd] at h
      cases h
      exact .inl ⟨rfl, rfl⟩
    | some i =>
      rw [acceptFrame_of_decode hlive hd] at h
      refine .inr ⟨i, rfl, ?_⟩
      rcases instr_kinds i with ⟨hi, -⟩ | ⟨hi, -⟩ | ⟨hi, -⟩
      · rcases exec_driver_refused hi ha hp h with ⟨rfl, hne, hf⟩ | ⟨rfl, hf⟩ | hcheck
        · exact .inl ⟨rfl, hi, hne, hf⟩
        · exact .inr (.inl ⟨rfl, hi, hf⟩)
        · rcases operandCheck_driver_eq_some hi hcheck with hwide | hlen
          · exact .inr (.inr (.inl hwide))
          · exact .inr (.inr (.inr (.inl hlen)))
      · rw [exec_wire_between hi (wellFormed_of_decodeFrame hi hd) hlive hcur] at h
        cases h
        exact .inr (.inr (.inr (.inr (.inr ⟨rfl, hi⟩))))
      · exact .inr (.inr (.inr (.inr (.inl (exec_framebuffer_refused hi ha h)))))

end Sys2Proof.Machine
end

section
/-! PROOFS. 60_exceptions.md R228, 40_transport.md R126: an operation that fails is the fault-free operation cut
at the failing primitive (O39). -/

namespace Sys2Proof.Machine

/-! ## Runs that fail -/

theorem State.noTransportFault_quiet (s : State) : NoTransportFault s.quiet :=
  ⟨fun _ h => absurd h List.not_mem_nil, rfl⟩

theorem State.idleFor_quiet (s : State) (n : Nat) : IdleFor n s.quiet := by
  intro k _
  simp [State.quiet, Feed.drop, Feed.head]

/-- The failing form of a primitive's event, as `failsAs` says it (00_scope.md R12). -/
theorem Prim.failsAs_event {p : Prim} {kind : ErrorKind} {failed : Event} (hr : p.raises kind)
    (hf : p.failEvent kind = some failed) : failsAs p.event kind = some failed := by
  cases p with
  | setRst level | setDc level => cases hr; exact hf
  | xfer bytes => rcases hr with rfl | rfl <;> exact hf
  | delay ms | readBusy => cases hf

/-- A run that fails does so at a primitive, with the events of those before it and the failing one. -/
theorem run_err_split {actions : List Action} {s u : State} {kind : ErrorKind}
    (h : run actions s = .err kind u) :
    ∃ pre p post failed, actions = pre ++ .prim p :: post ∧ failsAs p.event kind = some failed ∧
      u.events = s.events ++ okEvents pre ++ [failed] := by
  have hends := run_endsAt actions s
  rw [h] at hends
  cases hends with
  | err pre post p _ _ hsplit hp =>
    obtain ⟨hraises, failed, hfailed, htrace, -⟩ := perform_err_inv hp
    refine ⟨pre, p, post, failed, hsplit, p.failsAs_event hraises hfailed, ?_⟩
    rw [← State.afterOk_events, State.events, htrace, List.reverse_cons]
    rfl

/-- An operation that goes on from `s` and fails is cut from what the same actions do when nothing fails. -/
theorem cutAtFailure_of_run {atEnd : State → State} {actions : List Action} {s u : State}
    {op : Option Instr} {n : Nat} {resets : List ResetInput} {kind : ErrorKind}
    (hend : ∀ v, (atEnd v).events = v.events) (hs : Sound actions)
    (hr : run actions { s with curOp := op, useq := n, resets := resets } = .err kind u) :
    CutAtFailure (finish atEnd
      (run actions { s with curOp := op, useq := n, resets := resets }.quiet)) s (takeErr kind u) := by
  obtain ⟨pre, p, post, failed, hsplit, hfails, hevents⟩ := run_err_split hr
  have hport := run_portOnly (t := u) (by rw [hr]; rfl)
  rw [run_ok hs (State.noTransportFault_quiet _) (State.idleFor_quiet _ _)]
  refine ⟨_, okEvents pre, p.event, okEvents post, kind, failed, rfl, ?whole, hfails, hevents, ?frame⟩
  case whole =>
    rw [hend, State.afterOk_events, hsplit, okEvents_append, ← List.append_assoc]
    rfl
  case frame =>
    obtain ⟨hcfg, hhalted, hrot, hinv, hblack, hred, -, hresp, hreq, hslot, -⟩ := hport
    simp [takeErr, State.ended, hcfg, hhalted, hrot, hinv, hblack, hred, hresp, hreq, hslot]

/-! ## What an operation runs -/

theorem exec_driver_admitted {i : Instr} {s t : State} (hi : i.isDriver = true)
    (h : exec i s = .next t) :
    admitDriver (decide (i = .init)) s = none ∧ operandCheck s.cfg i = none := by
  rw [exec_eq_runDriver hi] at h
  obtain ⟨hadmit, hcheck, -⟩ := runDriver_cases h
  exact ⟨hadmit, hcheck⟩

theorem exec_driver_eq_run {i : Instr} {s : State} (hi : i.isDriver = true)
    (hadmit : admitDriver (decide (i = .init)) s = none) (hcheck : operandCheck s.cfg i = none) :
    exec i s = finish (respond []) (run (driverProcedure s.cfg i) (s.started i)) := by
  rw [exec_eq_runDriver hi, hcheck, runDriver_of_admitted hadmit, runOp]

theorem exec_wire_eq_run {i : Instr} {s : State} {actions : List Action} (hi : i.isWire = true)
    (hlive : s.halted = false) (hcheck : operandCheck s.cfg i = none)
    (hnext : nextEmission (emission s.cfg i) s = some actions) :
    exec i s = finish id (run actions s) := by
  rw [exec_eq_runWire hi, hcheck, runWire, hlive, hnext]
  rfl

/-- A step that goes on after a wait runs what is left of the procedure, beside the countdown. -/
theorem SequencerOk.step_eq_run {s : State} {op : Instr} (hs : SequencerOk s)
    (hop : s.curOp = some op) (hn : NoResetDue s) : step s =
      finish (respond []) (run (s.rest op) { s with resets := s.ticked.resets }) := by
  rw [step_of_sequencerOk hs hop hn, resume, State.ticked_eq]
  rfl

/-- What the environment will answer does not decide where the sequencer stands or what it does next. -/
theorem SequencerOk.step_quiet_eq_run {s : State} {op : Instr} (hs : SequencerOk s)
    (hop : s.curOp = some op) (hn : NoResetDue s) : step s.quiet =
      finish (respond []) (run (s.rest op) { s with resets := s.ticked.resets }.quiet) := by
  have hquiet : SequencerOk s.quiet := ⟨hs.place.of_eq rfl rfl rfl rfl, hs.slot⟩
  have hticked : s.quiet.ticked.resets = s.ticked.resets := by
    simp only [State.ticked, State.quiet]
    split <;> rfl
  rw [hquiet.step_eq_run hop hn, hticked]
  rfl

/-! ## A failure is precise -/

theorem lastFsm_eq_or_mem (actions : List Action) (f : Fsm) :
    lastFsm actions f = f ∨ .fsm (lastFsm actions f) ∈ actions := by
  induction actions generalizing f with
  | nil => exact .inl rfl
  | cons a rest ih =>
    cases a with
    | fsm g =>
      refine .inr ?_
      rcases ih g with hsame | hmem
      · rw [show lastFsm (.fsm g :: rest) f = g from hsame]
        exact List.mem_cons_self
      · exact List.mem_cons_of_mem _ hmem
    | prim p | contract b => exact (ih f).imp_right (List.mem_cons_of_mem _)

/-- `fsm` at the end of a run is what it was, or what an action of the run made it. -/
theorem run_fsm_eq_or_mem {actions : List Action} {s t : State}
    (h : (run actions s).state? = some t) : t.fsm = s.fsm ∨ .fsm t.fsm ∈ actions := by
  have upto : ∀ pre post, actions = pre ++ post →
      (s.afterOk pre).fsm = s.fsm ∨ .fsm (s.afterOk pre).fsm ∈ actions := fun pre post hsplit =>
    (lastFsm_eq_or_mem pre s.fsm).imp_right fun hm => hsplit ▸ List.mem_append_left post hm
  have hends := run_endsAt actions s
  generalize run actions s = e at hends h
  cases hends with
  | done => cases h; exact upto actions [] (List.append_nil _).symm
  | waiting pre post hsplit _ => cases h; exact upto pre _ hsplit
  | err pre post p k u hsplit hp =>
    cases h
    rw [(perform_portOnly (t := t) (by rw [hp]; rfl)).2]
    exact upto pre _ hsplit
  | abort pre post hsplit => cases h; exact upto pre _ hsplit
  | bad => cases h

/-- No procedure sets `Faulted` itself: that is the error entry's (60_exceptions.md R228). -/
theorem faulted_not_mem_driverProcedure (c : Config) (i : Instr) :
    .fsm .faulted ∉ driverProcedure c i := by
  by_cases hinit : i = .init
  · subst hinit
    have hfull : .fsm .faulted ∉ selectFullFrame c :=
      fsm_not_mem_driverProcedure (i := .selectFullFrame) (by simp) .faulted
    simp [driverProcedure, initProcedure, hfull, resetPulse, emitSwReset, waitUntilIdle,
      emitDriverControl, emitDataMode, emitWriteBorder, emitTempControl, sendCommandWithData,
      sendCommand, sendData]
  · exact fsm_not_mem_driverProcedure hinit .faulted

theorem faulted_not_mem_rest (s : State) (op : Instr) : .fsm .faulted ∉ s.rest op :=
  fun hm => faulted_not_mem_driverProcedure s.cfg op (mem_of_mem_skipPrims hm)

/-- An operation that leaves `fsm` at `Faulted`, where it was not, failed. -/
theorem Ends.err_of_faulted {atEnd : State → State} {actions : List Action} {s t : State}
    (h : Ends atEnd actions s t) (hend : EndsOnly atEnd) (hn : .fsm .faulted ∉ actions)
    (hs : s.fsm ≠ .faulted) (ht : t.fsm = .faulted) :
    ∃ kind u, run actions s = .err kind u ∧ t = takeErr kind u := by
  have hrun : ∀ u, (run actions s).state? = some u → u.fsm ≠ .faulted := by
    intro u hu hf
    have hmoves := run_fsm_eq_or_mem hu
    rw [hf] at hmoves
    exact hmoves.elim (fun h => hs h.symm) hn
  cases h with
  | done hr htt =>
    rw [htt, hend.fsm] at ht
    exact absurd ht (hrun _ (by rw [hr]; rfl))
  | waiting hr => exact absurd ht (hrun t (by rw [hr]; rfl))
  | err kind u hr htt => exact ⟨kind, u, hr, htt⟩
  | abort u hr htt =>
    subst htt
    exact absurd ht (hrun u (by rw [hr]; rfl))

/-- An operation that got as far as a failure had its window in order. -/
theorem inOrder_of_run_err {c : Config} {i : Instr} {s u : State} {kind : ErrorKind}
    (h : run (driverProcedure c i) s = .err kind u) : inOrder i := by
  by_contra horder
  obtain ⟨x0, y0, x1, y1, rfl, -⟩ := not_inOrder_cases horder
  have habort : run (driverProcedure c (.setRamWindow x0 y0 x1 y1)) s = .abort s :=
    run_misordered s horder
  rw [habort] at h
  cases h

/-- A run that got as far as a failure passed the checks it starts with. -/
theorem NoPrims.sound_of_run_err {checks rest : List Action} (hn : NoPrims checks) {s u : State}
    {kind : ErrorKind} (h : run (checks ++ rest) s = .err kind u) : Sound checks := by
  induction checks generalizing s with
  | nil => trivial
  | cons a checks ih =>
    cases a with
    | prim p => exact absurd List.mem_cons_self (hn p)
    | fsm f => exact ih hn.tail h
    | contract b =>
      cases b with
      | true => exact ⟨rfl, ih hn.tail h⟩
      | false => cases h

theorem exec_cutAtFailure {i : Instr} {s t : State} (hc : s.cfg.Valid) (hlive : s.fsm ≠ .faulted)
    (h : exec i s = .next t) (hf : t.fsm = .faulted) : CutAtFailure (exec i s.quiet) s t := by
  rcases instr_kinds i with ⟨hi, -⟩ | ⟨hi, -⟩ | ⟨hi, -⟩
  · obtain ⟨hadmit, hcheck⟩ := exec_driver_admitted hi h
    obtain ⟨-, -, he, -⟩ := exec_driver_cases hi h
    obtain ⟨kind, u, hr, rfl⟩ := he.err_of_faulted endsOnly_respond
      (faulted_not_mem_driverProcedure s.cfg i) hlive hf
    rw [exec_driver_eq_run (s := s.quiet) hi hadmit hcheck]
    exact cutAtFailure_of_run (respond_events [])
      (Sound_driverProcedure hc hcheck (inOrder_of_run_err hr)) hr
  · obtain ⟨hh, hcheck, actions, hnext, he⟩ := exec_wire_cases hi h
    obtain ⟨op, checks, rest, -, -, hrest, rfl, hn⟩ := nextEmission_cases hnext
    obtain ⟨kind, u, hr, rfl⟩ := he.err_of_faulted endsOnly_id
      (fun hm => faulted_not_mem_rest s op (hrest ▸ List.mem_append_left rest hm)) hlive hf
    rw [exec_wire_eq_run (s := s.quiet) hi hh hcheck hnext]
    exact cutAtFailure_of_run (fun _ => rfl)
      ((Sound_append _ _).mpr ⟨hn.sound_of_run_err hr, Sound_emission hc hcheck⟩) hr
  · exact absurd (by rw [← hf, (exec_framebuffer_cases hi h).2.frame]) hlive

/-- Settles O39: what fails is a run of actions, and the same run without a failure goes on behind the
failing primitive. -/
theorem failureIsPrecise : Obligations.FailureIsPrecise := by
  refine ⟨fun s t i => exec_cutAtFailure, fun s t op hc hs hop hn hstep hf => ?_⟩
  have hlive : s.fsm ≠ .faulted := fun hfault => by
    rw [hs.place.curOp_eq_none (.inl hfault)] at hop
    cases hop
  rw [hs.step_eq_run hop hn] at hstep
  obtain ⟨kind, u, hr, rfl⟩ := (finish_cases hstep).err_of_faulted endsOnly_respond
    (faulted_not_mem_rest s op) hlive hf
  rw [hs.step_quiet_eq_run hop hn]
  exact cutAtFailure_of_run (respond_events []) (Sound_rest hc hs.place hop) hr

end Sys2Proof.Machine
end

section
/-! PROOFS. 60_exceptions.md R221, R222, 40_transport.md R126: a driver operation, a wire command and going on
after a wait can fail at every primitive that the environment answers (O40), `INIT` among them (O41). -/

namespace Sys2Proof.Machine

/-! ## Where an operation fails -/

/-- An operation's end has the events of its run. -/
theorem exists_state_of_finish {atEnd : State → State} (hend : ∀ v, (atEnd v).events = v.events)
    {e : RunEnd} {t : State} (h : finish atEnd e = .next t) :
    ∃ r, e.state? = some r ∧ t.events = r.events := by
  cases e with
  | done u => cases h; exact ⟨u, rfl, hend u⟩
  | waiting u => cases h; exact ⟨t, rfl, rfl⟩
  | err kind u => cases h; exact ⟨u, rfl, rfl⟩
  | abort u => cases h; exact ⟨u, rfl, rfl⟩
  | bad f => cases h

theorem sampleCount_wire {i : Instr} (hi : i.isWire = true) (c : Config) {checks : List Action}
    (hn : NoPrims checks) : sampleCount (checks ++ emission c i) = 0 := by
  obtain ⟨b, ps, hps, hsend⟩ := emission_eq hi c
  obtain ⟨-, -, hchecks, -, -⟩ := checks_pieces hn
  obtain ⟨-, -, hemission, -, -⟩ := sends_pieces (ps := .setDc .cmd :: .xfer [b] :: ps)
    (by simpa [Prim.sends] using hsend)
  rw [sampleCount_append, hchecks, hps, hemission]

/-- What is left after a wait samples BUSY at most twice (42_driver_ops.md R161). -/
theorem SequencerPlace.sampleCount_rest_le {s : State} {op : Instr} (h : SequencerPlace s)
    (hop : s.curOp = some op) : sampleCount (s.rest op) ≤ 2 := by
  rcases h.rest hop with ⟨-, -, -, -, hr⟩ | ⟨-, -, -, -, hr⟩ | ⟨-, -, -, -, hr⟩ <;> rw [hr] <;>
    simp [sampleCount]

section
variable {atEnd : State → State} {actions : List Action} {s t₀ : State} {op : Option Instr} {n : Nat}
  {resets : List ResetInput} {before after : List Event} {e : Event} {f : PortFault}

/-- An operation that goes on from `s` fails where the environment says, if the same actions get there when
nothing fails. -/
theorem run_failedAt {r : State}
    (hr : (run actions { s with curOp := op, useq := n, resets := resets }.quiet).state? = some r)
    (hevents : r.events = s.events ++ before ++ e :: after) (he : e.answered = true)
    (hok : OkFor (before.countP Event.answered) s)
    (hf : FailsAfter (before.countP Event.answered) f s) (hidle : IdleFor (sampleCount actions) s) :
    ∃ kind u, run actions { s with curOp := op, useq := n, resets := resets } = .err kind u ∧
      FailedAt before e f s (takeErr kind u) := by
  obtain ⟨kind, failed, u, hrun, hfails, hxfer, hu, hresp⟩ :=
    run_fails_at (s := { s with curOp := op, useq := n, resets := resets })
      (State.noTransportFault_quiet _) (State.idleFor_quiet _ _) hidle hr hevents he hok hf
  refine ⟨kind, u, hrun, kind, failed, hfails, hxfer, hu, rfl, rfl, ?_⟩
  rw [takeErr_responses, hresp]

/-- An operation that goes on from `s` ends where the environment fails it. -/
theorem finish_failedAt (hend : ∀ v, (atEnd v).events = v.events)
    (hquiet : finish atEnd
      (run actions { s with curOp := op, useq := n, resets := resets }.quiet) = .next t₀)
    (hevents : t₀.events = s.events ++ before ++ e :: after) (he : e.answered = true)
    (hok : OkFor (before.countP Event.answered) s)
    (hf : FailsAfter (before.countP Event.answered) f s) (hidle : IdleFor (sampleCount actions) s) :
    ∃ t, finish atEnd (run actions { s with curOp := op, useq := n, resets := resets }) = .next t ∧
      FailedAt before e f s t := by
  obtain ⟨r, hr, hre⟩ := exists_state_of_finish hend hquiet
  obtain ⟨kind, u, hrun, hfailed⟩ := run_failedAt hr (hre ▸ hevents) he hok hf hidle
  exact ⟨takeErr kind u, by rw [hrun]; rfl, hfailed⟩

theorem exec_failedAt {i : Instr} (hi : i.isDriver = true ∨ i.isWire = true)
    (hquiet : exec i s.quiet = .next t₀)
    (hevents : t₀.events = s.events ++ before ++ e :: after) (he : e.answered = true)
    (hok : OkFor (before.countP Event.answered) s)
    (hf : FailsAfter (before.countP Event.answered) f s) (hidle : IdleFor 2 s) :
    ∃ t, exec i s = .next t ∧ FailedAt before e f s t := by
  rcases hi with hi | hi
  · obtain ⟨hadmit, hcheck⟩ := exec_driver_admitted hi hquiet
    rw [exec_driver_eq_run hi hadmit hcheck] at hquiet
    rw [exec_driver_eq_run (s := s) hi hadmit hcheck]
    exact finish_failedAt (respond_events []) hquiet hevents he hok hf
      (hidle.mono (sampleCount_driverProcedure_le s.cfg i))
  · obtain ⟨hlive, hcheck, actions, hnext, -⟩ := exec_wire_cases hi hquiet
    obtain ⟨op, checks, rest, -, -, -, rfl, hn⟩ := nextEmission_cases hnext
    rw [exec_wire_eq_run hi hlive hcheck hnext] at hquiet
    rw [exec_wire_eq_run (s := s) hi hlive hcheck hnext]
    exact finish_failedAt (fun _ => rfl) hquiet hevents he hok hf
      (hidle.mono (by rw [sampleCount_wire hi _ hn]; omega))

end

/-! ## The first two answers of a driver operation -/

/-- The procedure sends this command byte before anything else, behind checks that hold. -/
def StartsWith (actions : List Action) (b : Byte) : Prop :=
  ∃ rest, ∀ s, run actions s = run (sendCommand b ++ rest) s

theorem startsWith_sendCommand (b : Byte) (rest : List Action) :
    StartsWith (sendCommand b ++ rest) b := ⟨rest, fun _ => rfl⟩

/-- A window in order goes on with `SET_RAMXPOS`, and so does what it is the first part of. -/
theorem startsWith_setRamWindow {c : Config} {x0 y0 x1 y1 : U16}
    (h : Sound (setRamWindow c x0 y0 x1 y1)) (tail : List Action) :
    StartsWith (setRamWindow c x0 y0 x1 y1 ++ tail) c.opcodes.setRamXPos := by
  obtain ⟨hholds, -⟩ := h
  refine ⟨sendData [xByte x0, xByte x1] ++ (emitSetRamYPos c y0 y1 ++ tail), fun s => ?_⟩
  simp only [setRamWindow, List.cons_append, List.nil_append, run, hholds, if_true]
  simp [emitSetRamXPos, sendCommandWithData]

theorem startsWith_selectFullFrame {c : Config} (hc : c.Valid) (tail : List Action) :
    StartsWith (selectFullFrame c ++ tail) c.opcodes.setRamXPos := by
  have hwindow := ((Sound_append _ _).mp (Sound_selectFullFrame hc)).1
  rw [selectFullFrame, List.append_assoc]
  exact startsWith_setRamWindow hwindow _

/-- Every driver operation but `INIT` begins with its first wire command (42_driver_ops.md R162 to R169). -/
theorem startsWith_driverProcedure {c : Config} {i : Instr} (hc : c.Valid) (hi : i.isDriver = true)
    (hne : i ≠ .init) (hops : operandsOk c i) :
    ∃ command more b operands, wireCommands c i = command :: more ∧
      command.encode c = b :: operands ∧ StartsWith (driverProcedure c i) b := by
  cases i with
  | init => exact absurd rfl hne
  | setRamWindow x0 y0 x1 y1 =>
    obtain ⟨-, -, hx, hy⟩ := hops
    refine ⟨_, _, _, _, rfl, rfl, ?_⟩
    rw [driverProcedure, ← List.append_nil (setRamWindow ..)]
    exact startsWith_setRamWindow ((Sound_setRamWindow ..).mpr ⟨hx, hy⟩) []
  | setRamCursor x y => exact ⟨_, _, _, _, rfl, rfl, startsWith_sendCommand _ _⟩
  | selectFullFrame =>
    refine ⟨_, _, _, _, rfl, rfl, ?_⟩
    rw [driverProcedure, ← List.append_nil (selectFullFrame c)]
    exact startsWith_selectFullFrame hc []
  | updateBwFrame buffer | updateRedFrame buffer | clearBwFrame | clearRedFrame =>
    exact ⟨_, _, _, _, rfl, rfl, startsWith_selectFullFrame hc _⟩
  | displayFrame => exact ⟨_, _, _, _, rfl, rfl, startsWith_sendCommand _ _⟩
  | _ => cases hi

theorem XferFault.kind_code (x : XferFault) :
    x.kind.code = if x = .bus then 0x02 else 0x04 := by
  cases x <;> rfl

/-- A driver operation fails at its first answer, the level of DC, or at its second, the command byte. -/
theorem exec_driver_fails_at_start {s : State} {i : Instr} {f : PortFault} (hready : DriverReady s)
    (hi : i.isDriver = true) (hne : i ≠ .init) (hops : operandsOk s.cfg i) :
    (FailsAfter 0 f s → exec i s = .next { s with
      fsm := .faulted, useq := 0, pinDc := f.dcAfter, portFeed := s.portFeed.drop 1,
      trace := .dcFail .cmd :: s.trace, responses := s.responses ++ [[0x03]] }) ∧
    (OkFor 1 s → FailsAfter 1 f s → ∃ command more b operands,
      wireCommands s.cfg i = command :: more ∧ command.encode s.cfg = b :: operands ∧
      exec i s = .next { s with
        fsm := .faulted, useq := 0, pinDc := .cmd, portFeed := s.portFeed.drop 2,
        trace := .xferFail [b] f.xfer.kind :: .dc .cmd :: s.trace,
        responses := s.responses ++ [[if f.xfer = .bus then 0x02 else 0x04]] }) := by
  obtain ⟨hcheck, -⟩ := operandCheck_of_operandsOk hi hops
  obtain ⟨command, more, b, operands, hcommands, hencode, rest, hrun⟩ :=
    startsWith_driverProcedure hready.valid hi hne hops
  obtain ⟨-, hpin, hbyte⟩ := run_setDc_xfer (s.started i) .cmd (List.cons_ne_nil b [])
  have hexec : exec i s =
      finish (respond []) ((run (sendCommand b) (s.started i)).andThen rest) := by
    rw [exec_driver_eq_run hi (hready.admitDriver _) hcheck, hrun, run_append]
  have hidle : s.curOp = none := hready.accepting.2
  refine ⟨fun hf => ?_, fun hok hf => ⟨command, more, b, operands, hcommands, hencode, ?_⟩⟩
  · rw [hexec, sendCommand, hpin f hf]
    simp [RunEnd.andThen, finish, takeErr, State.ended, State.started, hidle, ErrorKind.code]
  · rw [hexec, sendCommand, hbyte f hok hf]
    simp [RunEnd.andThen, finish, takeErr, State.ended, State.started, hidle, f.xfer.kind_code]

/-- Settles O40: what fails is a run of actions, which the environment's first failure ends where it is. -/
theorem driverOperationsCanFail : Obligations.DriverOperationsCanFail := by
  refine ⟨fun s t₀ i f before after e hi hquiet hevents he hok hf hidle =>
      exec_failedAt hi hquiet hevents he hok hf hidle,
    fun s t₀ op f before after e hs hop hn hquiet hevents he hok hf hidle => ?_,
    fun s i f => exec_driver_fails_at_start⟩
  rw [hs.step_quiet_eq_run hop hn] at hquiet
  rw [hs.step_eq_run hop hn]
  exact finish_failedAt (respond_events []) hquiet hevents he hok hf
    (hidle.mono (hs.place.sampleCount_rest_le hop))

/-! ## `INIT` -/

/-- `INIT` fails before its first wait, whatever the panel would say there. -/
theorem exec_init_failedAt {s : State} {before after : List Event} {e : Event} {f : PortFault}
    (hready : InitReady s) (hevents : okEvents (initHead s.cfg) = before ++ e :: after)
    (he : e.answered = true) (hok : OkFor (before.countP Event.answered) s)
    (hf : FailsAfter (before.countP Event.answered) f s) :
    ∃ t, exec .init s = .next t ∧ FailedAt before e f s t := by
  have hquiet : run (initHead s.cfg) (s.started .init).quiet =
      .done ((s.started .init).quiet.afterOk (initHead s.cfg)) :=
    run_ok (by simp [initHead, Sound]) (State.noTransportFault_quiet _) (State.idleFor_quiet _ _)
  obtain ⟨kind, u, hrun, hfailed⟩ := run_failedAt (s := s) (op := some .init) (n := 0)
    (resets := s.resets) (congrArg RunEnd.state? hquiet)
    (by rw [State.afterOk_events, hevents, List.append_assoc]; rfl) he hok hf (by simp)
  refine ⟨takeErr kind u, ?_, hfailed⟩
  rw [exec_driver_eq_run (i := .init) rfl hready.admitDriver rfl, driverProcedure, initProcedure_eq,
    run_append]
  rw [show run (initHead s.cfg) (s.started .init) = .err kind u from hrun]
  rfl

section
variable {before : List Event} {f : PortFault} {s t : State}

/-- A failed write of RST raises `RSError` (60_exceptions.md R221). -/
theorem FailedAt.rst {level : Level} (h : FailedAt before (.rst level) f s t) :
    t.fsm = .faulted ∧ t.responses = s.responses ++ [[0x05]] ∧
      t.events = s.events ++ (before ++ [.rstFail level]) := by
  obtain ⟨kind, failed, hfails, -, hevents, hfsm, -, hresp⟩ := h
  cases kind <;> cases hfails
  exact ⟨hfsm, hresp, by rw [hevents, List.append_assoc]⟩

/-- A failed write of DC raises `DCError`. -/
theorem FailedAt.dc {level : DcLevel} (h : FailedAt before (.dc level) f s t) :
    t.fsm = .faulted ∧ t.responses = s.responses ++ [[0x03]] ∧
      t.events = s.events ++ (before ++ [.dcFail level]) := by
  obtain ⟨kind, failed, hfails, -, hevents, hfsm, -, hresp⟩ := h
  cases kind <;> cases hfails
  exact ⟨hfsm, hresp, by rw [hevents, List.append_assoc]⟩

/-- A failed transfer raises the error that the environment says. -/
theorem FailedAt.xfer {bytes : List Byte} (h : FailedAt before (.xfer bytes) f s t) :
    t.fsm = .faulted ∧ t.responses = s.responses ++ [[if f.xfer = .bus then 0x02 else 0x04]] ∧
      t.events = s.events ++ (before ++ [.xferFail bytes f.xfer.kind]) := by
  obtain ⟨kind, failed, hfails, hkind, hevents, hfsm, -, hresp⟩ := h
  obtain rfl := hkind bytes rfl
  have hfailed : failed = .xferFail bytes f.xfer.kind := by
    cases hx : f.xfer <;> rw [hx] at hfails <;> cases hfails <;> rfl
  exact ⟨hfsm, by rw [hresp, f.xfer.kind_code], by rw [hevents, hfailed, List.append_assoc]⟩

end

/-- Settles O41: the first four answers `INIT` takes, before it samples BUSY. -/
theorem initCanFail : Obligations.InitCanFail := by
  intro s f hready
  have hhead : okEvents (initHead s.cfg) = [.rst .low, .dly s.cfg.resetHoldMs, .rst .high,
      .dly s.cfg.resetHoldMs, .dc .cmd, .xfer [s.cfg.opcodes.swReset]] := rfl
  refine ⟨fun hf => ?_, fun hok hf => ?_, fun hok hf => ?_, fun hok hf => ?_⟩
  · obtain ⟨t, ht, hfailed⟩ := exec_init_failedAt (before := []) hready hhead rfl
      (fun k hk => absurd hk k.not_lt_zero) hf
    exact ⟨t, ht, hfailed.rst⟩
  · obtain ⟨t, ht, hfailed⟩ := exec_init_failedAt
      (before := [.rst .low, .dly s.cfg.resetHoldMs]) hready hhead rfl hok hf
    exact ⟨t, ht, hfailed.rst⟩
  · obtain ⟨t, ht, hfailed⟩ := exec_init_failedAt
      (before := [.rst .low, .dly s.cfg.resetHoldMs, .rst .high, .dly s.cfg.resetHoldMs])
      hready hhead rfl hok hf
    exact ⟨t, ht, hfailed.dc⟩
  · obtain ⟨t, ht, hfailed⟩ := exec_init_failedAt
      (before := [.rst .low, .dly s.cfg.resetHoldMs, .rst .high, .dly s.cfg.resetHoldMs, .dc .cmd])
      hready hhead rfl hok hf
    exact ⟨t, ht, hfailed.xfer⟩

end Sys2Proof.Machine
end

section
/-! PROOFS. 60_exceptions.md R237, 20_memory.md R64: `INIT` and `DISPLAY_FRAME` end `Ok` at an idle sample alone
(O52), and never end with a panel that does not report idle (O55). -/

namespace Sys2Proof.Machine

/-! ## The end at an idle sample -/

/-- No error answers as `Ok` does (30_encoding.md R96). -/
theorem ErrorKind.code_ne_ok (kind : ErrorKind) : kind.code ≠ 0x00 := by cases kind <;> decide

/-- An operation that answers `Ok` has done all its actions. -/
theorem Ends.done_of_ok {actions : List Action} {s t : State} (h : Ends (respond []) actions s t)
    (hok : t.responses = s.responses ++ [[0x00]]) :
    run actions s = .done (s.afterOk actions) ∧ t = respond [] (s.afterOk actions) := by
  have unanswered : ∀ u, (run actions s).state? = some u → u.responses ≠ s.responses ++ [[0x00]] := by
    intro u hu heq
    rw [(run_portOnly hu).responses] at heq
    simp at heq
  cases h with
  | done hr ht => exact ⟨hr, ht⟩
  | waiting hr => exact absurd hok (unanswered t (by rw [hr]; rfl))
  | err kind u hr ht =>
    subst ht
    rw [takeErr_responses, (run_portOnly (s := s) (t := u) (by rw [hr]; rfl)).responses] at hok
    exact absurd (by simpa using hok) kind.code_ne_ok
  | abort u hr ht => subst ht; exact absurd hok (unanswered u (by rw [hr]; rfl))

/-- The last primitive is a sample of BUSY (40_transport.md R125). -/
def EndsAtSample (actions : List Action) : Prop :=
  ∃ before, okEvents actions = before ++ [.poll .idle]

theorem EndsAtSample.trace {actions : List Action} (h : EndsAtSample actions) (s : State) :
    ∃ older, (s.afterOk actions).trace = .poll .idle :: older := by
  obtain ⟨before, hb⟩ := h
  exact ⟨before.reverse ++ s.trace, by simp [State.afterOk, hb]⟩

theorem endsAtSample_driverProcedure {c : Config} {i : Instr} (h : i = .init ∨ i = .displayFrame) :
    EndsAtSample (driverProcedure c i) := by
  rcases h with rfl | rfl
  · refine ⟨okEvents (initHead c ++ (waitUntilIdle ++ initMiddle c)), ?_⟩
    rw [driverProcedure, initProcedure_eq]
    simp [okEvents]
  · refine ⟨okEvents (displayHead c), ?_⟩
    rw [driverProcedure, displayProcedure_eq]
    simp

/-- What is left after a wait begins and ends with a sample of BUSY. -/
theorem SequencerPlace.rest_samples {s : State} {op : Instr} (h : SequencerPlace s)
    (hop : s.curOp = some op) :
    (∃ tail, s.rest op = waitUntilIdle ++ tail) ∧ EndsAtSample (s.rest op) := by
  rcases h.rest hop with ⟨-, -, -, -, hr⟩ | ⟨-, -, -, -, hr⟩ | ⟨-, -, -, -, hr⟩ <;> rw [hr]
  · exact ⟨⟨_, rfl⟩, okEvents (waitUntilIdle ++ initMiddle s.cfg), by simp [okEvents]⟩
  · exact ⟨⟨_, rfl⟩, [], by simp [okEvents]⟩
  · exact ⟨⟨[], rfl⟩, [], by simp⟩

/-- Settles O52: `Ok` comes behind the last primitive, which is a sample, and a sample comes first after a
wait. -/
theorem noCompletionWithoutAnIdleSample : Obligations.NoCompletionWithoutAnIdleSample := by
  refine ⟨fun s t i hi h hok => ?start, fun s t i hs hop hn hstep hok => ?later⟩
  case start =>
    have hdriver : i.isDriver = true := by rcases hi with rfl | rfl <;> rfl
    obtain ⟨-, -, he, -⟩ := exec_driver_cases hdriver h
    obtain ⟨-, rfl⟩ := he.done_of_ok hok
    exact (endsAtSample_driverProcedure hi).trace _
  case later =>
    obtain ⟨⟨tail, htail⟩, hsample⟩ := hs.place.rest_samples hop
    rw [hs.step_eq_run hop hn] at hstep
    obtain ⟨hr, rfl⟩ := (finish_cases hstep).done_of_ok hok
    refine ⟨?_, hsample.trace _⟩
    rcases BusySample.cases s.busyFeed.head with hbusy | hidle
    · rw [htail, run_wait_busy (s := { s with resets := s.ticked.resets }) hbusy] at hr
      cases hr
    · exact hidle

/-! ## A busy panel -/

theorem State.initBetween_fsm (s : State) (k : Nat) : (s.initBetween k).fsm = .configuring :=
  State.atInitEnd_fsm _

/-- `DISPLAY_FRAME`, run by a step of `x` on `s`, waits for ever at a panel that always reads busy. -/
theorem coreRun_display_busy {x s : State} (hx : step x = exec .displayFrame s)
    (hready : DriverReady s) (hport : NoTransportFault s) (hslot : s.wireSlot = none)
    (hresets : s.resets = []) (hbusy : NeverIdle s) (n : Nat) :
    Host.Core.run Sys2Proof.core (n + 1) x = .next (s.atDisplayWait.waited (n + 1)) := by
  rw [exec_display_eq hready hport] at hx
  exact coreRun_waited_next (w := s.atDisplayWait) hx (.atDisplayWait hready) rfl hresets hslot n
    fun j _ => by simpa using hbusy j

/-- `INIT`, run by a step of `x` on `s`, waits for ever at its first wait at a panel that always reads
busy. -/
theorem coreRun_init_busy {x s : State} (hx : step x = exec .init s) (hready : InitReady s)
    (hport : NoTransportFault s) (hslot : s.wireSlot = none) (hresets : s.resets = [])
    (hbusy : NeverIdle s) (n : Nat) :
    Host.Core.run Sys2Proof.core (n + 1) x = .next (s.atInitWait.waited (n + 1)) := by
  rw [exec_init_eq hready hport] at hx
  exact coreRun_waited_next (w := s.atInitWait) hx (.atInitWait hready) rfl hresets hslot n
    fun j _ => by simpa using hbusy j

/-- `INIT`, run by a step of `x` on `s`, waits for ever at its second wait at a panel that reads idle once,
after `k` busy samples, and busy ever after. -/
theorem coreRun_init_busy_after {x s : State} {k : Nat} (hx : step x = exec .init s)
    (hready : InitReady s) (hport : NoTransportFault s) (hslot : s.wireSlot = none)
    (hresets : s.resets = []) (hk : FirstIdle s.busyFeed k)
    (hbusy : ∀ j, (s.busyFeed.drop (k + 1 + j)).head = .busy) (n : Nat) :
    Host.Core.run Sys2Proof.core (k + n + 1) x = .next ((s.initBetween k).waited (n + 1)) := by
  obtain ⟨hbefore, hidle⟩ := hk
  rw [exec_init_eq hready hport] at hx
  obtain ⟨y, hy, hstep⟩ := coreRun_waited (w := s.atInitWait) hx (.atInitWait hready) rfl
    hresets hslot k (by simpa using hbefore)
  have hbetween : step y = resume .init (s.initBetween k) :=
    hstep.trans (resume_init_idle hready.valid (hport.of_drop _ rfl) s.atInitWait_useq
      (by simpa using hidle))
  have hplace : SequencerPlace (s.initBetween k) :=
    .atInitEnd rfl s.atInitWait_useq hready.accepting.1
  rw [Nat.add_assoc]
  exact coreRun_add hy (coreRun_waited_next hbetween hplace rfl hresets hslot n
    fun j _ => by simpa using hbusy j)

/-- Settles O55: the operation waits at the state that `n + 1` rounds make of the one at its wait. -/
theorem operationsHangOnABusyPanel : Obligations.OperationsHangOnABusyPanel := by
  refine ⟨fun s s' hready hport hbusy hslot hresets hframe n => ?display,
    fun s s' hready hport hslot hresets hframe => ?init⟩
  case display =>
    obtain ⟨later, hstep⟩ :=
      exists_step_of_request (i := .displayFrame) hresets hready.accepting hframe rfl
    have hrun := coreRun_display_busy hstep ⟨hready.accepting, hready.ready, hready.valid⟩ hport
      hslot hresets hbusy n
    exact ⟨_, hrun, rfl, (State.atDisplayWait_fsm _).trans hready.ready, hready.accepting.1, rfl,
      by rw [State.waited_events, State.atDisplayWait_events]; rfl⟩
  case init =>
    obtain ⟨later, hstep⟩ :=
      exists_step_of_request (i := .init) hresets hready.accepting hframe rfl
    have hready' : InitReady { s with requests := later } :=
      ⟨hready.accepting, hready.admitted, hready.valid⟩
    refine ⟨fun hbusy n => ?_, fun k hk hbusy n => ?_⟩
    · exact ⟨_, coreRun_init_busy hstep hready' hport hslot hresets hbusy n, rfl,
        State.atInitWait_fsm { s with requests := later }, hready.accepting.1, rfl,
        by rw [State.waited_events, State.atInitWait_events]; rfl⟩
    · exact ⟨_, coreRun_init_busy_after hstep hready' hport hslot hresets hk hbusy n, rfl,
        State.initBetween_fsm { s with requests := later } k, hready.accepting.1, rfl,
        by rw [State.waited_events, State.initBetween_events hready'.valid]; rfl⟩

end Sys2Proof.Machine
end

section
/-! PROOFS. 70_reset_and_hazards.md R262: without a host operation the block does nothing of its own accord. -/

namespace Sys2Proof.Machine

/-- The sequencer has nothing to do between operations when there is no frame to take. -/
theorem advance_of_idle {s : State} (hc : s.curOp = none) (hf : nextFrame s = none) :
    advance s = .next s := by
  simp [advance, hf, hc]

/-- Settles O3: with no block reset to come a step is the sequencer's alone, which has nothing to do. -/
theorem nothingHappensOfItsOwnAccord : Obligations.NothingHappensOfItsOwnAccord := by
  intro s hc hf hr
  rw [step_of_noReset (noResetDue_of_nil hr), State.ticked_of_nil hr]
  exact advance_of_idle hc hf

end Sys2Proof.Machine
end
